-- ==== Sys2Proof/Word.lean ====
section
/-! DEFINITION. The machine word, the byte, the privilege level, and the two open sizes that the types of the model
depend on. -/

namespace Sys2Proof

/-- A 64-bit word: a general register (R10, `GPR_W`) or the image of an SFR (00_scope.md section 4, `SFR_W`). -/
abbrev Word := BitVec 64

/-- One byte of instruction memory (`ADDR_UNIT`, 92_eei_decisions.md D4). -/
abbrev Byte := BitVec 8

/-- A privilege level PL0 to PL3, or an offset between two of them (R2: numerically lower is more privileged). -/
abbrev Level := Fin 4

/-- How many general registers there are beyond `$r0`, the one that R10 names: the parameter of R10.
That its bound is 65536 is the MODEL'S choice (DESIGN CHOICE, notes/assumptions/7.md). -/
opaque Config.extraRegs : BitVec 16

/-- The number of general registers (R10): open (91_not_in_source.md N1). -/
abbrev gprCount : Nat := Config.extraRegs.toNat + 1

/-- `PC_W` before its constraint. -/
opaque Config.pcWidthRaw : Fin 63

/-- `PC_W`, the width of the program counter and of SPC, EV and EA (00_scope.md section 4, D5): open. Four categories
have four handler addresses (R140), so it is at least 2; SPC, EV and EA are SFRs, so it is at most `SFR_W` (DEDUCED,
notes/assumptions/6.md). -/
def pcWidth : Nat := Config.pcWidthRaw.val + 2

/-- An address: what the program counter holds (R11). -/
abbrev Pc := BitVec pcWidth

end Sys2Proof
end

