-- ==== Sys2Proof/Syntax.lean ====
section
/-! DEFINITION. The instructions, their operands, and bundles (30_encoding.md). -/

namespace Sys2Proof

/-- A general register `$r<n>` (R10). -/
abbrev Reg := Fin gprCount

/-- An interrupt line `IT<k>` (R149). -/
abbrev Line := Fin 32

/-- The number of a 2-bit owner field inside an ownership register (R21, R22). -/
abbrev Slot := Fin 32

/-- A bit number of an SFR. -/
abbrev BitNo := Fin 64

/-- The six ownership registers of R21; `dbo` is the one the spec calls DO. -/
inductive OwnReg where
  /-- SYO, owners of system calls (R23). -/
  | syo
  /-- HTO, owners of hardware traps (R24). -/
  | hto
  /-- ITO, owners of interrupts (R22). -/
  | ito
  /-- DO, owners of debug exceptions (R25). -/
  | dbo
  /-- MO, owners of the remaining resources (R26). -/
  | mo
  /-- PSO, owners of the PS fields (R26). -/
  | pso
deriving DecidableEq, Repr, Inhabited

/-- The system function registers an instruction can name (10_state.md). -/
inductive Sfr where
  /-- PS (R12). -/
  | ps
  /-- PCR (R28). -/
  | pcr
  /-- WS (R29). -/
  | ws
  /-- ILR (R30). -/
  | ilr
  /-- EV4 (R30). -/
  | ev4
  /-- The SFR, unnamed by the spec, that holds the individual interrupt enables (R32). -/
  | itEnable
  /-- The SFR, unnamed by the spec, that holds the interrupt levels (R32). -/
  | itLevel
  /-- `SPS_PL[j]` (R15). -/
  | sps (j : Level)
  /-- `SPC_PL[j]` (R17). -/
  | spc (j : Level)
  /-- `EV_PL[j]` (R18). -/
  | ev (j : Level)
  /-- `ES_PL[j]` (R19). -/
  | es (j : Level)
  /-- `EA_PL[j]` (R20). -/
  | ea (j : Level)
  /-- A *O name, for reads (R21, R54). -/
  | own (r : OwnReg)
  /-- A *OW name, the write alias (R27, R54). -/
  | ownW (r : OwnReg)
deriving DecidableEq, Repr, Inhabited

/-- The instructions: one constructor per row of the opcode table (R56). -/
inductive Instr where
  /-- `rfe` (R60). -/
  | rfe
  /-- `get $r<d> = $<sfr>` (R73). -/
  | get (d : Reg) (sfr : Sfr)
  /-- `iget $r<z>`: register `z` supplies the SFR number and receives the value (R74, D30). -/
  | iget (z : Reg)
  /-- `set $<sfr> = $r<s>` (R77). -/
  | set (sfr : Sfr) (r : Reg)
  /-- `wfxl $<sfr> = $r<s>` (R78). -/
  | wfxl (sfr : Sfr) (r : Reg)
  /-- `wfxm $<sfr> = $r<s>` (R81). -/
  | wfxm (sfr : Sfr) (r : Reg)
  /-- `rswap`, one SFR and one general register (R89). -/
  | rswap (sfr : Sfr) (r : Reg)
  /-- A member of the family `tlb*` (R90); the spec names no member, `m` is a number for it. -/
  | tlb (m : BitVec 8)
  /-- `await` (R100). -/
  | await
  /-- `sleep` (R103). -/
  | sleep
  /-- `stop` (R106). -/
  | stop
  /-- `make $r<d> = imm64` (R120). -/
  | make (d : Reg) (imm : Word)
  /-- `nop` (R121). -/
  | nop
  /-- The system call (R122); `n` is what selects its SYO field. -/
  | scall (n : BitVec 16)
deriving DecidableEq, Repr, Inhabited

/-- A bundle: the instructions that execute together (R3). -/
abbrev Bundle := List Instr

/-- What an instruction is, without its operands: the unit that can have an owner (R91). -/
inductive Op where
  | rfe | get | iget | set | wfxl | wfxm | rswap
  | tlb (m : BitVec 8)
  | await | sleep | stop | make | nop | scall
deriving DecidableEq, Repr, Inhabited

/-- The instruction kinds of the table `SfrAccess` (R72). WFXL and WFXM are one kind, WFX*. -/
inductive AccessKind where
  | get | iget | set | wfx | rswap
deriving DecidableEq, Repr, Inhabited

/-- The four categories of exception (R130). -/
inductive Category where
  | interrupt | hwtrap | syscall | debug
deriving DecidableEq, Repr, Inhabited

/-- The hardware traps with an owner field in HTO (R24, R144); PRIVILEGE has none (R147). -/
inductive HtoTrap where
  | opcode | plo
deriving DecidableEq, Repr, Inhabited

/-- What raised an exception: the `cause` argument of TakeException (R134). -/
inductive Cause where
  /-- The OPCODE trap (R145). -/
  | opcode
  /-- The PRIVILEGE trap (R147). -/
  | privilege
  /-- The PL Overflow trap (R148). -/
  | plo
  /-- An interrupt on a line (R150). -/
  | interrupt (k : Line)
  /-- A system call (R122). -/
  | syscall (n : BitVec 16)
  /-- A debug event (R157). -/
  | debug (d : BitVec 5)
deriving DecidableEq, Repr, Inhabited

end Sys2Proof
end

