-- ==== Sys2Proof/Config.lean ====
section
/-! DEFINITION. The open parameters of 00_scope.md section 4, and the values the spec leaves free. Each is an
uninterpreted constant: a statement holds for every value of it. Constraints that the spec puts on a parameter are
met by construction in the files that read these (Machine/Layout.lean, Machine/Access.lean, Machine/Ops.lean). -/

namespace Sys2Proof

/-- Positions of the PS fields (`PS_LAYOUT`, R12); SPS_PL[j] has the same fields (R15). -/
structure PsLayout where
  /-- Lower bit of PL, which is 2 bits wide. -/
  plLo : Nat
  /-- Bit of IE. -/
  iePos : Nat
  /-- Bit of ET. -/
  etPos : Nat
  /-- Lower bit of IL. -/
  ilLo : Nat
  /-- Width of IL, which the spec does not give. -/
  ilWidth : Nat
  /-- Bit of the cache-enable state (R12, R42). -/
  cachePos : Nat
  /-- Bit of the 32/64-bit mode selection (R12, R42). -/
  modePos : Nat
  /-- Bits of the other fields, which the spec does not name. -/
  otherBits : Word
deriving DecidableEq, Repr, Inhabited

/-- Positions of the WS fields (R29). -/
structure WsLayout where
  wu0Pos : Nat
  wu1Pos : Nat
  wu2Pos : Nat
  /-- Bits of any other WS field. -/
  otherBits : Word
deriving DecidableEq, Repr, Inhabited

/-- A PS field, as PSO owns it (R26). -/
inductive PsField where
  | pl | ie | et | il
  /-- The unnamed field that covers a bit. -/
  | other (b : BitNo)
deriving DecidableEq, Repr, Inhabited

/-- How ES reports (R19, R141): no field, position or code of it is given (91_not_in_source.md N5). -/
structure EsLayout where
  /-- Lower bits of the *RPL fields, each 2 bits wide: they hold relative levels (R36). -/
  rpl : List Nat
  /-- The category a value of ES reports (R130). -/
  category : Word → Category
  /-- One value that reports a category. -/
  witness : Category → Word
deriving Inhabited

/-- Where an SFR keeps one thing of each interrupt line: a request in ILR (R30), the enable or the level (R32). Neither
the places nor the codes are given (91_not_in_source.md N8, N10). -/
structure LineFields where
  /-- The bits of a line's field. -/
  bits : Line → Word
  /-- What the field of a line means when it holds a value: the level; a request registered, or the line enabled, unless
  it is 0. -/
  value : Line → Word → Nat
  /-- One value of the SFR that means no 0 in the field of an existing line. -/
  raised : Word
  /-- One value of ILR that registers no request. -/
  clear : Word
deriving Inhabited

/-- The values a hardware reset leaves unspecified (R35, R170): a draw. It is an argument of the reset step, never part
of a state. -/
structure ResetDraw where
  /-- The unspecified general registers, by number. -/
  gpr : Nat → Word
  /-- The unspecified words, by a number of the model's own (Machine/State.lean). -/
  word : Nat → Word
deriving Inhabited

namespace Config

/-- `PS_LAYOUT` before its constraints (91_not_in_source.md N3). -/
opaque psLayoutRaw : PsLayout
/-- Bits of further PS fields in FOE0 (R14, D7). -/
opaque foe0Raw : Word
/-- Bits of further PS fields in FOE1 (R14, D7). -/
opaque foe1Raw : Word
/-- WS layout before its constraints (N8). -/
opaque wsLayoutRaw : WsLayout
/-- What a read returns in a bit that no field covers (D39). -/
opaque outsideBit : Sfr → BitNo → Bool

/-- Number of interrupt lines beyond the thirteen that R22 guarantees (`N_IT`, D28). -/
opaque extraLines : Nat
/-- Which fields SYO, HTO, DO, MO and PSO have, beyond the one that each has for certain (N7). -/
opaque ownFieldRaw : OwnReg → Slot → Bool
/-- A field that the register has: an ownership register holds owners (R21). The one of SYO is Q0 (R23). -/
opaque firstSlot : OwnReg → Slot
/-! `OwnerField`, each before its constraint, that the register has the field (Machine/Layout.lean). -/

/-- The SYO field a system call selects (R122, N16). -/
opaque syoSlotRaw : BitVec 16 → Slot
/-- The HTO field of a hardware trap (R24, D35). -/
opaque htoSlotRaw : HtoTrap → Slot
/-- The DO field of a debug event (R25, D35). -/
opaque doSlotRaw : BitVec 5 → Slot
/-- The PSO field of a PS field (R26). -/
opaque psoSlotRaw : PsField → Slot
/-- The MO field that owns a bit of an SFR other than PS and the per-level registers (R26, R71). -/
opaque moSlotRaw : Sfr → BitNo → Slot
/-- The MO field that owns an instruction, or none (R91, D25). -/
opaque instrSlotRaw : Op → Option Slot

/-- An SFR that RSWAP may access, before its constraint (R89). -/
opaque rswapTargetRaw : Sfr
/-- The rows of `SfrAccess` the spec does not give, for a whole SFR (R72, N9). -/
opaque sfrAccessRaw : AccessKind → Sfr → Bool
/-- The rows of `SfrAccess` the spec does not give, for one bit of an SFR and WFX* (R72, R78). -/
opaque wfxFieldRaw : Sfr → BitNo → Bool
/-- `SfrIndex` before its constraint: the number of each SFR (N22). -/
opaque sfrIndexRaw : Sfr → Word

/-- The OPCODE check of a TLB* member (R90). -/
opaque tlbAccess : BitVec 8 → Bool
/-- The MO fields that own what a TLB* member writes, before the constraint that MO has them (R90). -/
opaque tlbSlotsRaw : BitVec 8 → List Slot

/-- `HandlerPC` before its constraint (R140, N4). -/
opaque handlerRaw : Pc → Category → Pc
/-- How ES reports, before its constraint (R19, R141). -/
opaque esLayoutRaw : EsLayout
/-- `EsInfo` before its constraint: a draw at each entry (R141). -/
opaque esRaw : Nat → Category → Cause → Level → Level → Pc → Word
/-- `EaInfo`: a draw at each entry (R142). -/
opaque eaRaw : Nat → Category → Cause → Level → Level → Pc → Pc

/-- `RESET_PC` (R34). -/
opaque resetPc : Pc
/-- What a hardware reset during a run leaves in the state the spec gives no reset value (R35, U7). -/
opaque resetDraw : Nat → ResetDraw
/-- What an address that passes the top of the address space becomes (R11, D5). -/
opaque pcWrap : Pc → Nat → Pc

/-- The lines' requests in ILR, before the constraints (R30, N8). -/
opaque ilrFieldsRaw : LineFields
/-- The lines' enables in their SFR, before the constraints (R32, N10). -/
opaque enableFieldsRaw : LineFields
/-- The lines' levels in their SFR, before the constraints (R32, N10). -/
opaque levelFieldsRaw : LineFields
/-- What EV4 holds once it held a word and then registered events (R30, N8). -/
opaque ev4Image : Word → List Nat → Word

/-- Which of several eligible interrupts is taken (R150, D26). -/
opaque pickInterrupt : Nat → Nat
/-- Whether the next bundle executes before an eligible interrupt is taken (R146, D26). -/
opaque delayInterrupt : Nat → Bool

end Config
end Sys2Proof
end

