-- ==== Sys2Proof/Decode.lean ====
section
/-! DEFINITION. `Decode` and its encoder. THE SPEC GIVES NO ENCODING (30_encoding.md, R52): the bits below are the
MODEL'S STAND-IN (DESIGN CHOICE, notes/assumptions/1.md) for the open parameter `Decode`; Machine/Step.lean takes any
decoder. What the spec does say of encodings holds here: SET, WFX*, RSWAP and TLB* take 4 address units (R50), bundles
end at a mark (R3), the byte order is little-endian (R43).

The stand-in: an instruction is one 32-bit header, and MAKE has its 64-bit immediate after it.
  bit  31     1 when another instruction of the same bundle follows
  bits 30:24  opcode, 1 to 14 in the order of the opcode table
  bits 23:16  the model's ordinal of the SFR operand, else 0
  bits 15:0   register number, TLB* member or system-call selector, else 0 -/

namespace Sys2Proof

/-- The six ownership registers. -/
def allOwnRegs : List OwnReg := [.syo, .hto, .ito, .dbo, .mo, .pso]

/-- Every SFR name of the model. -/
def allSfrs : List Sfr :=
  [.ps, .pcr, .ws, .ilr, .ev4, .itEnable, .itLevel]
    ++ ((List.finRange 4).map .sps ++ ((List.finRange 4).map .spc ++ ((List.finRange 4).map .ev
    ++ ((List.finRange 4).map .es ++ (List.finRange 4).map .ea))))
    ++ (allOwnRegs.map .own ++ allOwnRegs.map .ownW)

/-- A number of the model's own for each SFR, from 0 up: no claim about `SfrIndex`. -/
def sfrOrdinal : Sfr → Nat
  | .ps => 0
  | .pcr => 1
  | .ws => 2
  | .ilr => 3
  | .ev4 => 4
  | .itEnable => 5
  | .itLevel => 6
  | .sps j => 8 + j.val
  | .spc j => 12 + j.val
  | .ev j => 16 + j.val
  | .es j => 20 + j.val
  | .ea j => 24 + j.val
  | .own r => 32 + allOwnRegs.idxOf r
  | .ownW r => 40 + allOwnRegs.idxOf r

/-- The SFR with an ordinal. -/
def sfrOfOrdinal (n : Nat) : Option Sfr := allSfrs.find? fun f => sfrOrdinal f == n

/-- Why bytes are no bundle. -/
inductive Reject where
  /-- They end inside an instruction. -/
  | truncated
  /-- The opcode is assigned to no instruction. -/
  | badOpcode
  /-- The SFR ordinal names no SFR. -/
  | badSfr
  /-- A register that does not exist, or a bit set in an operand position the instruction does not use. -/
  | badOperand
  /-- More than eight instructions in a bundle. -/
  | bundleTooLong
deriving DecidableEq, Repr

/-- The register operand of a header: the number of a register that exists. -/
def regOperand (lo hi : Byte) : Except Reject Reg :=
  if h : (hi ++ lo).toNat < gprCount then .ok ⟨(hi ++ lo).toNat, h⟩ else .error .badOperand

/-- The SFR operand of a header. -/
def sfrOperand (sfr : Byte) : Except Reject Sfr :=
  match sfrOfOrdinal sfr.toNat with
  | some f => .ok f
  | none => .error .badSfr

/-- An instruction without operands: its operand positions hold 0. -/
def noOperand (i : Instr) (lo hi sfr : Byte) : Except Reject Instr :=
  if lo = 0#8 ∧ hi = 0#8 ∧ sfr = 0#8 then .ok i else .error .badOperand

/-- An instruction with one register operand. -/
def oneReg (f : Reg → Instr) (lo hi sfr : Byte) : Except Reject Instr :=
  if sfr = 0#8 then
    match regOperand lo hi with
    | .ok r => .ok (f r)
    | .error e => .error e
  else .error .badOperand

/-- An instruction with one SFR and one register operand. -/
def sfrAndReg (f : Sfr → Reg → Instr) (lo hi sfr : Byte) : Except Reject Instr :=
  match sfrOperand sfr with
  | .error e => .error e
  | .ok k =>
    match regOperand lo hi with
    | .ok r => .ok (f k r)
    | .error e => .error e

/-- The 64-bit immediate of MAKE, least significant byte first (R53, R120). -/
def immediate : List Byte → Option (Word × List Byte)
  | b0 :: b1 :: b2 :: b3 :: b4 :: b5 :: b6 :: b7 :: rest =>
    some ((b7 ++ b6 ++ b5 ++ b4 ++ b3 ++ b2 ++ b1 ++ b0 : BitVec 64), rest)
  | _ => none

/-- An instruction that is its header alone. -/
def headerOnly (rest : List Byte) : Except Reject Instr → Except Reject (Instr × List Byte)
  | .ok i => .ok (i, rest)
  | .error e => .error e

/-- The instruction with opcode `op`, the operand bytes of its header, and what follows the header. -/
def decodeOperands (op : Nat) (lo hi sfr : Byte) (rest : List Byte) : Except Reject (Instr × List Byte) :=
  match op with
  | 1 => headerOnly rest (noOperand .rfe lo hi sfr)
  | 2 => headerOnly rest (sfrAndReg (fun f d => .get d f) lo hi sfr)
  | 3 => headerOnly rest (oneReg .iget lo hi sfr)
  | 4 => headerOnly rest (sfrAndReg .set lo hi sfr)
  | 5 => headerOnly rest (sfrAndReg .wfxl lo hi sfr)
  | 6 => headerOnly rest (sfrAndReg .wfxm lo hi sfr)
  | 7 => headerOnly rest (sfrAndReg .rswap lo hi sfr)
  | 8 => headerOnly rest (if hi = 0#8 ∧ sfr = 0#8 then .ok (.tlb lo) else .error .badOperand)
  | 9 => headerOnly rest (noOperand .await lo hi sfr)
  | 10 => headerOnly rest (noOperand .sleep lo hi sfr)
  | 11 => headerOnly rest (noOperand .stop lo hi sfr)
  | 12 =>
    match oneReg (fun d => .make d 0#64) lo hi sfr with
    | .error e => .error e
    | .ok _ =>
      match regOperand lo hi, immediate rest with
      | .ok d, some (imm, rest') => .ok (.make d imm, rest')
      | .error e, _ => .error e
      | _, none => .error .truncated
  | 13 => headerOnly rest (noOperand .nop lo hi sfr)
  | 14 => headerOnly rest (if sfr = 0#8 then .ok (.scall (hi ++ lo)) else .error .badOperand)
  | _ => .error .badOpcode

/-- The first instruction, whether another one of its bundle follows, and the bytes after it. -/
def decodeInstr : List Byte → Except Reject (Instr × Bool × List Byte)
  | lo :: hi :: sfr :: top :: rest =>
    match decodeOperands (top.toNat % 128) lo hi sfr rest with
    | .ok (i, rest') => .ok (i, decide (128 ≤ top.toNat), rest')
    | .error e => .error e
  | _ => .error .truncated

/-- How many bytes an instruction takes. -/
def instrSize : Instr → Nat
  | .make _ _ => 12
  | .rfe | .get _ _ | .iget _ | .set _ _ | .wfxl _ _ | .wfxm _ _ | .rswap _ _ | .tlb _ | .await | .sleep | .stop
  | .nop | .scall _ => 4

/-- A bundle of at most `n` instructions, and its size. -/
def decodeUpTo : Nat → List Byte → Except Reject (Bundle × Nat)
  | 0, _ => .error .bundleTooLong
  | n + 1, bytes =>
    match decodeInstr bytes with
    | .error e => .error e
    | .ok (i, false, _) => .ok ([i], instrSize i)
    | .ok (i, true, rest) =>
      match decodeUpTo n rest with
      | .error e => .error e
      | .ok (b, size) => .ok (i :: b, instrSize i + size)

/-- The most instructions a bundle of the stand-in encoding may hold; the spec gives no limit (R3). -/
def maxBundle : Nat := 8

/-- The bundle at the head of `bytes`, and its size in address units. -/
def decodeBundle (bytes : List Byte) : Except Reject (Bundle × Nat) := decodeUpTo maxBundle bytes

/-- The opcode of the stand-in encoding. -/
def opcodeOf : Instr → Nat
  | .rfe => 1
  | .get _ _ => 2
  | .iget _ => 3
  | .set _ _ => 4
  | .wfxl _ _ => 5
  | .wfxm _ _ => 6
  | .rswap _ _ => 7
  | .tlb _ => 8
  | .await => 9
  | .sleep => 10
  | .stop => 11
  | .make _ _ => 12
  | .nop => 13
  | .scall _ => 14

/-- The SFR byte of an instruction's header. -/
def sfrByte : Instr → Byte
  | .get _ f | .set f _ | .wfxl f _ | .wfxm f _ | .rswap f _ => BitVec.ofNat 8 (sfrOrdinal f)
  | .rfe | .iget _ | .tlb _ | .await | .sleep | .stop | .make _ _ | .nop | .scall _ => 0#8

/-- The two operand bytes of an instruction's header, low byte first. -/
def operandBytes : Instr → Byte × Byte
  | .get r _ | .iget r | .set _ r | .wfxl _ r | .wfxm _ r | .rswap _ r | .make r _ =>
    (BitVec.ofNat 8 r.val, BitVec.ofNat 8 (r.val / 256))
  | .tlb m => (m, 0#8)
  | .scall n => (n.extractLsb' 0 8, n.extractLsb' 8 8)
  | .rfe | .await | .sleep | .stop | .nop => (0#8, 0#8)

/-- What follows an instruction's header. -/
def tailBytes : Instr → List Byte
  | .make _ imm => (List.range 8).map fun k => imm.extractLsb' (8 * k) 8
  | .rfe | .get _ _ | .iget _ | .set _ _ | .wfxl _ _ | .wfxm _ _ | .rswap _ _ | .tlb _ | .await | .sleep | .stop
  | .nop | .scall _ => []

/-- The bytes of an instruction; `more` when another one of its bundle follows. -/
def encodeInstr (more : Bool) (i : Instr) : List Byte :=
  (operandBytes i).1 :: (operandBytes i).2 :: sfrByte i ::
    BitVec.ofNat 8 (opcodeOf i + if more then 128 else 0) :: tailBytes i

/-- The bytes of a bundle that holds one instruction. -/
def encode (i : Instr) : List Byte := encodeInstr false i

/-- The bytes of a bundle. -/
def encodeBundle : Bundle → List Byte
  | [] => []
  | [i] => encodeInstr false i
  | i :: j :: b => encodeInstr true i ++ encodeBundle (j :: b)

/-- The size in address units of a bundle in the stand-in encoding. -/
def bundleSize (b : Bundle) : Nat := (b.map instrSize).sum

/-- The longest instruction, in bytes. -/
def maxInstrBytes : Nat := 12

/-- The bytes of an instruction whose bits are `w`, `nbits` of them given and every further bit 0, in memory order. -/
def tableBytes (nbits w : Nat) : List Byte :=
  (List.range maxInstrBytes).map fun k => if 8 * k < nbits then BitVec.ofNat 8 (w / 2 ^ (8 * k)) else 0#8

/-- The instruction the decoder reads from an instruction whose bits are `w`: one that is a bundle by itself. -/
def decodeTableWord (nbits w : Nat) : Option Instr :=
  match decodeBundle (tableBytes nbits w) with
  | .ok ([i], _) => some i
  | _ => none

end Sys2Proof
end

