-- ==== Sys2Proof/Machine/Layout.lean ====
section
/-! DEFINITION. Where the fields of the SFRs lie: the open layouts of Config with the constraints the spec puts on them.
A constrained parameter is the raw constant where that meets the constraint and a stand-in elsewhere, so it ranges over
exactly the values that meet it. -/

namespace Sys2Proof

/-- Bit `n` of a 2-bit privilege-level field (`PL_W`). -/
def levelBit (l : Level) (n : Nat) : Bool := l.val.testBit n

/-- The privilege level whose 2-bit field holds `b1 b0`. -/
def levelOfBits (b0 b1 : Bool) : Level := ⟨b0.toNat + 2 * b1.toNat, by cases b0 <;> cases b1 <;> decide⟩

/-- The fields of a PS layout that have a position of their own, as (lower bit, width). -/
def PsLayout.segments (l : PsLayout) : List (Nat × Nat) :=
  [(l.plLo, 2), (l.iePos, 1), (l.etPos, 1), (l.ilLo, l.ilWidth), (l.cachePos, 1), (l.modePos, 1)]

/-- A field has a bit, and lies within bits 31:0 or within bits 63:32 (R78, R81). -/
def segmentFits (f : Nat × Nat) : Bool :=
  decide (0 < f.2) && (decide (f.1 + f.2 ≤ 32) || (decide (32 ≤ f.1) && decide (f.1 + f.2 ≤ 64)))

/-- Two fields share no bit. -/
abbrev SegmentsApart (f g : Nat × Nat) : Prop := f.1 + f.2 ≤ g.1 ∨ g.1 + g.2 ≤ f.1

/-- The layout is one of fields that fit and share no bit. -/
def PsLayout.ok (l : PsLayout) : Bool :=
  l.segments.all segmentFits && decide (l.segments.Pairwise SegmentsApart)

/-- A layout that fits; its positions are no claim about the hardware. -/
def PsLayout.standIn : PsLayout :=
  { plLo := 0, iePos := 2, etPos := 3, ilLo := 4, ilWidth := 2, cachePos := 6, modePos := 7, otherBits := 0#64 }

/-- `PS_LAYOUT` (R12). -/
def psLayout : PsLayout := if Config.psLayoutRaw.ok then Config.psLayoutRaw else .standIn

/-- The PS field that covers bit `b`, if any. -/
def psFieldAt (b : BitNo) : Option PsField :=
  if b.val = psLayout.plLo ∨ b.val = psLayout.plLo + 1 then some .pl
  else if b.val = psLayout.iePos then some .ie
  else if b.val = psLayout.etPos then some .et
  else if psLayout.ilLo ≤ b.val ∧ b.val < psLayout.ilLo + psLayout.ilWidth then some .il
  else if b.val = psLayout.cachePos ∨ b.val = psLayout.modePos ∨ psLayout.otherBits.getLsbD b.val = true then
    some (.other b)
  else none

/-- The bits of the unnamed PS fields. -/
def psOtherMask : Word := BitVec.ofFnLE fun b : BitNo => decide (psFieldAt b = some (.other b))

/-- The mask of IL at the foot of a word. -/
def ilMask : Word := BitVec.ofFnLE fun b : BitNo => decide (b.val < psLayout.ilWidth)

/-- Whether an unnamed PS bit can be a FOE bit: the cache enable and the 32/64-bit mode are remnant state, which entry
restores (R135), so they are not. -/
def mayBeFoe (b : BitNo) : Bool :=
  decide (psFieldAt b = some (.other b)) && decide (b.val ≠ psLayout.cachePos) && decide (b.val ≠ psLayout.modePos)

/-- The unnamed PS bits forced to 0 on exception entry (R14, `FOE0`). -/
def foe0Mask : Word := BitVec.ofFnLE fun b : BitNo => mayBeFoe b && Config.foe0Raw.getLsbD b.val

/-- The unnamed PS bits forced to 1 on exception entry (R14, `FOE1`). -/
def foe1Mask : Word :=
  BitVec.ofFnLE fun b : BitNo => mayBeFoe b && !Config.foe0Raw.getLsbD b.val && Config.foe1Raw.getLsbD b.val

/-- The three WU bits have places of their own. -/
def WsLayout.ok (l : WsLayout) : Bool :=
  decide (l.wu0Pos < 64) && decide (l.wu1Pos < 64) && decide (l.wu2Pos < 64)
    && decide (l.wu0Pos ≠ l.wu1Pos) && decide (l.wu0Pos ≠ l.wu2Pos) && decide (l.wu1Pos ≠ l.wu2Pos)

/-- A layout whose bits are apart; its positions are no claim about the hardware. -/
def WsLayout.standIn : WsLayout := { wu0Pos := 0, wu1Pos := 1, wu2Pos := 2, otherBits := 0#64 }

/-- The WS layout (R29). -/
def wsLayout : WsLayout := if Config.wsLayoutRaw.ok then Config.wsLayoutRaw else .standIn

/-- Bit `b` of WS is one of the three WU bits. -/
def isWuBit (b : BitNo) : Bool :=
  decide (b.val = wsLayout.wu0Pos) || decide (b.val = wsLayout.wu1Pos) || decide (b.val = wsLayout.wu2Pos)

/-- The bits of the other WS fields. -/
def wsOtherMask : Word := BitVec.ofFnLE fun b : BitNo => !isWuBit b && wsLayout.otherBits.getLsbD b.val

/-- Interrupt line `k` exists: there are at least thirteen (R22, R149). -/
def lineExists (k : Line) : Bool := decide (k.val < 13) || decide (k.val < 13 + Config.extraLines)

/-! The SFRs that keep something of each interrupt line (R30, R32): every line has a field of its own, so that what
touches one line's field leaves the others' alone (R82). -/

/-- What the field of line `k` means in the SFR value `w`. -/
def LineFields.valueAt (l : LineFields) (w : Word) (k : Line) : Nat := l.value k (w &&& l.bits k)

/-- The SFR value `w` with the field of line `k` raised, every other bit as it is. -/
def LineFields.raise (l : LineFields) (w : Word) (k : Line) : Word := (w &&& ~~~l.bits k) ||| (l.raised &&& l.bits k)

/-- A field lies within bits 31:0 or within bits 63:32 (R78, R81). -/
def inOneHalf (w : Word) : Bool := decide (w.extractLsb' 0 32 = 0#32) || decide (w.extractLsb' 32 32 = 0#32)

/-- The lines' fields share no bit and lie in one half each, and the field of an existing line can mean another number
than 0: an enable can be set, a request registered, a level exceed the lowest `PS.IL` (R111). -/
def LineFields.ok (l : LineFields) : Bool :=
  decide ((List.finRange 32).Pairwise fun j k => l.bits j &&& l.bits k = 0#64)
    && (List.finRange 32).all fun k => inOneHalf (l.bits k) && (decide (l.valueAt l.raised k ≠ 0) || !lineExists k)

/-- No existing line has a request in the value `clear`. -/
def LineFields.clears (l : LineFields) : Bool :=
  (List.finRange 32).all fun k => decide (l.valueAt l.clear k = 0) || !lineExists k

/-- One bit for each line; the places are no claim about the hardware. -/
def LineFields.standIn : LineFields where
  bits k := 1#64 <<< k.val
  value _ w := w.toNat
  raised := BitVec.allOnes 64
  clear := 0#64

/-- The lines' requests in ILR (R30). -/
def ilrFields : LineFields :=
  if Config.ilrFieldsRaw.ok && Config.ilrFieldsRaw.clears then Config.ilrFieldsRaw else .standIn

/-- The lines' enables in their SFR (R32). -/
def enableFields : LineFields := if Config.enableFieldsRaw.ok then Config.enableFieldsRaw else .standIn

/-- The lines' levels in their SFR (R32). -/
def levelFields : LineFields := if Config.levelFieldsRaw.ok then Config.levelFieldsRaw else .standIn

/-! How ES reports (R19, R36, R141). -/

/-- The four categories. -/
def allCategories : List Category := [.interrupt, .hwtrap, .syscall, .debug]

/-- A number for each category. -/
def categoryCode : Category → Nat
  | .interrupt => 0
  | .hwtrap => 1
  | .syscall => 2
  | .debug => 3

/-- The relative level in the *RPL field at bit `lo` of an ES value (R36). -/
def esRpl (v : Word) (lo : Nat) : Level := levelOfBits (v.getLsbD lo) (v.getLsbD (lo + 1))

/-- ES has one or more *RPL fields, which fit and share no bit (R19), and each category has a value that reports it
(R130) and in whose *RPL fields stands 0, a relative level of every reference level. -/
def EsLayout.ok (l : EsLayout) : Bool :=
  !l.rpl.isEmpty && l.rpl.all (fun lo => segmentFits (lo, 2))
    && decide ((l.rpl.map fun lo => (lo, 2)).Pairwise SegmentsApart)
    && allCategories.all (fun c => decide (l.category (l.witness c) = c)
      && l.rpl.all (fun lo => decide (esRpl (l.witness c) lo = 0)))

/-- An ES that reports as it must; its fields and codes are no claim about the hardware. -/
def EsLayout.standIn : EsLayout where
  rpl := [2]
  category v :=
    match v.toNat % 4 with
    | 0 => .interrupt
    | 1 => .hwtrap
    | 2 => .syscall
    | _ => .debug
  witness c := BitVec.ofNat 64 (categoryCode c)

/-- How ES reports (R141). -/
def esLayout : EsLayout := if Config.esLayoutRaw.ok then Config.esLayoutRaw else .standIn

/-- The first bit of the line's field that covers bit `b`, and `b` where none does. -/
def LineFields.firstBit (l : LineFields) (b : BitNo) : BitNo :=
  match (List.finRange 32).find? fun k => (l.bits k).getLsbD b.val with
  | none => b
  | some k => ((List.finRange 64).find? fun c => (l.bits k).getLsbD c.val).getD b

/-- A bit that stands for the field of `sfr` that covers bit `b`: the two bits of an *RPL field have the same, and so have
those of a line's field. -/
def fieldBit (sfr : Sfr) (b : BitNo) : BitNo :=
  match sfr with
  | .es _ => if 1 ≤ b.val ∧ b.val - 1 ∈ esLayout.rpl then ⟨b.val - 1, by omega⟩ else b
  | .ilr => ilrFields.firstBit b
  | .itEnable => enableFields.firstBit b
  | .itLevel => levelFields.firstBit b
  | .ps | .pcr | .ws | .ev4 | .sps _ | .spc _ | .ev _ | .ea _ | .own _ | .ownW _ => b

/-- Field `k` of an ownership register exists: one of ITO for each line (R22), at least one of each other (R21): Q0 in
SYO (R23), that of PL Overflow in HTO (R24). -/
def ownField (r : OwnReg) (k : Slot) : Bool :=
  match r with
  | .ito => lineExists k
  | .syo | .hto | .dbo | .mo | .pso => decide (k = Config.firstSlot r) || Config.ownFieldRaw r k

/-- Field `k` where the register has it, and otherwise a field that it has. -/
def existingSlot (r : OwnReg) (k : Slot) : Slot := if ownField r k then k else Config.firstSlot r

/-! `OwnerField`: the field that holds a resource's owner. Every one is a field of its register (R21). -/

/-- The SYO field of a system call (R23, R122). -/
def syoSlot (n : BitVec 16) : Slot := existingSlot .syo (Config.syoSlotRaw n)

/-- The HTO field of a hardware trap (R24). -/
def htoSlot (t : HtoTrap) : Slot := existingSlot .hto (Config.htoSlotRaw t)

/-- The DO field of a debug event (R25). -/
def doSlot (d : BitVec 5) : Slot := existingSlot .dbo (Config.doSlotRaw d)

/-- The PSO field of a PS field (R26). -/
def psoSlot (f : PsField) : Slot := existingSlot .pso (Config.psoSlotRaw f)

/-- The bit whose MO field owns bit `b` of an SFR: PCR has one owner (R28, R71), and every field has one (R71). -/
def ownedBit : Sfr → BitNo → BitNo
  | .pcr, _ => 0
  | sfr, b => fieldBit sfr b

/-- The MO field of a bit of an SFR other than PS and the per-level registers (R26, R71). -/
def moSlot (sfr : Sfr) (b : BitNo) : Slot := existingSlot .mo (Config.moSlotRaw sfr (ownedBit sfr b))

/-- The MO field of an instruction, or none (R26, R91). -/
def instrSlot (op : Op) : Option Slot := (Config.instrSlotRaw op).map (existingSlot .mo)

/-- The MO fields of what a TLB* member writes (R90). -/
def tlbSlots (m : BitVec 8) : List Slot := (Config.tlbSlotsRaw m).map (existingSlot .mo)

/-- An SFR that RSWAP may access: the instruction accesses one (R89), and no *O or *OW SFR (R72). -/
def rswapTarget : Sfr :=
  match Config.rswapTargetRaw with
  | .own _ | .ownW _ => .ps
  | sfr => sfr

/-- The lower bit of owner field `k`: bits [2k+1:2k] (R22, and R21's "array of 2-bit fields" for the other five). -/
def slotLo (k : Slot) : Nat := 2 * k.val

/-- The owner field that bit `b` of an ownership register belongs to. -/
def slotOfBit (b : BitNo) : Slot := ⟨b.val / 2, by omega⟩

/-- Bit `b` of WS belongs to a field (R29, D39). -/
def wsCovers (b : BitNo) : Bool := isWuBit b || wsOtherMask.getLsbD b.val

/-- `SfrIndex` (N22): distinct SFRs have distinct numbers (R54 for the two names of an ownership register). -/
def sfrIndex (sfr : Sfr) : Word :=
  if (allSfrs.map Config.sfrIndexRaw).Nodup then Config.sfrIndexRaw sfr else BitVec.ofNat 64 (sfrOrdinal sfr)

/-- The SFR a number names (R74). -/
def sfrOfIndex (n : Word) : Option Sfr := allSfrs.find? fun f => sfrIndex f == n

end Sys2Proof
end

