-- ==== Sys2Proof/WellFormed.lean ====
section
/-! DEFINITION. Which bundles are well-formed (30_encoding.md R50, R51). An instruction's operands are typed, so the
checks are on bundles. -/

namespace Sys2Proof

/-- The instructions that must be alone in their bundle: SET, WFX*, RSWAP, TLB* (R51). Whether GET, IGET, RFE, AWAIT,
SLEEP, STOP, MAKE and the system call have a bundling constraint of their own is not in the source (R51); that they have
none here, owned ones included, so that a PRIVILEGE trap of an owned one (R144) can come from a bundle of another size
than 4, is the MODEL'S choice (DESIGN CHOICE, notes/assumptions/33.md). -/
def Instr.alone : Instr → Bool
  | .set _ _ | .wfxl _ _ | .wfxm _ _ | .rswap _ _ | .tlb _ => true
  | .rfe | .get _ _ | .iget _ | .await | .sleep | .stop | .make _ _ | .nop | .scall _ => false

/-- The general register an instruction writes, of those that may share a bundle. -/
def Instr.writes : Instr → Option Reg
  | .get d _ => some d
  | .iget z => some z
  | .make d _ => some d
  | .rswap _ r => some r
  | .rfe | .set _ _ | .wfxl _ _ | .wfxm _ _ | .tlb _ | .await | .sleep | .stop | .nop | .scall _ => none

/-- Why a bundle is not well-formed. -/
inductive BundleProblem where
  /-- It holds no instruction. How many a bundle may hold is not in the source (R3); that it holds one is the MODEL'S
  choice (DESIGN CHOICE, notes/assumptions/33.md). -/
  | empty
  /-- It holds SET, WFX*, RSWAP or TLB* together with another instruction (R51, 93_implementation_defined.md U5). -/
  | notAlone
  /-- It is one SET, WFX*, RSWAP or TLB* and its size is not 4 (R50). -/
  | sizeNotFour
  /-- Its result would depend on an order among its instructions that the spec does not give (DESIGN CHOICE,
  notes/assumptions/33.md). -/
  | orderOpen
deriving DecidableEq, Repr

/-- No register is written twice (IGET's source register is the one it writes). What a bundle writes is visible to the
next bundle (R47), so an instruction that reads what another one writes reads the value from before the bundle. -/
def Bundle.independent (b : Bundle) : Bool := decide (b.filterMap Instr.writes).Nodup

/-- The first check a bundle of `size` address units fails, if any: R50 and R51, and two checks of the model's own, that
it holds an instruction and writes no register twice (notes/assumptions/33.md). -/
def Bundle.problem (b : Bundle) (size : Nat) : Option BundleProblem :=
  if b.isEmpty then some .empty
  else if b.any Instr.alone && decide (b.length ≠ 1) then some .notAlone
  else if b.any Instr.alone && decide (size ≠ 4) then some .sizeNotFour
  else if !Bundle.independent b then some .orderOpen
  else none

/-- A well-formed bundle of `size` address units. -/
abbrev Bundle.WellFormed (b : Bundle) (size : Nat) : Prop := Bundle.problem b size = none

end Sys2Proof
end

