-- ==== Sys2Proof/Machine/State.lean ====
section
/-! DEFINITION. The state of the machine (10_state.md), the ways a step can stop, and reset (R35, R170). -/

namespace Sys2Proof.Machine

/-- The fields of PS, and of each SPS_PL[j] (R12, R15). `pl` is absolute in PS (R13) and relative to `j` in SPS_PL[j]
(R16). -/
structure Ps where
  pl : Level
  ie : Bool
  et : Bool
  /-- IL, in the low `ilWidth` bits. -/
  il : Word
  /-- Every other field, each bit at its place in the register (`psOtherMask`). -/
  other : Word
deriving DecidableEq, Repr

/-- The fields of WS (R29). -/
structure Ws where
  wu0 : Bool
  wu1 : Bool
  wu2 : Bool
  /-- Any other field, each bit at its place in the register (`wsOtherMask`). -/
  other : Word
deriving DecidableEq, Repr

/-- The six ownership registers: field `k` of each, an absolute level (R21). `dbo` is DO. -/
structure Owners where
  syo : Vector Level 32
  hto : Vector Level 32
  ito : Vector Level 32
  dbo : Vector Level 32
  mo : Vector Level 32
  pso : Vector Level 32
deriving DecidableEq, Repr

/-- EV4, an opaque record of the events received (R30): the word it held last, and the events registered since, oldest
first. -/
structure Ev4 where
  base : Word
  since : List Nat
deriving DecidableEq, Repr

/-- The idle status that no SFR exposes (R31). -/
inductive Idle where
  | running | inAwait | inSleep | inStop
deriving DecidableEq, Repr

/-- A move of the environment (R110, R183). -/
inductive EnvMove where
  /-- A rising edge on interrupt line `k`. -/
  | interruptRise (k : Line)
  /-- A PE2PE event. -/
  | pe2peEvent (e : Nat)
  /-- A wake-up signal from the cluster power controller or the DSU. -/
  | wakeupSignal
  /-- The cluster power controller's `reset_on_wakeup` bit takes a value. -/
  | setResetOnWakeup (b : Bool)
deriving DecidableEq, Repr

/-- Whose turn a step is. -/
inductive Turn where
  /-- The core's: a bundle, an interrupt entry, or a wake. -/
  | core
  /-- The environment's (R4). -/
  | env (m : EnvMove)
  /-- The bundle at `pc` raises debug event `d` (R157); what raises one is not in the spec (N19). -/
  | debug (d : BitVec 5)
deriving DecidableEq, Repr

/-- The machine's state: everything the spec gives it, then the model's own four fields. -/
structure State where
  /-- General registers (R10). -/
  gpr : Vector Word gprCount
  /-- The program counter (R11). -/
  pc : Pc
  /-- Processor status (R12, R13). -/
  ps : Ps
  /-- SPS_PL[j] (R15, R16). -/
  sps : Vector Ps 4
  /-- SPC_PL[j] (R17). -/
  spc : Vector Pc 4
  /-- EV_PL[j] (R18). -/
  ev : Vector Pc 4
  /-- ES_PL[j], its *RPL fields included (R19, R36; `esLayout`). -/
  es : Vector Word 4
  /-- EA_PL[j] (R20). -/
  ea : Vector Pc 4
  /-- SYO, HTO, ITO, DO, MO, PSO (R21 to R27). -/
  owners : Owners
  /-- PCR (R28). -/
  pcr : Word
  /-- WS (R29). -/
  ws : Ws
  /-- ILR: a field for each line, in which a request can be registered (R30, R183; `ilrFields`). -/
  ilr : Word
  /-- EV4 (R30). -/
  ev4 : Ev4
  /-- The SFR of `it_enabled(k)`: a field for each line (R32; `enableFields`). -/
  itEnable : Word
  /-- The SFR of `it_level(k)`: a field for each line (R32; `levelFields`). -/
  itLevel : Word
  /-- The idle status (R31). -/
  idle : Idle
  /-- The cluster power controller's `reset_on_wakeup` bit for this core (R32, R107). -/
  resetOnWakeup : Bool
  /-- Instruction memory (R40, R41): the bytes that have a value, addresses strictly rising. -/
  mem : List Host.Cell
  /-- The model's: `NextBundle`, the address of the logical successor of the bundle in execution (00_scope.md section 5). -/
  nextBundle : Pc
  /-- The model's: the core has just woken from AWAIT or SLEEP, so an eligible interrupt is taken at once (R112). -/
  woken : Bool
  /-- The model's: whose turn the coming steps are; when it is empty, every step is the core's. -/
  script : List Turn
  /-- The model's: how many free values have been drawn. -/
  draws : Nat
deriving DecidableEq, Repr

/-- Why the machine stops with a fault. -/
inductive Fault where
  /-- Raised by the fetch: the byte at `addr`, which the bundle needs, has no value (nothing has written it, or it lies
  past the top of the address space). SAFE: the spec's `FetchFault` is open (R44, D3), and the model stops. -/
  | fetchNoByte (addr : Nat)
deriving DecidableEq, Repr

/-- Why the model gives no meaning. -/
inductive Refusal where
  /-- An arm of `exec` that has no meaning yet. SAFE: the model stops. -/
  | notModelled (mnemonic : String)
  /-- Raised by TLB* when its checks pass: the spec gives it no effect (R90, U12). SAFE: the model stops. -/
  | tlbEffectNotGiven (m : BitVec 8)
  /-- Raised by IGET when the number names no SFR (R74, D30, U16). SAFE: the model stops. -/
  | igetNamesNoSfr (n : Word)
  /-- Raised by the step on a bundle that is not well-formed (R51, U5), or of which two instructions decide what follows
  (notes/assumptions/33.md). SAFE: the model stops. -/
  | bundleIllFormed (p : BundleProblem)
  /-- Raised by the fetch on bytes that are no bundle (R57, D3, U13). SAFE: the model stops. -/
  | undecodable (r : Reject)
deriving DecidableEq, Repr

/-- What a meaning, and a step, answers. -/
abbrev Outcome := Host.Outcome State Fault Refusal

/-- A PS value made of five unspecified words, the first numbered `n`. -/
def Ps.ofDraw (d : ResetDraw) (n : Nat) : Ps where
  pl := levelOfBits ((d.word n).getLsbD 0) ((d.word n).getLsbD 1)
  ie := (d.word (n + 1)).getLsbD 0
  et := (d.word (n + 2)).getLsbD 0
  il := d.word (n + 3) &&& ilMask
  other := d.word (n + 4) &&& psOtherMask

/-- Every field of an ownership register at PL0 (R171). -/
def ownedByPl0 : Vector Level 32 := Vector.replicate 32 0

/-- Every resource owned by PL0 (R35, R171). -/
def Owners.reset : Owners where
  syo := ownedByPl0
  hto := ownedByPl0
  ito := ownedByPl0
  dbo := ownedByPl0
  mo := ownedByPl0
  pso := ownedByPl0

/-- The hardware reset (R170): ownership, `pc`, the idle status and `PS.PL` as R35 gives them, every other register
from the draw `d`. The level that a drawn word gives a line is an open number, so no bound of `it_level(k)` can be proved;
that the levels of all lines are fields of one 64-bit SFR is the MODEL'S choice (DESIGN CHOICE,
notes/assumptions/13.md). Memory, the environment's bit and the model's bookkeeping are not the core's and pass through
`s`. -/
def State.resetFrom (d : ResetDraw) (s : State) : State where
  gpr := Vector.ofFn fun r : Reg => d.gpr r.val
  pc := Config.resetPc
  ps := { Ps.ofDraw d 64 with pl := 0 }
  sps := Vector.ofFn fun j : Fin 4 => Ps.ofDraw d (72 + 8 * j.val)
  spc := Vector.ofFn fun j : Fin 4 => (d.word (104 + j.val)).setWidth pcWidth
  ev := Vector.ofFn fun j : Fin 4 => (d.word (108 + j.val)).setWidth pcWidth
  es := Vector.ofFn fun j : Fin 4 => d.word (112 + j.val)
  ea := Vector.ofFn fun j : Fin 4 => (d.word (116 + j.val)).setWidth pcWidth
  owners := Owners.reset
  pcr := d.word 120
  ws := { wu0 := (d.word 121).getLsbD 0
          wu1 := (d.word 121).getLsbD 1
          wu2 := (d.word 121).getLsbD 2
          other := d.word 122 &&& wsOtherMask }
  ilr := d.word 123
  ev4 := { base := d.word 125, since := [] }
  itEnable := d.word 124
  itLevel := d.word 126
  idle := .running
  resetOnWakeup := s.resetOnWakeup
  mem := s.mem
  nextBundle := Config.resetPc
  woken := false
  script := s.script
  draws := s.draws + 1

/-- A PS value of zeros. -/
def Ps.zero : Ps := { pl := 0, ie := false, et := false, il := 0#64, other := 0#64 }

/-- The machine right after reset: what R35 gives, and zero (DESIGN CHOICE, notes/assumptions/2.md) in every register
R35 leaves unspecified. Nothing is in memory and the environment has announced no move. The environment's bit
`reset_on_wakeup` (R32) has no value in the spec; that it starts at 0 is the MODEL'S choice too (DESIGN CHOICE,
notes/assumptions/2.md). -/
def State.reset : State where
  gpr := Vector.replicate gprCount 0#64
  pc := Config.resetPc
  ps := Ps.zero
  sps := Vector.replicate 4 Ps.zero
  spc := Vector.replicate 4 0#pcWidth
  ev := Vector.replicate 4 0#pcWidth
  es := Vector.replicate 4 0#64
  ea := Vector.replicate 4 0#pcWidth
  owners := Owners.reset
  pcr := 0#64
  ws := { wu0 := false, wu1 := false, wu2 := false, other := 0#64 }
  ilr := 0#64
  ev4 := { base := 0#64, since := [] }
  itEnable := 0#64
  itLevel := 0#64
  idle := .running
  resetOnWakeup := false
  mem := []
  nextBundle := Config.resetPc
  woken := false
  script := []
  draws := 0

end Sys2Proof.Machine
end

