-- ==== Sys2Proof/Machine/Flags.lean ====
section
/-! DEFINITION. What exception entry and RFE do to the fields of PS and SPS_PL[j] (R14, R61, R135 to R137). -/

namespace Sys2Proof.Machine

/-- The unnamed PS bits that are FOE bits of either kind (R14). -/
def foeMask : Word := foe0Mask ||| foe1Mask

/-- The FOE bits forced: IE to 0, ET to 1 (D7), and the further members of FOE0 and FOE1 (R137). -/
def Ps.forceFoe (p : Ps) : Ps :=
  { p with ie := false, et := true, other := (p.other &&& ~~~foe0Mask) ||| foe1Mask }

/-- The remnant state backed up by a vertical RFE: every field of `saved` from the PS in force, but the FOE bits, IL
and PL, which keep the value saved (R61). -/
def Ps.backUp (saved running : Ps) : Ps :=
  { saved with other := (saved.other &&& foeMask) ||| (running.other &&& ~~~foeMask) }

/-- The cache-enable state that PS holds (R12, R42). -/
def Ps.cacheEnable (p : Ps) : Bool := p.other.getLsbD psLayout.cachePos

/-- The 32/64-bit mode selection that PS holds (R12, R42). -/
def Ps.mode64 (p : Ps) : Bool := p.other.getLsbD psLayout.modePos

/-- The reading of a relative level from level `i` (R62, R84): `i + k`, or none when the sum exceeds 3. -/
def addLevels (i k : Level) : Option Level :=
  if h : i.val + k.val ≤ 3 then some ⟨i.val + k.val, by omega⟩ else none

end Sys2Proof.Machine
end

