-- ==== Sys2Proof/Machine/Operands.lean ====
section
/-! DEFINITION. The two operand forms of the SFR instructions: the image of an SFR, bit by bit (R73, R92), and the pair
of masks with which a write changes it (R55, R77, R78, R81 to R83). -/

namespace Sys2Proof.Machine

/-- Register `r` of the ownership registers. -/
def Owners.get (o : Owners) : OwnReg → Vector Level 32
  | .syo => o.syo
  | .hto => o.hto
  | .ito => o.ito
  | .dbo => o.dbo
  | .mo => o.mo
  | .pso => o.pso

/-- The ownership registers with register `r` replaced. -/
def Owners.put (o : Owners) (r : OwnReg) (v : Vector Level 32) : Owners :=
  match r with
  | .syo => { o with syo := v }
  | .hto => { o with hto := v }
  | .ito => { o with ito := v }
  | .dbo => { o with dbo := v }
  | .mo => { o with mo := v }
  | .pso => { o with pso := v }

/-- The owner in field `k` of register `r` (R21). -/
def State.owner (s : State) (r : OwnReg) (k : Slot) : Level := (s.owners.get r)[k]

/-- Bit `b` of a PS image; a bit of no field reads as the layout parameter says (D39). -/
def Ps.imageBit (sfr : Sfr) (p : Ps) (b : BitNo) : Bool :=
  match psFieldAt b with
  | some .pl => levelBit p.pl (b.val - psLayout.plLo)
  | some .ie => p.ie
  | some .et => p.et
  | some .il => p.il.getLsbD (b.val - psLayout.ilLo)
  | some (.other _) => p.other.getLsbD b.val
  | none => Config.outsideBit sfr b

/-- Bit `b` of a WS image; a bit of no field reads as the layout parameter says (D39). -/
def Ws.imageBit (w : Ws) (b : BitNo) : Bool :=
  if b.val = wsLayout.wu0Pos then w.wu0
  else if b.val = wsLayout.wu1Pos then w.wu1
  else if b.val = wsLayout.wu2Pos then w.wu2
  else if wsOtherMask.getLsbD b.val then w.other.getLsbD b.val
  else Config.outsideBit .ws b

/-- Bit `b` of an ownership register's image: the owner is absolute (R92). A bit of no field reads 0 in ITO (R73's example)
and as the layout parameter says in the others (D39). -/
def State.ownerBit (s : State) (r : OwnReg) (b : BitNo) : Bool :=
  if ownField r (slotOfBit b) then levelBit (s.owner r (slotOfBit b)) (b.val % 2)
  else if r = .ito then false
  else Config.outsideBit (.own r) b

/-- Bit `b` of the image of an SFR of `PC_W` bits; a bit above them reads as the layout parameter says (D39). -/
def pcBit (sfr : Sfr) (v : Pc) (b : BitNo) : Bool :=
  if b.val < pcWidth then v.getLsbD b.val else Config.outsideBit sfr b

/-- What EV4 holds: an open function of the word it held last and of the events registered since (R30). -/
def Ev4.image (e : Ev4) : Word :=
  match e.since with
  | [] => e.base
  | n :: ns => Config.ev4Image e.base (n :: ns)

/-- Bit `b` of what `sfr` holds, in the form a read returns it (`ReadForm`, R73). -/
def State.imageBit (s : State) (sfr : Sfr) (b : BitNo) : Bool :=
  match sfr with
  | .ps => s.ps.imageBit .ps b
  | .sps j => s.sps[j].imageBit (.sps j) b
  | .spc j => pcBit (.spc j) s.spc[j] b
  | .ev j => pcBit (.ev j) s.ev[j] b
  | .es j => s.es[j].getLsbD b.val
  | .ea j => pcBit (.ea j) s.ea[j] b
  | .own r | .ownW r => s.ownerBit r b
  | .pcr => s.pcr.getLsbD b.val
  | .ws => s.ws.imageBit b
  | .ilr => s.ilr.getLsbD b.val
  | .ev4 => s.ev4.image.getLsbD b.val
  | .itEnable => s.itEnable.getLsbD b.val
  | .itLevel => s.itLevel.getLsbD b.val

/-- A set (write) mask and a clear (read) mask over an SFR's 64 bits (R55, 90_conflicts.md C6). -/
structure Masks where
  set : Word
  clr : Word
deriving DecidableEq, Repr

/-- SET and RSWAP write every bit: the value sets, and everything else is cleared (R77). -/
def Masks.whole (v : Word) : Masks := { set := v, clr := BitVec.allOnes 64 }

/-- WFXL: the operand's upper half sets and its lower half clears, in bits 31:0 (R55, R78). -/
def Masks.low (v : Word) : Masks :=
  { set := (v.extractLsb' 32 32).setWidth 64, clr := (v.extractLsb' 0 32).setWidth 64 }

/-- WFXM: the same in bits 63:32 (R81). -/
def Masks.high (v : Word) : Masks :=
  { set := (v.extractLsb' 32 32).setWidth 64 <<< 32, clr := (v.extractLsb' 0 32).setWidth 64 <<< 32 }

/-- Either mask touches bit `b` (R78). -/
def Masks.touches (m : Masks) (b : Nat) : Bool := m.set.getLsbD b || m.clr.getLsbD b

/-- Either mask touches the 2-bit field at bit `lo` (R78, R83). -/
def Masks.touchesPair (m : Masks) (lo : Nat) : Bool := m.touches lo || m.touches (lo + 1)

/-- The offset the masks give a relative field at bit `lo`: its write mask, 0 when that is "00" (R83, R86). -/
def Masks.offsetAt (m : Masks) (lo : Nat) : Level := levelOfBits (m.set.getLsbD lo) (m.set.getLsbD (lo + 1))

/-- The regular update of a word: clear, then set (R82, D14). -/
def Masks.word (m : Masks) (old : Word) : Word := (old &&& ~~~m.clr) ||| m.set

/-- The regular update of an SFR of `PC_W` bits (R82). -/
def Masks.pcWord (m : Masks) (old : Pc) : Pc := (old &&& ~~~(m.clr.setWidth pcWidth)) ||| m.set.setWidth pcWidth

/-- The regular update of the bits of `old` that lie in `within` (R82). -/
def Masks.wordWithin (m : Masks) (within old : Word) : Word :=
  (old &&& ~~~(m.clr &&& within)) ||| (m.set &&& within)

/-- The regular update of a 1-bit field at bit `b` (R82). -/
def Masks.bit (m : Masks) (b : Nat) (old : Bool) : Bool := (old && !m.clr.getLsbD b) || m.set.getLsbD b

/-- The regular update of a 2-bit field at bit `lo` (R82, R87). -/
def Masks.pair (m : Masks) (lo : Nat) (old : Level) : Level :=
  levelOfBits (m.bit lo (levelBit old 0)) (m.bit (lo + 1) (levelBit old 1))

/-- The regular update of IL, which the state keeps at the foot of a word (R82). -/
def Masks.ilField (m : Masks) (old : Word) : Word :=
  (old &&& ~~~((m.clr >>> psLayout.ilLo) &&& ilMask)) ||| ((m.set >>> psLayout.ilLo) &&& ilMask)

/-- The regular update of every PS field but PL. -/
def Masks.psFields (m : Masks) (p : Ps) : Ps :=
  { p with
    ie := m.bit psLayout.iePos p.ie
    et := m.bit psLayout.etPos p.et
    il := m.ilField p.il
    other := m.wordWithin psOtherMask p.other }

/-- The regular update of the WS fields. -/
def Masks.wsFields (m : Masks) (w : Ws) : Ws :=
  { wu0 := m.bit wsLayout.wu0Pos w.wu0
    wu1 := m.bit wsLayout.wu1Pos w.wu1
    wu2 := m.bit wsLayout.wu2Pos w.wu2
    other := m.wordWithin wsOtherMask w.other }

/-- The masks try the field that bit `b` of `sfr` belongs to: a relative field is tried as a whole, every other one by
its touched bits, and a bit of no field is not tried (R78, R83, D15). -/
def Masks.tries (m : Masks) (sfr : Sfr) (b : BitNo) : Bool :=
  match sfr with
  | .ps | .sps _ =>
    match psFieldAt b with
    | some .pl => m.touchesPair psLayout.plLo
    | some _ => m.touches b.val
    | none => false
  | .own r | .ownW r => m.touchesPair (slotLo (slotOfBit b)) && ownField r (slotOfBit b)
  | .ws => wsCovers b && m.touches b.val
  | .spc _ | .ev _ | .ea _ => decide (b.val < pcWidth) && m.touches b.val
  | .pcr | .ilr | .ev4 | .itEnable | .itLevel | .es _ => m.touches b.val

end Sys2Proof.Machine
end

