-- ==== Sys2Proof/Machine/Access.lean ====
section
/-! DEFINITION. Ownership: who may read and write what (R70 to R76, R79, R80, R91), and the table `SfrAccess`. -/

namespace Sys2Proof.Machine

/-- `SfrAccess(kind, sfr)` (R72): the rows the spec gives, and the open table for the others (U19); RSWAP may access
some SFR (R89). -/
def sfrAccess : AccessKind → Sfr → Bool
  | .get, .own _ | .iget, .own _ => true
  | .get, .ownW _ | .iget, .ownW _ => false
  | .get, .ps | .iget, .ps | .get, .pcr | .iget, .pcr | .get, .sps _ | .iget, .sps _ => true
  | .set, .ownW _ | .wfx, .ownW _ => true
  | .set, .own _ | .wfx, .own _ => false
  | .set, .ps | .wfx, .ps | .set, .sps _ | .wfx, .sps _ => true
  | .wfx, .ea _ => false
  | .rswap, .own _ | .rswap, .ownW _ => false
  | .rswap, sfr => decide (sfr = rswapTarget) || Config.sfrAccessRaw .rswap sfr
  | kind, sfr => Config.sfrAccessRaw kind sfr

/-- `SfrAccess(WFX, sfr, f)` for the field `f` at bit `b` (R72, R78). -/
def wfxField : Sfr → BitNo → Bool
  | .ps, _ | .sps _, _ | .ownW _, _ => true
  | sfr, b => Config.wfxFieldRaw sfr (fieldBit sfr b)

/-- The PSO field that owns bit `b` of PS. -/
def psOwnerSlot (b : BitNo) : Slot := psoSlot ((psFieldAt b).getD (.other b))

/-- `owner(sfr, f)` for the field `f` at bit `b` (R71). -/
def State.ownerAt (s : State) (sfr : Sfr) (b : BitNo) : Level :=
  match sfr with
  | .own r | .ownW r => s.owner r (slotOfBit b)
  | .ps => s.owner .pso (psOwnerSlot b)
  | .sps j => min j (s.owner .pso (psOwnerSlot b))
  | .spc j | .ev j | .es j | .ea j => j
  | .pcr | .ws | .ilr | .ev4 | .itEnable | .itLevel => s.owner .mo (moSlot sfr b)

/-- `may(i, sfr, f)` at the executing level (R71). -/
def State.may (s : State) (sfr : Sfr) (b : BitNo) : Bool := decide (s.ps.pl ≤ s.ownerAt sfr b)

/-- `readable(i, sfr, f)` at the executing level (R75, R76). -/
def State.readable (s : State) (sfr : Sfr) (b : BitNo) : Bool :=
  match sfr with
  | .ps | .pcr | .own _ => true
  | .sps j => decide (s.ps.pl ≤ j)
  | .spc _ | .ev _ | .es _ | .ea _ | .ownW _ | .ws | .ilr | .ev4 | .itEnable | .itLevel => s.may sfr b

/-- What GET reads: every readable field as it is stored, 0 elsewhere (R73, R75). -/
def State.readSfr (s : State) (sfr : Sfr) : Word :=
  BitVec.ofFnLE fun b : BitNo => s.readable sfr b && s.imageBit sfr b

/-- The most privileged of some owners. -/
def worstOwner : List Level → Option Level
  | [] => none
  | o :: os =>
    match worstOwner os with
    | none => some o
    | some p => some (min o p)

/-- The owner of an instruction, when it is more privileged than the executing level (R91). PL0 may use everything
(R154). -/
def State.instrOwners (s : State) (op : Op) : List Level :=
  if s.ps.pl = 0 then []
  else
    match instrSlot op with
    | none => []
    | some k => [s.owner .mo k].filter fun o => decide (o < s.ps.pl)

/-- The owners, more privileged than the executing level, of the fields a write tries (R79). -/
def State.violated (s : State) (sfr : Sfr) (m : Masks) : List Level :=
  if s.ps.pl = 0 then []
  else ((List.finRange 64).filter fun b => m.tries sfr b && !s.may sfr b).map fun b => s.ownerAt sfr b

/-- The owners, more privileged than the executing level, of what a TLB* member writes (R90). -/
def State.tlbViolated (s : State) (m : BitVec 8) : List Level :=
  if s.ps.pl = 0 then []
  else ((tlbSlots m).map fun k => s.owner .mo k).filter fun o => decide (o < s.ps.pl)

/-- The owner of a hardware trap that HTO owns (R24, R148). -/
def State.trapOwner (s : State) (t : HtoTrap) : Level := s.owner .hto (htoSlot t)

end Sys2Proof.Machine
end

