-- ==== Sys2Proof/Machine/Ops.lean ====
section
/-! DEFINITION. The operations the meanings share: registers, instruction memory, addresses, the write of an SFR,
TAKING AN EXCEPTION and returning from one, and what an instruction does to its bundle. -/

namespace Sys2Proof.Machine

/-! Registers. -/

/-- `x[r]` (R10). -/
def State.readReg (s : State) (r : Reg) : Word := s.gpr[r]

/-- `x[r] <- v` (R10). -/
def State.writeReg (s : State) (r : Reg) (v : Word) : State := { s with gpr := s.gpr.set r.val v }

/-! Instruction memory (R40, R41): addresses below 2^PC_W, and a byte that nothing has written has no value. -/

/-- The number of addresses. -/
def addressCount : Nat := 2 ^ pcWidth

/-- The byte at `a`. -/
def memRead : List Host.Cell → Nat → Option Byte
  | [], _ => none
  | (k, v) :: m, a => if a = k then some v else memRead m a

/-- A byte inserted at its place. -/
def memInsert : List Host.Cell → Nat → Byte → List Host.Cell
  | [], a, v => [(a, v)]
  | (k, w) :: m, a, v =>
    if a < k then (a, v) :: (k, w) :: m
    else if a = k then (a, v) :: m
    else (k, w) :: memInsert m a v

/-- The byte at `a` replaced; an address that does not exist takes no write. -/
def memWrite (m : List Host.Cell) (a : Nat) (v : Byte) : List Host.Cell :=
  if a < addressCount then memInsert m a v else m

/-- The bytes from `a` on replaced. -/
def memWriteBytes (m : List Host.Cell) (a : Nat) : List Byte → List Host.Cell
  | [] => m
  | v :: vs => memWriteBytes (memWrite m a v) (a + 1) vs

/-- The canonical form: addresses strictly rising, each below 2^PC_W. -/
def memWf : List Host.Cell → Bool
  | [] => true
  | [(k, _)] => decide (k < addressCount)
  | (k, _) :: (l, w) :: m => decide (k < l) && memWf ((l, w) :: m)

/-! Addresses. -/

/-- The address `size` units further (R11); past the top of the address space it is open (D5). -/
def nextAddress (a : Pc) (size : Nat) : Pc :=
  if a.toNat + size < addressCount then a + BitVec.ofNat pcWidth size else Config.pcWrap a size

/-- `HandlerPC(ev, cat)` (R140): for one EV value the four categories give four addresses. -/
def handlerPc (ev : Pc) (cat : Category) : Pc :=
  if (allCategories.map (Config.handlerRaw ev)).Nodup then Config.handlerRaw ev cat
  else ev + BitVec.ofNat pcWidth (categoryCode cat)

/-! What entry reports (R141, R142). -/

/-- The category an ES value reports: the categories "are reported differently" (R130). -/
def esCategory (v : Word) : Category := esLayout.category v

/-- The *RPL fields of an ES value hold relative levels in stored form: each means an existing level `j` plus its value
(R36, D9). -/
def esLevelsFit (j : Level) (v : Word) : Bool := esLayout.rpl.all fun lo => decide (j.val + (esRpl v lo).val ≤ 3)

/-- `EsInfo` (R141): a draw that identifies the category and holds relative levels in its *RPL fields. -/
def esInfo (draw : Nat) (cat : Category) (cause : Cause) (i j : Level) (savedPc : Pc) : Word :=
  let v := Config.esRaw draw cat cause i j savedPc
  if esCategory v = cat ∧ esLevelsFit j v then v else esLayout.witness cat

/-! Exception entry and return. -/

/-- The destination of an exception owned by `o` and met at level `i` (R133). -/
def destLevel (o i : Level) : Level := if o ≤ i then o else i

/-- The PS that an entry to `j` leaves in force: the remnant state of `j` when the entry is vertical, the running PS
when it is horizontal, with the FOE bits forced and PL at `j` (R135 to R137). -/
def entryPs (s : State) (j : Level) : Ps :=
  { (if j = s.ps.pl then s.ps else s.sps[j]).forceFoe with pl := j }

/-- TakeException (R134): the one atomic step of entering a handler, for an exception of category `cat` owned by `o`
with the return address `savedPc` (R139). -/
def takeException (cat : Category) (o : Level) (cause : Cause) (savedPc : Pc) (s : State) : State :=
  let i := s.ps.pl
  let j := destLevel o i
  { s with
    ps := entryPs s j
    sps := s.sps.set j.val { s.ps with pl := i - j }
    spc := s.spc.set j.val savedPc
    pc := handlerPc s.ev[j] cat
    es := s.es.set j.val (esInfo s.draws cat cause i j savedPc)
    ea := s.ea.set j.val (Config.eaRaw s.draws cat cause i j savedPc)
    woken := false
    draws := s.draws + 1 }

/-- RFE's return to level `d` (R60, R61, R63): PS from the saved status with `d` as its level, the back-up of the
remnant state when `d` is another level, and the next bundle at the saved PC. -/
def returnFromException (d : Level) (s : State) : State :=
  let i := s.ps.pl
  { s with
    ps := { s.sps[i] with pl := d }
    sps := if d = i then s.sps else s.sps.set i.val (Ps.backUp s.sps[i] s.ps)
    nextBundle := s.spc[i] }

/-! The write of an SFR, after the OPCODE and PRIVILEGE checks. -/

/-- Whether the masks try owner field `k` of register `r` (R78, R83). -/
def Masks.triesOwner (m : Masks) (r : OwnReg) (k : Slot) : Bool := m.touchesPair (slotLo k) && ownField r k

/-- Register `r` after a write through its alias at level `i`: each field tried holds `i` plus its offset (R83, R86). -/
def Masks.ownerFields (m : Masks) (i : Level) (r : OwnReg) (old : Vector Level 32) : Vector Level 32 :=
  Vector.ofFn fun k : Fin 32 =>
    if m.triesOwner r k then (addLevels i (m.offsetAt (slotLo k))).getD old[k] else old[k]

/-- Some field tried of register `r` overflows (R84). -/
def Masks.ownerOverflow (m : Masks) (i : Level) (r : OwnReg) : Bool :=
  (List.finRange 32).any fun k => m.triesOwner r k && (addLevels i (m.offsetAt (slotLo k))).isNone

/-- A write to PS: the regular fields, and PL relative to the running level; none is PL Overflow (R84, R85). -/
def writePs (m : Masks) (s : State) : Option State :=
  if m.touchesPair psLayout.plLo then
    match addLevels s.ps.pl (m.offsetAt psLayout.plLo) with
    | none => none
    | some d => some { s with ps := { m.psFields s.ps with pl := d } }
  else some { s with ps := m.psFields s.ps }

/-- The regular update of EV4 (R82): it holds the updated word, and an update that changes no bit changes nothing. -/
def Masks.ev4 (m : Masks) (e : Ev4) : Ev4 :=
  if m.word e.image = e.image then e else { base := m.word e.image, since := [] }

/-- The write of an SFR (R82 to R87). None is PL Overflow; nothing is then written. -/
def writeSfr (sfr : Sfr) (m : Masks) (s : State) : Option State :=
  match sfr with
  | .ps => writePs m s
  | .sps j =>
    some { s with sps := s.sps.set j.val { m.psFields s.sps[j] with pl := m.pair psLayout.plLo s.sps[j].pl } }
  | .spc j => some { s with spc := s.spc.set j.val (m.pcWord s.spc[j]) }
  | .ev j => some { s with ev := s.ev.set j.val (m.pcWord s.ev[j]) }
  | .es j => some { s with es := s.es.set j.val (m.word s.es[j]) }
  | .ea j => some { s with ea := s.ea.set j.val (m.pcWord s.ea[j]) }
  | .own _ => some s
  | .ownW r =>
    if m.ownerOverflow s.ps.pl r then none
    else some { s with owners := s.owners.put r (m.ownerFields s.ps.pl r (s.owners.get r)) }
  | .pcr => some { s with pcr := m.word s.pcr }
  | .ws => some { s with ws := m.wsFields s.ws }
  | .ilr => some { s with ilr := m.word s.ilr }
  | .ev4 => some { s with ev4 := m.ev4 s.ev4 }
  | .itEnable => some { s with itEnable := m.word s.itEnable }
  | .itLevel => some { s with itLevel := m.word s.itLevel }

/-! What an instruction does to its bundle. -/

/-- The effect of an instruction, before the bundle ends. -/
inductive Effect where
  /-- It runs; the state has every register written, and `nextBundle` is the bundle's logical successor. -/
  | complete (s : State)
  /-- It raises a hardware trap owned by `o`; the bundle does not execute (R143). -/
  | trap (o : Level) (cause : Cause)
  /-- It raises a system call owned by `o`; the bundle executes first (R122). -/
  | syscall (o : Level) (n : BitVec 16)
  /-- The spec gives it no effect. -/
  | refuse (r : Refusal)

/-- The end of a bundle (R11): `pc` moves to its logical successor. -/
def State.endBundle (s : State) : State := { s with pc := s.nextBundle }

/-- A hardware trap: the entry saves the trapping bundle's address (R139). -/
def takeTrap (o : Level) (cause : Cause) (s : State) : State := takeException .hwtrap o cause s.pc s

/-- A system call: the entry saves the next bundle's address (R122, R139). -/
def takeSyscall (o : Level) (n : BitVec 16) (s : State) : State :=
  takeException .syscall o (.syscall n) s.nextBundle s

/-- The bundle that consists of one instruction with effect `e`, executed in `s`. -/
def commit (s : State) : Effect → Outcome
  | .complete t => .next t.endBundle
  | .trap o cause => .next (takeTrap o cause s)
  | .syscall o n => .next (takeSyscall o n s)
  | .refuse r => .refused r

/-- Step 2 of R70 for an instruction that writes no SFR: PRIVILEGE when it has a more privileged owner (R91). -/
def guardOwned (op : Op) (s : State) (e : Effect) : Effect :=
  match worstOwner (s.instrOwners op) with
  | some o => .trap o .privilege
  | none => e

/-- The OPCODE check of a WFX* write on the fields it touches (R78). -/
def fieldsAccessible (kind : AccessKind) (sfr : Sfr) (m : Masks) : Bool :=
  match kind with
  | .wfx => (List.finRange 64).all fun b => !m.tries sfr b || wfxField sfr b
  | .get | .iget | .set | .rswap => true

/-- An SFR write in the order of R70: OPCODE, PRIVILEGE to the most privileged owner violated, PL Overflow, and then
the write. `before` is what the instruction does to the general registers. -/
def writeEffect (op : Op) (kind : AccessKind) (sfr : Sfr) (m : Masks) (before : State → State) (s : State) : Effect :=
  if !(sfrAccess kind sfr && fieldsAccessible kind sfr m) then .trap (s.trapOwner .opcode) .opcode
  else
    match worstOwner (s.instrOwners op ++ s.violated sfr m) with
    | some o => .trap o .privilege
    | none =>
      match writeSfr sfr m (before s) with
      | none => .trap (s.trapOwner .plo) .plo
      | some t => .complete t

/-- An SFR read into register `d`: OPCODE, then PRIVILEGE if the instruction is owned, then the read (R73). -/
def readEffect (op : Op) (kind : AccessKind) (sfr : Sfr) (d : Reg) (s : State) : Effect :=
  if !sfrAccess kind sfr then .trap (s.trapOwner .opcode) .opcode
  else guardOwned op s (.complete (s.writeReg d (s.readSfr sfr)))

end Sys2Proof.Machine
end

