-- ==== Sys2Proof/Machine/Sfr.lean ====
section
/-! DEFINITION. The SFR access instructions GET, IGET, SET, WFXL, WFXM, RSWAP and TLB* (41_sfr_access.md). -/

namespace Sys2Proof.Machine

/-- GET (R73). -/
def getEffect (d : Reg) (sfr : Sfr) (s : State) : Effect := readEffect .get .get sfr d s

/-- IGET (R74, D30): the SFR whose number is in `z`, read into `z`; a number that names no SFR is refused (U16). -/
def igetEffect (z : Reg) (s : State) : Effect :=
  match sfrOfIndex (s.readReg z) with
  | none => .refuse (.igetNamesNoSfr (s.readReg z))
  | some sfr => readEffect .iget .iget sfr z s

/-- SET (R77, R86). -/
def setEffect (sfr : Sfr) (r : Reg) (s : State) : Effect :=
  writeEffect .set .set sfr (Masks.whole (s.readReg r)) id s

/-- WFXL (R78). -/
def wfxlEffect (sfr : Sfr) (r : Reg) (s : State) : Effect :=
  writeEffect .wfxl .wfx sfr (Masks.low (s.readReg r)) id s

/-- WFXM (R81). -/
def wfxmEffect (sfr : Sfr) (r : Reg) (s : State) : Effect :=
  writeEffect .wfxm .wfx sfr (Masks.high (s.readReg r)) id s

/-- RSWAP (R89, D37): the read half as GET, the write half as SET. -/
def rswapEffect (sfr : Sfr) (r : Reg) (s : State) : Effect :=
  writeEffect .rswap .rswap sfr (Masks.whole (s.readReg r)) (fun t => t.writeReg r (s.readSfr sfr)) s

/-- TLB* (R90): the OPCODE and PRIVILEGE checks, and no effect given after them (U12). -/
def tlbEffect (m : BitVec 8) (s : State) : Effect :=
  if !Config.tlbAccess m then .trap (s.trapOwner .opcode) .opcode
  else
    match worstOwner (s.instrOwners (.tlb m) ++ s.tlbViolated m) with
    | some o => .trap o .privilege
    | none => .refuse (.tlbEffectNotGiven m)

/-- GET as a bundle (R73). -/
def execGet (d : Reg) (sfr : Sfr) (s : State) : Outcome := commit s (getEffect d sfr s)

/-- IGET as a bundle (R74). -/
def execIget (z : Reg) (s : State) : Outcome := commit s (igetEffect z s)

/-- SET as a bundle (R77). -/
def execSet (sfr : Sfr) (r : Reg) (s : State) : Outcome := commit s (setEffect sfr r s)

/-- WFXL as a bundle (R78). -/
def execWfxl (sfr : Sfr) (r : Reg) (s : State) : Outcome := commit s (wfxlEffect sfr r s)

/-- WFXM as a bundle (R81). -/
def execWfxm (sfr : Sfr) (r : Reg) (s : State) : Outcome := commit s (wfxmEffect sfr r s)

/-- RSWAP as a bundle (R89). -/
def execRswap (sfr : Sfr) (r : Reg) (s : State) : Outcome := commit s (rswapEffect sfr r s)

/-- TLB* as a bundle (R90). -/
def execTlb (m : BitVec 8) (s : State) : Outcome := commit s (tlbEffect m s)

end Sys2Proof.Machine
end

