-- ==== Sys2Proof/Machine/Support.lean ====
section
/-! DEFINITION. MAKE and NOP (43_support.md R120, R121). -/

namespace Sys2Proof.Machine

/-- MAKE (R120). -/
def makeEffect (d : Reg) (imm : Word) (s : State) : Effect := guardOwned .make s (.complete (s.writeReg d imm))

/-- NOP (R121): it raises no exception, so it has no owner. -/
def nopEffect (s : State) : Effect := .complete s

/-- MAKE as a bundle (R120). -/
def execMake (d : Reg) (imm : Word) (s : State) : Outcome := commit s (makeEffect d imm s)

/-- NOP as a bundle (R121). -/
def execNop (s : State) : Outcome := commit s (nopEffect s)

end Sys2Proof.Machine
end

