-- ==== Sys2Proof/Machine/Transfer.lean ====
section
/-! DEFINITION. RFE and the system call (40_rfe.md, 43_support.md R122). -/

namespace Sys2Proof.Machine

/-- RFE (R60): PL Overflow when the saved relative level does not fit (R62), else the return. -/
def rfeEffect (s : State) : Effect :=
  guardOwned .rfe s <|
    match addLevels s.ps.pl s.sps[s.ps.pl].pl with
    | none => .trap (s.trapOwner .plo) .plo
    | some d => .complete (returnFromException d s)

/-- The system call (R122): owned by the SYO field that it selects. -/
def scallEffect (n : BitVec 16) (s : State) : Effect :=
  guardOwned .scall s (.syscall (s.owner .syo (syoSlot n)) n)

/-- RFE as a bundle (R60). -/
def execRfe (s : State) : Outcome := commit s (rfeEffect s)

/-- The system call as a bundle (R122). -/
def execScall (n : BitVec 16) (s : State) : Outcome := commit s (scallEffect n s)

end Sys2Proof.Machine
end

