-- ==== Sys2Proof/Machine/Waiting.lean ====
section
/-! DEFINITION. The idle instructions AWAIT, SLEEP and STOP (42_idle.md section 1). -/

namespace Sys2Proof.Machine

/-- An idle instruction whose WU bit is `wu`: it enters `mode` when the bit is 0 and is a NOP when it is 1. -/
def idleEffect (op : Op) (wu : Bool) (mode : Idle) (s : State) : Effect :=
  guardOwned op s (.complete (if wu then s else { s with idle := mode }))

/-- AWAIT (R100). -/
def awaitEffect (s : State) : Effect := idleEffect .await s.ws.wu0 .inAwait s

/-- SLEEP (R103). -/
def sleepEffect (s : State) : Effect := idleEffect .sleep s.ws.wu1 .inSleep s

/-- STOP (R106). -/
def stopEffect (s : State) : Effect := idleEffect .stop s.ws.wu2 .inStop s

/-- AWAIT as a bundle (R100). -/
def execAwait (s : State) : Outcome := commit s (awaitEffect s)

/-- SLEEP as a bundle (R103). -/
def execSleep (s : State) : Outcome := commit s (sleepEffect s)

/-- STOP as a bundle (R106). -/
def execStop (s : State) : Outcome := commit s (stopEffect s)

end Sys2Proof.Machine
end

