-- ==== Sys2Proof/Machine/Dispatch.lean ====
section
/-! DEFINITION. One arm per constructor of Instr: the meaning of a bundle that holds that one instruction. -/

namespace Sys2Proof.Machine

def exec (i : Instr) (s : State) : Host.Outcome State Fault Refusal :=
  match i with
  | .rfe => Sys2Proof.Machine.execRfe s
  | .get d sfr => Sys2Proof.Machine.execGet d sfr s
  | .iget z => Sys2Proof.Machine.execIget z s
  | .set sfr r => Sys2Proof.Machine.execSet sfr r s
  | .wfxl sfr r => Sys2Proof.Machine.execWfxl sfr r s
  | .wfxm sfr r => Sys2Proof.Machine.execWfxm sfr r s
  | .rswap sfr r => Sys2Proof.Machine.execRswap sfr r s
  | .tlb m => Sys2Proof.Machine.execTlb m s
  | .await => Sys2Proof.Machine.execAwait s
  | .sleep => Sys2Proof.Machine.execSleep s
  | .stop => Sys2Proof.Machine.execStop s
  | .make d imm => Sys2Proof.Machine.execMake d imm s
  | .nop => Sys2Proof.Machine.execNop s
  | .scall n => Sys2Proof.Machine.execScall n s

end Sys2Proof.Machine
end

