-- ==== Sys2Proof/Machine/Bundles.lean ====
section
/-! DEFINITION. The bundle as the unit of execution (R3, R143): executed as a whole or not at all. -/

namespace Sys2Proof.Machine

/-- The effect of an instruction, by constructor. -/
def effectOf (i : Instr) (s : State) : Effect :=
  match i with
  | .rfe => rfeEffect s
  | .get d sfr => getEffect d sfr s
  | .iget z => igetEffect z s
  | .set sfr r => setEffect sfr r s
  | .wfxl sfr r => wfxlEffect sfr r s
  | .wfxm sfr r => wfxmEffect sfr r s
  | .rswap sfr r => rswapEffect sfr r s
  | .tlb m => tlbEffect m s
  | .await => awaitEffect s
  | .sleep => sleepEffect s
  | .stop => stopEffect s
  | .make d imm => makeEffect d imm s
  | .nop => nopEffect s
  | .scall n => scallEffect n s

/-- The refusal among some effects. -/
def refusalOf (es : List Effect) : Option Refusal :=
  es.findSome? fun e => match e with
    | .refuse r => some r
    | .complete _ | .trap _ _ | .syscall _ _ => none

/-- The hardware trap with a given cause among some effects. -/
def trapOf (cause : Cause) (es : List Effect) : List Level :=
  es.filterMap fun e => match e with
    | .trap o c => if c = cause then some o else none
    | .complete _ | .syscall _ _ | .refuse _ => none

/-- The one hardware trap of a bundle, in R70's order: OPCODE, then PRIVILEGE to the most privileged owner, then PL
Overflow. -/
def bundleTrap (es : List Effect) : Option (Level × Cause) :=
  match trapOf .opcode es, worstOwner (trapOf .privilege es), trapOf .plo es with
  | o :: _, _, _ => some (o, .opcode)
  | [], some o, _ => some (o, .privilege)
  | [], none, o :: _ => some (o, .plo)
  | [], none, [] => none

/-- The system call among some effects. -/
def syscallOf (es : List Effect) : Option (Level × BitVec 16) :=
  es.findSome? fun e => match e with
    | .syscall o n => some (o, n)
    | .complete _ | .trap _ _ | .refuse _ => none

/-- The instruction decides what the core does after the bundle: RFE and the system call, and an idle instruction whose
WU bit is 0; with the bit at 1 it is a NOP (R100, R103, R106). -/
def State.decides (s : State) : Instr → Bool
  | .rfe | .scall _ => true
  | .await => !s.ws.wu0
  | .sleep => !s.ws.wu1
  | .stop => !s.ws.wu2
  | .get _ _ | .iget _ | .set _ _ | .wfxl _ _ | .wfxm _ _ | .rswap _ _ | .tlb _ | .make _ _ | .nop => false

/-- One instruction's writes, when it completes. -/
def applyEffect (s : State) (i : Instr) : State :=
  match effectOf i s with
  | .complete t => t
  | .trap _ _ | .syscall _ _ | .refuse _ => s

/-- The writes of all the instructions. The instruction that decides what follows comes last, so that every other one
runs at the level and in the idle status the bundle started in; apart from that the order does not matter to a
well-formed bundle. -/
def applyAll (b : Bundle) (s : State) : State :=
  (b.filter (fun i => !s.decides i) ++ b.filter s.decides).foldl applyEffect s

/-- A bundle of several instructions: a trap of any of them leaves the whole bundle unexecuted (R143), and a system
call is taken after the others have executed (R122). Where two of them decide what follows, the spec gives no order
(notes/assumptions/33.md). -/
def execSeveral (b : Bundle) (s : State) : Outcome :=
  let es := b.map fun i => effectOf i s
  match refusalOf es with
  | some r => .refused r
  | none =>
    match bundleTrap es with
    | some (o, cause) => .next (takeTrap o cause s)
    | none =>
      if 1 < (b.filter s.decides).length then .refused (.bundleIllFormed .orderOpen)
      else
        match syscallOf es with
        | some (o, n) => .next (takeSyscall o n (applyAll b s))
        | none => .next (applyAll b s).endBundle

/-- A well-formed bundle. -/
def execBundle (b : Bundle) (s : State) : Outcome :=
  match b with
  | [i] => exec i s
  | _ => execSeveral b s

end Sys2Proof.Machine
end

