-- ==== Sys2Proof/Machine/Environment.lean ====
section
/-! DEFINITION. The environment's moves, the wake from an idle mode, interrupts and debug exceptions (42_idle.md
section 2, 60_exceptions.md section 5, R170, R183). -/

namespace Sys2Proof.Machine

/-- A request of line `k` is registered in ILR (R30). -/
def State.registered (s : State) (k : Line) : Bool := decide (ilrFields.valueAt s.ilr k ≠ 0)

/-- `it_enabled(k)` (R32). -/
def State.itEnabled (s : State) (k : Line) : Bool := decide (enableFields.valueAt s.itEnable k ≠ 0)

/-- `it_level(k)` (R32). -/
def State.lineLevel (s : State) (k : Line) : Nat := levelFields.valueAt s.itLevel k

/-- `Eligible(k)` (R111). -/
def State.eligible (s : State) (k : Line) : Bool :=
  s.ps.ie && s.itEnabled k && decide (s.ps.il.toNat < s.lineLevel k)

/-- ILR with line `k` registered (R109, R110); a line already registered stays so (93_implementation_defined.md U10). -/
def State.registerLine (s : State) (k : Line) : Word := if s.registered k then s.ilr else ilrFields.raise s.ilr k

/-- A move of the environment (R110, R183). Nothing here clears a WU bit. -/
def envMove (m : EnvMove) (s : State) : State :=
  match m with
  | .interruptRise k =>
    if lineExists k then
      { s with ilr := s.registerLine k, ws := { s.ws with wu0 := true, wu1 := s.ws.wu1 || s.eligible k } }
    else s
  | .pe2peEvent e => { s with ev4 := { s.ev4 with since := s.ev4.since ++ [e] }, ws := { s.ws with wu0 := true } }
  | .wakeupSignal => { s with ws := { s.ws with wu0 := true, wu1 := true, wu2 := true } }
  | .setResetOnWakeup b => { s with resetOnWakeup := b }

/-- The hardware reset of a running machine (R107, R170): what the spec leaves unspecified is a draw. -/
def hardwareReset (s : State) : State := State.resetFrom (Config.resetDraw s.draws) s

/-- The step of an idle core (R101, R104, R107): it wakes when its mode's WU bit is 1, a stopped core into a reset when
`reset_on_wakeup` is set, and waits otherwise. Only the wakes from AWAIT and SLEEP are marked (R112). That a core woken
from STOP without a reset, which R107 has resume at the next bundle, may execute bundles before an eligible interrupt is
the MODEL'S choice: the spec leaves it open (R112, R115, R150; DESIGN CHOICE, notes/assumptions/29.md). -/
def idleTurn (s : State) : State :=
  match s.idle with
  | .running => s
  | .inAwait => if s.ws.wu0 then { s with idle := .running, woken := true } else s
  | .inSleep => if s.ws.wu1 then { s with idle := .running, woken := true } else s
  | .inStop =>
    if s.ws.wu2 then (if s.resetOnWakeup then hardwareReset s else { s with idle := .running }) else s

/-- The interrupts that can be taken: registered and eligible (R150). -/
def State.pending (s : State) : List Line :=
  (List.finRange 32).filter fun k => s.eligible k && s.registered k && lineExists k

/-- The entry of the interrupt on line `k`, between bundles (R139, R150): `pc` is the next bundle to execute. -/
def takeInterrupt (k : Line) (s : State) : State :=
  takeException .interrupt (s.owner .ito k) (.interrupt k) s.pc s

/-- The entry of debug event `d` raised by the bundle at `pc` (R131, R139, R157). -/
def takeDebug (d : BitVec 5) (s : State) : State :=
  takeException .debug (s.owner .dbo (doSlot d)) (.debug d) s.pc s

/-- The one of several eligible interrupts that is taken: any of them (R150, D26). -/
def State.chooseInterrupt (s : State) (k : Line) (ks : List Line) : Line :=
  (k :: ks).getD (Config.pickInterrupt s.draws % (ks.length + 1)) k

end Sys2Proof.Machine
end

