-- ==== Sys2Proof/Machine/Fetch.lean ====
section
/-! DEFINITION. The fetch of the bundle at an address (R41, R44, R52). -/

namespace Sys2Proof.Machine

/-- What stands at an address. -/
inductive Fetched where
  /-- A bundle and its size. -/
  | bundle (b : Bundle) (size : Nat)
  /-- The byte at `addr` is needed and has no value. -/
  | noByte (addr : Nat)
  /-- No bundle. -/
  | notBundle (r : Reject)
deriving DecidableEq, Repr

/-- The parameter `Decode` of R52: instruction memory and an address to a bundle with its size, or none. -/
abbrev Decoder := List Host.Cell → Pc → Fetched

/-- The bytes from `a` on, at most `n`, up to the first that has no value. -/
def fetchBytes (m : List Host.Cell) (a : Nat) : Nat → List Byte
  | 0 => []
  | n + 1 =>
    if a < addressCount then
      match memRead m a with
      | some v => v :: fetchBytes m (a + 1) n
      | none => []
    else []

/-- The most bytes a bundle of the stand-in encoding takes. -/
def maxFetch : Nat := maxBundle * maxInstrBytes

/-- The fetch through the stand-in decoder. -/
def fetch : Decoder := fun m a =>
  let bytes := fetchBytes m a.toNat maxFetch
  match decodeBundle bytes with
  | .ok (b, size) => .bundle b size
  | .error .truncated => .noByte (a.toNat + bytes.length)
  | .error r => .notBundle r

end Sys2Proof.Machine
end

