-- ==== Sys2Proof/Machine/Turns.lean ====
section
/-! DEFINITION. One step of the machine, for any decoder: the core's turn or the environment's (R4). -/

namespace Sys2Proof.Machine

/-- The state in which the bundle at `pc`, of `size` address units, executes. -/
def State.atBundle (s : State) (size : Nat) : State :=
  { s with nextBundle := nextAddress s.pc size, woken := false }

/-- The bundle at `pc` fetched and executed (R11, R51). -/
def runBundle (dec : Decoder) (s : State) : Outcome :=
  match dec s.mem s.pc with
  | .noByte a => .fault (.fetchNoByte a)
  | .notBundle r => .refused (.undecodable r)
  | .bundle b size =>
    match Bundle.problem b size with
    | some p => .refused (.bundleIllFormed p)
    | none => execBundle b (s.atBundle size)

/-- The core's turn. A running core takes an eligible interrupt or executes the next bundle; which comes first is open
(R146, D26), except that a core just woken from AWAIT or SLEEP takes the interrupt (R112). After a wake from STOP the
order stays free, and no bound is put on the delay (DESIGN CHOICE, notes/assumptions/29.md). -/
def coreTurn (dec : Decoder) (s : State) : Outcome :=
  match s.idle with
  | .running =>
    match s.pending with
    | [] => runBundle dec s
    | k :: ks =>
      if s.woken || !Config.delayInterrupt s.draws then .next (takeInterrupt (s.chooseInterrupt k ks) s)
      else runBundle dec { s with draws := s.draws + 1 }
  | .inAwait | .inSleep | .inStop => .next (idleTurn s)

/-- A debug turn: the bundle at `pc` raises the exception when the core runs, but a core just woken from AWAIT or SLEEP
by an interrupt takes that before any bundle (R112, R150); an idle core executes none (notes/assumptions/30.md). -/
def debugTurn (d : BitVec 5) (s : State) : State :=
  match s.idle with
  | .running =>
    match s.pending with
    | [] => takeDebug d s
    | k :: ks => if s.woken then takeInterrupt (s.chooseInterrupt k ks) s else takeDebug d s
  | .inAwait | .inSleep | .inStop => s

/-- One step with decoder `dec`: the turn at the head of the script, the core's when there is none. -/
def stepWith (dec : Decoder) (s : State) : Outcome :=
  match s.script with
  | [] => coreTurn dec s
  | .core :: rest => coreTurn dec { s with script := rest }
  | .env m :: rest => .next (envMove m { s with script := rest })
  | .debug d :: rest => .next (debugTurn d { s with script := rest })

/-- ILR with no request that would be taken before the next bundle. -/
def State.quietIlr (s : State) : Word := if s.pending.isEmpty then s.ilr else ilrFields.clear

/-- The state in which the next step fetches the instruction whose bits are `w` at `pc`: its bytes there, the core
running, no other turn first and no interrupt to take. -/
def placeInstr (s : State) (nbits w : Nat) : State :=
  { s with
    mem := memWriteBytes s.mem s.pc.toNat (tableBytes nbits w)
    idle := .running
    ilr := s.quietIlr
    script := [] }

end Sys2Proof.Machine
end

