-- ==== Sys2Proof/Machine/Step.lean ====
section
/-! DEFINITION. The step, through the stand-in decoder, and the state whose next step runs a given instruction. -/

namespace Sys2Proof.Machine

/-- One step of the machine. -/
def step (s : State) : Host.Outcome State Fault Refusal := stepWith fetch s

/-- `s` with the instruction whose bits are `w` where `step` fetches its next one. -/
def State.withFetchWord (s : State) (nbits w : Nat) : State := placeInstr s nbits w

end Sys2Proof.Machine
end

