-- ==== Sys2Proof/Safety.lean ====
section
/-! DEFINITION. The terms in which claims are stated: what holds of every state a step reaches, what an exception entry
does in the words of the rules, the starting premises of R184, the end of a run (R182), and a safe run. -/

namespace Sys2Proof

/-- The instruction is an SFR write that names `sfr` (R77, R78, R81, R89). -/
def Instr.WritesSfr (i : Instr) (sfr : Sfr) : Prop :=
  ∃ r : Reg, i = .set sfr r ∨ i = .wfxl sfr r ∨ i = .wfxm sfr r ∨ i = .rswap sfr r

/-- What an instruction is, without its operands. -/
def Instr.op : Instr → Op
  | .rfe => .rfe
  | .get _ _ => .get
  | .iget _ => .iget
  | .set _ _ => .set
  | .wfxl _ _ => .wfxl
  | .wfxm _ _ => .wfxm
  | .rswap _ _ => .rswap
  | .tlb m => .tlb m
  | .await => .await
  | .sleep => .sleep
  | .stop => .stop
  | .make _ _ => .make
  | .nop => .nop
  | .scall _ => .scall

end Sys2Proof

namespace Sys2Proof.Machine

/-- A PS value has no bit outside its fields. -/
structure Ps.Ok (p : Ps) : Prop where
  il : p.il &&& ilMask = p.il
  other : p.other &&& psOtherMask = p.other

/-- What the model keeps of every state: canonical memory, no bit outside a field of PS, of a saved PS or of WS, PL0 in
every owner field that does not exist, and a core that has just woken runs. -/
structure State.Ok (s : State) : Prop where
  mem : memWf s.mem = true
  ps : s.ps.Ok
  sps : ∀ j : Level, (s.sps[j]).Ok
  ws : s.ws.other &&& wsOtherMask = s.ws.other
  owners : ∀ (r : OwnReg) (k : Slot), ownField r k = false → s.owner r k = 0
  woken : s.woken = true → s.idle = .running

/-- The PS fields that are neither PL nor a FOE bit are those of `p`: its IL, and every unnamed bit outside `FOE0` and
`FOE1` (R135, R136). -/
structure SameUnforced (p q : Ps) : Prop where
  il : q.il = p.il
  other : ∀ b : Nat, foeMask.getLsbD b = false → q.other.getLsbD b = p.other.getLsbD b

/-- The FOE bits have their forced values: IE 0, ET 1, and the further members of FOE0 and FOE1 (R137). -/
structure Forced (q : Ps) : Prop where
  ie : q.ie = false
  et : q.et = true
  zero : ∀ b : Nat, foe0Mask.getLsbD b = true → q.other.getLsbD b = false
  one : ∀ b : Nat, foe1Mask.getLsbD b = true → q.other.getLsbD b = true

/-- Two states agree on everything an exception entry does not write (R134's last sentence, R183). -/
structure SameOutsideEntry (s t : State) : Prop where
  gpr : ∀ r : Reg, t.readReg r = s.readReg r
  ev : t.ev = s.ev
  owners : t.owners = s.owners
  pcr : t.pcr = s.pcr
  ws : t.ws = s.ws
  ilr : t.ilr = s.ilr
  ev4 : t.ev4 = s.ev4
  itEnable : t.itEnable = s.itEnable
  itLevel : t.itLevel = s.itLevel
  idle : t.idle = s.idle
  resetOnWakeup : t.resetOnWakeup = s.resetOnWakeup
  mem : ∀ a : Nat, memRead t.mem a = memRead s.mem a
  script : t.script = s.script

/-- `t` is what taking an exception of category `cat`, owned by `o` and with saved address `savedPc`, makes of `s`: the
entry of R134, at the destination level `j` of R133. -/
structure Entered (cat : Category) (o : Level) (savedPc : Pc) (s t : State) (j : Level) : Prop where
  /-- R133. -/
  dest : j = min o s.ps.pl
  /-- The new level (R134). -/
  level : t.ps.pl = j
  /-- R137. -/
  forced : Forced t.ps
  /-- R135: a vertical entry restores the remnant state of `j`. -/
  vertical : j ≠ s.ps.pl → SameUnforced s.sps[j] t.ps
  /-- R136: a horizontal entry does not. -/
  horizontal : j = s.ps.pl → SameUnforced s.ps t.ps
  /-- R134: the running PS is saved, but for its level. -/
  saved : t.sps[j] = { s.ps with pl := (t.sps[j]).pl }
  /-- R138: the level it came from, relative to `j`. -/
  relative : (t.sps[j]).pl.val = s.ps.pl.val - j.val
  /-- R134, R139. -/
  savedPc : t.spc[j] = savedPc
  /-- R140. -/
  handler : t.pc = handlerPc s.ev[j] cat
  /-- R141: what ES_PL[j] holds reports the category. -/
  syndrome : esCategory t.es[j] = cat
  /-- R36, R141: each of its *RPL fields holds a relative level of reference level `j`. Nothing else is said of
  ES_PL[j], and nothing of EA_PL[j] (R142). -/
  relativeLevels : ∀ lo ∈ esLayout.rpl, j.val + (esRpl t.es[j] lo).val ≤ 3
  /-- R134, R152: the registers of the other levels are not written. -/
  others : ∀ m : Level, m ≠ j → t.sps[m] = s.sps[m] ∧ t.spc[m] = s.spc[m] ∧ t.es[m] = s.es[m] ∧ t.ea[m] = s.ea[m]
  frame : SameOutsideEntry s t

/-- `t` is some entry from `s` of a hardware trap owned by `o`: the trapping bundle's address is saved (R139, R144). -/
def TrapEntered (o : Level) (s t : State) : Prop := Entered .hwtrap o s.pc s t (min o s.ps.pl)

/-- The executing level may execute instructions of kind `op` (R91). -/
def State.MayExecute (s : State) (op : Op) : Prop := s.instrOwners op = []

/-- The executing level may access every field that the masks try (R79). -/
def State.MayWrite (s : State) (sfr : Sfr) (m : Masks) : Prop :=
  ∀ b : BitNo, m.tries sfr b = true → s.ps.pl ≤ s.ownerAt sfr b

/-- The SFR write that an instruction makes: its kind, its SFR and its masks (R55, R77, R78, R81, R89). -/
def State.sfrWrite (s : State) : Instr → Option (AccessKind × Sfr × Masks)
  | .set sfr r => some (.set, sfr, .whole (s.readReg r))
  | .wfxl sfr r => some (.wfx, sfr, .low (s.readReg r))
  | .wfxm sfr r => some (.wfx, sfr, .high (s.readReg r))
  | .rswap sfr r => some (.rswap, sfr, .whole (s.readReg r))
  | .rfe | .get _ _ | .iget _ | .tlb _ | .await | .sleep | .stop | .make _ _ | .nop | .scall _ => none

/-- Step 1 of R70 for an SFR write: the table has the row for the SFR and, for WFX*, for every field touched (R72,
R78). -/
def AccessPasses (kind : AccessKind) (sfr : Sfr) (m : Masks) : Prop :=
  sfrAccess kind sfr = true ∧ (kind = .wfx → ∀ b : BitNo, m.tries sfr b = true → wfxField sfr b = true)

/-- Step 1 of R70 for any instruction: it raises no OPCODE trap (R72, R74, R90). -/
def State.OpcodePasses (s : State) (i : Instr) : Prop :=
  match i with
  | .get _ sfr => sfrAccess .get sfr = true
  | .iget z => ∃ sfr, s.readReg z = sfrIndex sfr ∧ sfrAccess .iget sfr = true
  | .tlb m => Config.tlbAccess m = true
  | .set _ _ | .wfxl _ _ | .wfxm _ _ | .rswap _ _ =>
    ∀ kind sfr m, s.sfrWrite i = some (kind, sfr, m) → AccessPasses kind sfr m
  | .rfe | .await | .sleep | .stop | .make _ _ | .nop | .scall _ => True

/-- The regular update of the bit `n` of a field: cleared where the clear mask is 1, then set where the set mask is 1
(R82, D14). -/
def regularUpdate (m : Masks) (n : Nat) (old : Bool) : Bool := (old && !m.clr.getLsbD n) || m.set.getLsbD n

/-- The masks touch no bit of the field whose bits `field` has (R78). -/
def Masks.LeavesAlone (m : Masks) (field : Word) : Prop :=
  ∀ n : Nat, field.getLsbD n = true → m.set.getLsbD n = false ∧ m.clr.getLsbD n = false

/-- `q` is `p` after the regular update of every PS field but PL (R82): IE, ET, IL and the unnamed fields. -/
structure FieldsUpdated (m : Masks) (p q : Ps) : Prop where
  ie : q.ie = regularUpdate m psLayout.iePos p.ie
  et : q.et = regularUpdate m psLayout.etPos p.et
  il : ∀ n : Nat, n < psLayout.ilWidth → q.il.getLsbD n = regularUpdate m (psLayout.ilLo + n) (p.il.getLsbD n)
  other : ∀ b : BitNo, psFieldAt b = some (.other b) →
    q.other.getLsbD b.val = regularUpdate m b.val (p.other.getLsbD b.val)

/-- Instruction `i` takes the OPCODE trap: the whole entry, to the level that HTO gives (R145). -/
def State.TrapsOpcode (s : State) (i : Instr) : Prop :=
  ∃ t, exec i s = .next t ∧ TrapEntered (s.owner .hto (htoSlot .opcode)) s t

/-- GET of `sfr` into `d` completes with a value that meets `P` where the table lets GET access the SFR (R72), and traps
OPCODE where it does not (93_implementation_defined.md U19). -/
def State.GetYields (s : State) (d : Reg) (sfr : Sfr) (P : Word → Prop) : Prop :=
  if sfrAccess .get sfr then ∃ t, exec (.get d sfr) s = .next t ∧ P (t.readReg d) else s.TrapsOpcode (.get d sfr)

/-- What GET reads of an SFR of `PC_W` bits that belongs to level `j` and holds `held`: its bits at level `j` and above,
0 below (R71, R75). What the bits above `PC_W` read as is open (D39). -/
def State.ReadsByLevel (s : State) (j : Level) (held : Pc) (v : Word) : Prop :=
  if s.ps.pl ≤ j then ∀ n : Nat, n < pcWidth → v.getLsbD n = held.getLsbD n else v = 0#64

/-- What GET reads of an SFR whose bits MO owns: each bit whose owner lets the level read it, 0 in every other (R71,
R75). -/
def State.ReadsByOwner (s : State) (sfr : Sfr) (held : Word) (v : Word) : Prop :=
  ∀ b : BitNo, v.getLsbD b.val = (decide (s.ps.pl ≤ s.owner .mo (moSlot sfr b)) && held.getLsbD b.val)

/-- The MO fields that may turn TLB* member `m` away: those of what it writes, and the instruction's own (R90, R91). -/
def TlbOwnedBy (m : BitVec 8) (k : Slot) : Prop := k ∈ tlbSlots m ∨ instrSlot (.tlb m) = some k

/-- An instruction alone raises no trap and is not refused: it completes, or is a system call. -/
def State.Runs (s : State) (i : Instr) : Prop :=
  (∃ t, effectOf i s = .complete t) ∨ ∃ o n, effectOf i s = .syscall o n

/-- The bundle that the decoder reads at `pc` holds `i`. -/
def State.Fetches (dec : Decoder) (s : State) (i : Instr) : Prop :=
  ∃ b size, dec s.mem s.pc = .bundle b size ∧ i ∈ b

/-- The write and read masks that a WFX* operand gives the 2-bit field at bit `lo` of its half: bits `lo`, `lo + 1` of
the operand's upper and of its lower 32 bits (R55). -/
def wfxMasksAt (operand : Word) (lo : Nat) : Level × Level :=
  (levelOfBits (operand.getLsbD (32 + lo)) (operand.getLsbD (33 + lo)),
    levelOfBits (operand.getLsbD lo) (operand.getLsbD (lo + 1)))

/-- The offset that the operand of SET and RSWAP gives the 2-bit field at bit `lo`: its bits there (R86). -/
def setOffsetAt (operand : Word) (lo : Nat) : Level :=
  levelOfBits (operand.getLsbD lo) (operand.getLsbD (lo + 1))

/-- The offset that the operand of WFXL gives the 2-bit field at bit `lo`: its write mask there, for a field in bits
31:0 (R78, R83). -/
def wfxlOffsetAt (operand : Word) (lo : Nat) : Level := if lo < 32 then (wfxMasksAt operand lo).1 else 0

/-- The same for WFXM and a field in bits 63:32 (R81). -/
def wfxmOffsetAt (operand : Word) (lo : Nat) : Level := if 32 ≤ lo then (wfxMasksAt operand (lo - 32)).1 else 0

/-- The first starting premise of R184: the state after a hardware reset, every unspecified register a draw. -/
def AfterReset (s : State) : Prop := ∃ (d : ResetDraw) (before : State), s = State.resetFrom d before

/-- The second starting premise of R184: a state spelled out by the claim. -/
def Configured (c s : State) : Prop := s = c

/-- The end of a run (R182, D41): the core runs at the address the launch named and no exception waits for delivery. A
device of the model's: the hardware does not stop there. That the exceptions pending delivery are the interrupts that
are registered AND eligible, so that a registered one that is masked does not hold the end back, is the MODEL'S choice
(DESIGN CHOICE, notes/assumptions/35.md): the spec does not say what the words cover. -/
def RunEnded (endPc : Pc) (s : State) : Prop := s.pc = endPc ∧ s.idle = .running ∧ s.pending = []

/-- A core that waits: idle with the WU bit of its mode at 0 (93_implementation_defined.md U18). -/
def State.Waiting (s : State) : Prop :=
  (s.idle = .inAwait ∧ s.ws.wu0 = false) ∨ (s.idle = .inSleep ∧ s.ws.wu1 = false)
    ∨ (s.idle = .inStop ∧ s.ws.wu2 = false)

/-- A run of `n` steps that neither faults nor is refused. -/
def SafeRun (n : Nat) (s : State) : Prop := ∃ t, Sys2Proof.core.run n s = .next t

end Sys2Proof.Machine
end

