-- ==== Sys2Proof/Certificates/Slice0/Obligations.lean ====
section
/-! DEFINITION. The statements for the provers, one per rule or group of rules of spec/. -/

open Sys2Proof Sys2Proof.Machine

/-! Encoding: statements about the model's stand-in encoding (DESIGN CHOICE, notes/assumptions/1.md), never about the
hardware's bits, which the spec does not give. -/

/-- Every bundle of one to eight instructions, with every operand at every value, is read back from its bytes,
whatever follows them in memory. The bits are the MODEL'S stand-in encoding (DESIGN CHOICE, log 1): the spec gives
none (R52). -/
def Obligations.DecodeOfEncodedBundle : Prop :=
  ∀ (b : Bundle) (rest : List Byte), b ≠ [] → b.length ≤ maxBundle →
    decodeBundle (encodeBundle b ++ rest) = .ok (b, bundleSize b)

/-- The other direction: bytes that decode to a bundle begin with the encoding of that bundle, of exactly its size, so
no bit is dropped and no two byte sequences of that size stand for one bundle. The bits are the MODEL'S stand-in
encoding (DESIGN CHOICE, log 1). -/
def Obligations.EncodeOfDecodedBytes : Prop :=
  ∀ (bytes : List Byte) (b : Bundle) (size : Nat), decodeBundle bytes = .ok (b, size) →
    b ≠ [] ∧ b.length ≤ maxBundle ∧ size = bundleSize b ∧ bytes.take size = encodeBundle b

/-- Six words written out bit by bit from the table of the stand-in encoding decode to the instruction they stand for,
and the zero word to none. The table is the MODEL'S (DESIGN CHOICE, log 1). -/
def Obligations.WrittenOutWordsDecode : Prop :=
  decodeTableWord 32 0b0_0000001_00000000_0000000000000000 = some .rfe
    ∧ decodeTableWord 32 0b0_0000010_00100010_0000000000000000 = some (.get 0 (.own .ito))
    ∧ decodeTableWord 32 0b0_0000101_00101010_0000000000000000 = some (.wfxl (.ownW .ito) 0)
    ∧ decodeTableWord 32 0b0_0001001_00000000_0000000000000000 = some .await
    ∧ decodeTableWord 96 0x0000_0001_0000_0300_0C00_0000 = some (.make 0 0x0000000100000300#64)
    ∧ decodeTableWord 32 0b0_0001110_00000000_0000000000000101 = some (.scall 5#16)
    ∧ decodeTableWord 32 0 = none

/-- Each of SET, WFXL, WFXM, RSWAP and TLB* takes 4 address units in the stand-in encoding (R50, D4), in its size and
in its bytes. That the encoding is a stand-in is log 1. -/
def Obligations.AloneInstructionsTakeFour : Prop :=
  ∀ (i : Instr) (more : Bool), i.alone = true → (encodeInstr more i).length = 4 ∧ instrSize i = 4

/-! The step. -/

/-- When no turn of the environment comes first, the core runs and no interrupt can be taken, and the decoder reads at
`pc` a well-formed bundle of one instruction, the step is exec of that instruction in the same state with NextBundle
at the logical successor and the mark of a wake gone. It holds for every decoder (R52, D1). -/
def Obligations.StepRunsTheDecodedInstruction : Prop :=
  ∀ (dec : Decoder) (s : State) (i : Instr) (size : Nat),
    s.script = [] → s.idle = .running → s.pending = [] →
    dec s.mem s.pc = .bundle [i] size → Bundle.WellFormed [i] size →
    stepWith dec s = exec i { s with nextBundle := nextAddress s.pc size, woken := false }

/-- When the bytes of an instruction stand in memory at `pc`, up to the last address of the address space, the
machine's own step is exec of that instruction, with NextBundle that many bytes further. The encoding is the MODEL'S
stand-in (DESIGN CHOICE, log 1). -/
def Obligations.StepRunsTheInstructionInMemory : Prop :=
  ∀ (s : State) (i : Instr),
    s.script = [] → s.idle = .running → s.pending = [] →
    (∀ (n : Nat) (h : n < (encode i).length), memRead s.mem (s.pc.toNat + n) = some (encode i)[n]) →
    s.pc.toNat + (encode i).length ≤ addressCount →
    step s = exec i { s with nextBundle := nextAddress s.pc (instrSize i), woken := false }

/-- Where the decoder gives no bundle, or one that is not well-formed, the step is a fault or a refusal with its own
name: no exception is taken. That it stops on bytes that are no bundle, on an instruction that is not alone and on a
wrong size is the spec's decision D3 and its treatment of U5 and U13; that a byte without a value is a fault is the
MODEL'S choice (log 4), and so is that an empty bundle and one that writes a register twice are refused (log 33). -/
def Obligations.NothingRunsWithoutAWellFormedBundle : Prop :=
  ∀ (dec : Decoder) (s : State), s.script = [] → s.idle = .running → s.pending = [] →
    match dec s.mem s.pc with
    | .noByte a => stepWith dec s = .fault (.fetchNoByte a)
    | .notBundle r => stepWith dec s = .refused (.undecodable r)
    | .bundle b size => ∀ p, Bundle.problem b size = some p → stepWith dec s = .refused (.bundleIllFormed p)

/-- Of a well-formed bundle all of whose instructions run and of which at most `i` decides what follows, the others
write each register as each would alone and nothing else, and then `i` executes; where `i` is a system call, it enters
its owner's level with the next bundle as return address (R122). A trap of one instruction is the trap of the whole
bundle, from the state before it (R143, R3); a refusal of one refuses the bundle. That the instructions read the
registers from before the bundle, and that a bundle in which two decide is refused by name, is the MODEL'S choice (log
33). -/
def Obligations.SystemCallBundleExecutesFirst : Prop :=
  (∀ (before after : List Instr) (i : Instr) (size : Nat) (s : State),
      Bundle.WellFormed (before ++ i :: after) size → (∀ j ∈ before ++ i :: after, s.Runs j) →
      (∀ j ∈ before ++ after, s.decides j = false) →
      ∃ u, execBundle (before ++ i :: after) s = exec i u
        ∧ (∀ j ∈ before ++ after, ∀ d v, j.writes = some d → exec j s = .next v → u.readReg d = v.readReg d)
        ∧ (∀ r, (∀ j ∈ before ++ after, j.writes ≠ some r) → u.readReg r = s.readReg r)
        ∧ { u with gpr := s.gpr } = s
        ∧ ∀ n, i = .scall n → ∃ t, exec i u = .next t
          ∧ Entered .syscall (s.owner .syo (syoSlot n)) s.nextBundle u t (min (s.owner .syo (syoSlot n)) s.ps.pl))
    ∧ (∀ (b : Bundle) (size : Nat) (s : State), Bundle.WellFormed b size →
      (∀ j ∈ b, ∀ r, exec j s ≠ .refused r) → (∃ j ∈ b, ¬s.Runs j) →
      ∃ j ∈ b, ∃ o t, execBundle b s = .next t ∧ exec j s = .next t ∧ TrapEntered o s t)
    ∧ (∀ (b : Bundle) (size : Nat) (s : State), Bundle.WellFormed b size → (∃ j ∈ b, ∃ r, exec j s = .refused r) →
      ∃ j ∈ b, ∃ r, exec j s = .refused r ∧ execBundle b s = .refused r)
    ∧ ∀ (b : Bundle) (size : Nat) (s : State), Bundle.WellFormed b size → (∀ j ∈ b, s.Runs j) →
      1 < (b.filter s.decides).length → execBundle b s = .refused (.bundleIllFormed .orderOpen)

/-! Exceptions. -/

/-- For every category, owner, cause and saved address, taking an exception goes to the more privileged of owner and
running level, forces the FOE bits, restores the remnant state only when vertical, saves PS with the level in relative
form and the given address, branches to the handler, reports the category in ES and relative levels in its *RPL
fields, and writes no other register. That IE is in FOE0 and ET in FOE1 is the spec's decision D7 (log 9); that a
level reported is one of the four is the model's reading of R36 (DEDUCED, log 25). -/
def Obligations.TakingAnExceptionEnters : Prop :=
  ∀ (cat : Category) (o : Level) (cause : Cause) (savedPc : Pc) (s : State),
    Entered cat o savedPc s (takeException cat o cause savedPc s) (min o s.ps.pl)

/-- For one value of EV the handler addresses of two categories differ. The property is the spec's decision D8 (log
24); the addresses themselves are open. -/
def Obligations.CategoriesHaveDistinctHandlers : Prop :=
  ∀ (ev : Pc) (c d : Category), c ≠ d → handlerPc ev c ≠ handlerPc ev d

/-- Hardware traps and debug exceptions save the address of the bundle that raised them, interrupts that of the next
bundle to execute, system calls that of the logical successor, each in the saved PC of its destination level. A step
whose turn is a debug event is, on a running core, the whole entry to the level that the event's DO field gives, with
`pc` saved; on one just woken from AWAIT or SLEEP with an interrupt pending, that interrupt's entry (R112). What
raises a debug event, which DO field owns it and that an idle core takes none are the MODEL'S (log 30; D35). -/
def Obligations.SavedAddressByCategory : Prop :=
  (∀ (s : State) (o : Level) (cause : Cause) (k : Line) (d : BitVec 5) (n : BitVec 16),
      (takeTrap o cause s).spc[min o s.ps.pl] = s.pc
        ∧ (takeDebug d s).spc[min (s.owner .dbo (doSlot d)) s.ps.pl] = s.pc
        ∧ (takeInterrupt k s).spc[min (s.owner .ito k) s.ps.pl] = s.pc
        ∧ (takeSyscall o n s).spc[min o s.ps.pl] = s.nextBundle)
    ∧ ∀ (dec : Decoder) (s : State) (d : BitVec 5) (rest : List Turn), s.script = .debug d :: rest →
      (s.idle = .running → (s.woken = false ∨ s.pending = []) →
          ∃ t, stepWith dec s = .next t
            ∧ Entered .debug (s.owner .dbo (doSlot d)) s.pc { s with script := rest } t
                (min (s.owner .dbo (doSlot d)) s.ps.pl))
        ∧ (s.idle = .running → s.woken = true → s.pending ≠ [] →
          ∃ k ∈ s.pending, ∃ t, stepWith dec s = .next t
            ∧ Entered .interrupt (s.owner .ito k) s.pc { s with script := rest } t (min (s.owner .ito k) s.ps.pl))
        ∧ (s.idle ≠ .running → stepWith dec s = .next { s with script := rest })

/-- After any exception entry, an RFE that the handler's level may execute completes, gives back the PS from before
the entry, its level included, and goes to the saved address: it never overflows (R138's derivation, vectors F7 and
F8). -/
def Obligations.ReturnUndoesEntry : Prop :=
  ∀ (cat : Category) (o : Level) (cause : Cause) (savedPc : Pc) (s : State),
    (takeException cat o cause savedPc s).MayExecute .rfe →
    ∃ u, exec .rfe (takeException cat o cause savedPc s) = .next u ∧ u.ps = s.ps ∧ u.pc = savedPc

/-- After a vertical RFE from a level, an exception that this level owns puts back every unnamed PS field of the level
that is no FOE bit (R61, R135). -/
def Obligations.EntryRestoresWhatReturnBackedUp : Prop :=
  ∀ (cat : Category) (cause : Cause) (savedPc : Pc) (s : State) (d : Level),
    s.ps.pl < d → addLevels s.ps.pl (s.sps[s.ps.pl]).pl = some d →
    ∀ b : Nat, foeMask.getLsbD b = false →
      (takeException cat s.ps.pl cause savedPc (returnFromException d s)).ps.other.getLsbD b = s.ps.other.getLsbD b

/-! RFE. -/

/-- RFE whose level fits restores PS from the saved status with its relative level made absolute, and `pc` from the
saved PC. A vertical RFE writes into the saved status every PS field but the FOE bits, IL and PL, which keep their
values; a horizontal one leaves the saved status alone. Nothing else changes. -/
def Obligations.RfeReturns : Prop :=
  ∀ (s : State), s.MayExecute .rfe → s.ps.pl.val + (s.sps[s.ps.pl]).pl.val ≤ 3 →
    ∃ t, exec .rfe s = .next t
      ∧ t.ps = { s.sps[s.ps.pl] with pl := t.ps.pl }
      ∧ t.ps.pl.val = s.ps.pl.val + (s.sps[s.ps.pl]).pl.val
      ∧ t.pc = s.spc[s.ps.pl]
      ∧ ((s.sps[s.ps.pl]).pl = 0 → t.sps = s.sps)
      ∧ ((s.sps[s.ps.pl]).pl ≠ 0 →
          t.sps[s.ps.pl] = { s.sps[s.ps.pl] with other := (t.sps[s.ps.pl]).other }
            ∧ ∀ b : Nat, (t.sps[s.ps.pl]).other.getLsbD b
                = if foeMask.getLsbD b then (s.sps[s.ps.pl]).other.getLsbD b
                  else s.ps.other.getLsbD b)
      ∧ (∀ m : Level, m ≠ s.ps.pl → t.sps[m] = s.sps[m])
      ∧ (∀ a : Nat, memRead t.mem a = memRead s.mem a)
      ∧ { t with ps := s.ps, sps := s.sps, pc := s.pc, nextBundle := s.nextBundle } = s

/-- RFE with a sum above 3 does none of its actions and takes the PL Overflow trap to the level HTO gives, with the
RFE's address saved. That it does none of its actions is the spec's decision D34 (log 37); which field of HTO is open
(D35). -/
def Obligations.RfeOverflowTraps : Prop :=
  ∀ (s : State), s.MayExecute .rfe → 3 < s.ps.pl.val + (s.sps[s.ps.pl]).pl.val →
    ∃ t, exec .rfe s = .next t ∧ TrapEntered (s.owner .hto (htoSlot .plo)) s t

/-- For every instruction but NOP: where the open map gives it an owner field, the level may execute it exactly when
that owner is no more privileged; where the owner is more privileged and the OPCODE check passes, the instruction
traps to that owner, or, when it also violates the owners of what it writes, to one at least as privileged. Where the
map gives it none, the level may execute it (D25). That the owner field is one of MO is the spec's derivation in R26,
and that NOP has none the model's (log 17); that the instruction's owner counts among those violated is the MODEL'S
choice (log 18). -/
def Obligations.OwnedInstructionTrapsToItsOwner : Prop :=
  ∀ (s : State) (i : Instr), i ≠ .nop →
    match instrSlot i.op with
    | none => s.MayExecute i.op
    | some k =>
      (s.MayExecute i.op ↔ s.ps.pl ≤ s.owner .mo k)
        ∧ (s.owner .mo k < s.ps.pl → s.OpcodePasses i →
          ∃ o t, exec i s = .next t ∧ TrapEntered o s t ∧ t.ps.pl = o ∧ o ≤ s.owner .mo k
            ∧ (i.alone = false → o = s.owner .mo k)
            ∧ ∀ kind sfr m, s.sfrWrite i = some (kind, sfr, m) → s.MayWrite sfr m → o = s.owner .mo k)

/-! Reads. -/

/-- GET of an SFR it may access gives the register each bit of the SFR that the level may read and 0 in every other
one, raises no trap, and changes nothing else. Which bits those are is said by PsReadInFullAtEveryLevel,
OwnersReadAbsoluteAtEveryLevel and PerLevelRegistersReadByLevel. What bits outside every field read as is open (D39,
logs 6, 11 and 13). -/
def Obligations.GetReadsWhatIsReadable : Prop :=
  ∀ (d : Reg) (sfr : Sfr) (s : State), sfrAccess .get sfr = true → s.MayExecute .get →
    ∃ t, exec (.get d sfr) s = .next t
      ∧ (∀ b : BitNo, (t.readReg d).getLsbD b.val = (s.readable sfr b && s.imageBit sfr b))
      ∧ (∀ r, r ≠ d → t.readReg r = s.readReg r)
      ∧ t.pc = s.nextBundle
      ∧ (∀ a : Nat, memRead t.mem a = memRead s.mem a)
      ∧ { t with gpr := s.gpr, pc := s.pc } = s

/-- IGET reads, as GET does, the SFR whose number its register holds, into that register. That the number comes from a
register is the spec's decision D30 (log 21). -/
def Obligations.IgetReadsTheNumberedSfr : Prop :=
  ∀ (z : Reg) (sfr : Sfr) (s : State), s.readReg z = sfrIndex sfr → sfrAccess .iget sfr = true →
    s.MayExecute .iget →
    ∃ t, exec (.iget z) s = .next t
      ∧ (∀ b : BitNo, (t.readReg z).getLsbD b.val = (s.readable sfr b && s.imageBit sfr b))
      ∧ (∀ r, r ≠ z → t.readReg r = s.readReg r)
      ∧ t.pc = s.nextBundle
      ∧ (∀ a : Nat, memRead t.mem a = memRead s.mem a)
      ∧ { t with gpr := s.gpr, pc := s.pc } = s

/-- IGET with a number that names no SFR is refused by name (decision D30, log 21); with the number of a write name of
an ownership register it traps OPCODE (R88, decision D13). -/
def Obligations.IgetStopsOnOtherNumbers : Prop :=
  ∀ (z : Reg) (s : State),
    ((∀ sfr : Sfr, sfrIndex sfr ≠ s.readReg z) → exec (.iget z) s = .refused (.igetNamesNoSfr (s.readReg z)))
      ∧ ∀ r : OwnReg, s.readReg z = sfrIndex (.ownW r) →
          ∃ t, exec (.iget z) s = .next t ∧ TrapEntered (s.owner .hto (htoSlot .opcode)) s t

/-- GET of an ownership register returns in each of its fields the absolute owner, whatever the level and with no
zeroing (R92, R76); and the field that owns a system call, a trap, a debug event, a line, a PS field, an SFR, an
instruction or what a TLB* member writes is a field of its register (R131, R26). That field k lies at bits 2k+1 and 2k
is derived in R22 for ITO and the model's reading of R21 for the other five (log 10); which field it is stays open
(logs 11 and 17). -/
def Obligations.OwnersReadAbsoluteAtEveryLevel : Prop :=
  (∀ (d : Reg) (r : OwnReg) (s : State), s.MayExecute .get →
      ∃ t, exec (.get d (.own r)) s = .next t
        ∧ ∀ k : Slot, ownField r k = true →
            levelOfBits ((t.readReg d).getLsbD (2 * k.val)) ((t.readReg d).getLsbD (2 * k.val + 1)) = s.owner r k)
    ∧ (∀ (n : BitVec 16) (c : HtoTrap) (e : BitVec 5) (k : Line), ownField .syo (syoSlot n) = true
        ∧ ownField .hto (htoSlot c) = true ∧ ownField .dbo (doSlot e) = true ∧ ownField .ito k = lineExists k)
    ∧ ∀ (f : PsField) (sfr : Sfr) (b : BitNo) (op : Op) (m : BitVec 8) (k : Slot), ownField .pso (psoSlot f) = true
        ∧ ownField .mo (moSlot sfr b) = true ∧ (instrSlot op = some k → ownField .mo k = true)
        ∧ (k ∈ tlbSlots m → ownField .mo k = true)

/-- GET of PS returns the absolute level, IE, ET, IL and every unnamed field at their places, whatever the level and
whoever owns the fields. The reading of read-only as readable in full is the spec's decision D10; the places are open
(log 8). -/
def Obligations.PsReadInFullAtEveryLevel : Prop :=
  ∀ (d : Reg) (s : State), s.MayExecute .get →
    ∃ t, exec (.get d .ps) s = .next t
      ∧ levelOfBits ((t.readReg d).getLsbD psLayout.plLo) ((t.readReg d).getLsbD (psLayout.plLo + 1)) = s.ps.pl
      ∧ (t.readReg d).getLsbD psLayout.iePos = s.ps.ie
      ∧ (t.readReg d).getLsbD psLayout.etPos = s.ps.et
      ∧ (∀ n : Nat, n < psLayout.ilWidth → (t.readReg d).getLsbD (psLayout.ilLo + n) = s.ps.il.getLsbD n)
      ∧ (∀ b : BitNo, psFieldAt b = some (.other b) → (t.readReg d).getLsbD b.val = s.ps.other.getLsbD b.val)

/-- GET returns the saved status of level j in full, its PL relative, at level j and above and zero below; PCR in full
at every level; SPC, EV, ES and EA of level j at level j and above and zero below; and of WS, ILR, EV4, the interrupt
enables and levels each bit whose MO owner lets the level read it. SPS and PCR are read in full by decision D10; the
per-level registers belong to their level by D11. Whether GET may access SPC, EV, ES, EA and the MO-owned SFRs is open
in the spec and in the model (U19, log 15): where it may not, GET traps OPCODE. That the owners of WS, ILR, EV4, the
enables and levels are fields of MO is the spec's derivation in R26 (DEDUCED, log 17), and that they may differ from
bit to bit of an SFR the model's reading of it (log 17). What the SFRs hold is logs 6, 12 and 13. -/
def Obligations.PerLevelRegistersReadByLevel : Prop :=
  ∀ (d : Reg) (j : Level) (s : State), s.MayExecute .get →
    (∃ t, exec (.get d (.sps j)) s = .next t
        ∧ (s.ps.pl ≤ j →
            levelOfBits ((t.readReg d).getLsbD psLayout.plLo) ((t.readReg d).getLsbD (psLayout.plLo + 1))
              = (s.sps[j]).pl
            ∧ (t.readReg d).getLsbD psLayout.iePos = (s.sps[j]).ie
            ∧ (t.readReg d).getLsbD psLayout.etPos = (s.sps[j]).et
            ∧ (∀ n : Nat, n < psLayout.ilWidth →
                (t.readReg d).getLsbD (psLayout.ilLo + n) = (s.sps[j]).il.getLsbD n)
            ∧ ∀ b : BitNo, psFieldAt b = some (.other b) →
                (t.readReg d).getLsbD b.val = (s.sps[j]).other.getLsbD b.val)
        ∧ (j < s.ps.pl → t.readReg d = 0#64))
      ∧ (∃ t, exec (.get d .pcr) s = .next t ∧ t.readReg d = s.pcr)
      ∧ s.GetYields d (.spc j) (s.ReadsByLevel j s.spc[j])
      ∧ s.GetYields d (.ev j) (s.ReadsByLevel j s.ev[j])
      ∧ s.GetYields d (.ea j) (s.ReadsByLevel j s.ea[j])
      ∧ s.GetYields d (.es j) (fun v => v = if s.ps.pl ≤ j then s.es[j] else 0#64)
      ∧ s.GetYields d .ws (fun v => ∀ b : BitNo,
          let may := decide (s.ps.pl ≤ s.owner .mo (moSlot .ws b))
          (b.val = wsLayout.wu0Pos → v.getLsbD b.val = (may && s.ws.wu0))
            ∧ (b.val = wsLayout.wu1Pos → v.getLsbD b.val = (may && s.ws.wu1))
            ∧ (b.val = wsLayout.wu2Pos → v.getLsbD b.val = (may && s.ws.wu2))
            ∧ (wsOtherMask.getLsbD b.val = true → v.getLsbD b.val = (may && s.ws.other.getLsbD b.val)))
      ∧ s.GetYields d .ilr (s.ReadsByOwner .ilr s.ilr)
      ∧ s.GetYields d .ev4 (s.ReadsByOwner .ev4 s.ev4.image)
      ∧ s.GetYields d .itEnable (s.ReadsByOwner .itEnable s.itEnable)
      ∧ s.GetYields d .itLevel (s.ReadsByOwner .itLevel s.itLevel)

/-! Writes. -/

/-- At a level that may access every field of an ownership register, with no offset that overflows, SET through the
write alias gives every field the running level plus the operand's two bits at the field, and changes nothing else
(R86, decision D36). The places of the fields are log 10. -/
def Obligations.SetOwnersIsRelative : Prop :=
  ∀ (r : OwnReg) (x : Reg) (s : State), s.MayExecute .set →
    (∀ k : Slot, ownField r k = true → s.ps.pl ≤ s.owner r k) →
    (∀ k : Slot, ownField r k = true →
      s.ps.pl.val + (levelOfBits ((s.readReg x).getLsbD (2 * k.val)) ((s.readReg x).getLsbD (2 * k.val + 1))).val
        ≤ 3) →
    ∃ t, exec (.set (.ownW r) x) s = .next t
      ∧ (∀ k : Slot, ownField r k = true → (t.owner r k).val = s.ps.pl.val
          + (levelOfBits ((s.readReg x).getLsbD (2 * k.val)) ((s.readReg x).getLsbD (2 * k.val + 1))).val)
      ∧ (∀ k : Slot, ownField r k = false → t.owner r k = s.owner r k)
      ∧ (∀ q : OwnReg, q ≠ r → t.owners.get q = s.owners.get q)
      ∧ t.pc = s.nextBundle
      ∧ (∀ a : Nat, memRead t.mem a = memRead s.mem a)
      ∧ { t with owners := s.owners, pc := s.pc } = s

/-- For every operand whose touched fields the level may access and which overflows in none, WFXL through a write
alias gives each touched field in bits 31:0 the running level plus its write mask, leaves every other field alone, and
changes nothing else. The places of the fields are log 10. -/
def Obligations.WfxlFollowsTheTable : Prop :=
  ∀ (r : OwnReg) (x : Reg) (s : State), s.MayExecute .wfxl →
    (∀ k : Slot, ownField r k = true → k.val < 16 → wfxMasksAt (s.readReg x) (2 * k.val) ≠ (0, 0) →
      s.ps.pl ≤ s.owner r k ∧ s.ps.pl.val + (wfxMasksAt (s.readReg x) (2 * k.val)).1.val ≤ 3) →
    ∃ t, exec (.wfxl (.ownW r) x) s = .next t
      ∧ (∀ k : Slot, (t.owner r k).val =
          if ownField r k = true ∧ k.val < 16 ∧ wfxMasksAt (s.readReg x) (2 * k.val) ≠ (0, 0) then
            s.ps.pl.val + (wfxMasksAt (s.readReg x) (2 * k.val)).1.val
          else (s.owner r k).val)
      ∧ (∀ q : OwnReg, q ≠ r → t.owners.get q = s.owners.get q)
      ∧ t.pc = s.nextBundle
      ∧ (∀ a : Nat, memRead t.mem a = memRead s.mem a)
      ∧ { t with owners := s.owners, pc := s.pc } = s

/-- The same for WFXM and the fields in bits 63:32. That such an instruction exists and reaches those bits is the
spec's decision D6 (log 38); the places of the fields are log 10. -/
def Obligations.WfxmFollowsTheTable : Prop :=
  ∀ (r : OwnReg) (x : Reg) (s : State), s.MayExecute .wfxm →
    (∀ k : Slot, ownField r k = true → 16 ≤ k.val → wfxMasksAt (s.readReg x) (2 * k.val - 32) ≠ (0, 0) →
      s.ps.pl ≤ s.owner r k ∧ s.ps.pl.val + (wfxMasksAt (s.readReg x) (2 * k.val - 32)).1.val ≤ 3) →
    ∃ t, exec (.wfxm (.ownW r) x) s = .next t
      ∧ (∀ k : Slot, (t.owner r k).val =
          if ownField r k = true ∧ 16 ≤ k.val ∧ wfxMasksAt (s.readReg x) (2 * k.val - 32) ≠ (0, 0) then
            s.ps.pl.val + (wfxMasksAt (s.readReg x) (2 * k.val - 32)).1.val
          else (s.owner r k).val)
      ∧ (∀ q : OwnReg, q ≠ r → t.owners.get q = s.owners.get q)
      ∧ t.pc = s.nextBundle
      ∧ (∀ a : Nat, memRead t.mem a = memRead s.mem a)
      ∧ { t with owners := s.owners, pc := s.pc } = s

/-- At every level i below 3 that may access IT0 and IT4, WFXL of 0x0000000100000300 on ITOW gives IT0 to level i + 1
and IT4 to level i and leaves the other lines' owners alone. The layout of ITO is derived in R22 from this very
example. -/
def Obligations.WorkedExampleDelegatesInterrupts : Prop :=
  ∀ (x : Reg) (s : State), s.MayExecute .wfxl → s.readReg x = 0x0000000100000300#64 →
    s.ps.pl ≤ s.owner .ito 0 → s.ps.pl ≤ s.owner .ito 4 → s.ps.pl.val + 1 ≤ 3 →
    ∃ t, exec (.wfxl (.ownW .ito) x) s = .next t
      ∧ (t.owner .ito 0).val = s.ps.pl.val + 1 ∧ t.owner .ito 4 = s.ps.pl
      ∧ ∀ k : Slot, k ≠ 0 → k ≠ 4 → t.owner .ito k = s.owner .ito k

/-- SET, WFXL and WFXM on an ownership alias or on PS, and RSWAP on PS, that the level may make but of which one
offset leads past PL3, take the PL Overflow trap to the level HTO gives and write nothing (R84; that no other field is
written either is decision D18). Field k of an ownership register is at bits 2k+1 and 2k, DEDUCED for SYO, HTO, DO, MO
and PSO (log 10). Where the open table does not let RSWAP access PS, it traps OPCODE instead (U19, log 15). -/
def Obligations.RelativeWriteOverflowTraps : Prop :=
  (∀ (i : Instr) (m : Masks) (offsetAt : Nat → Level) (sfr : Sfr) (x : Reg) (s : State),
      (i, m, offsetAt) ∈ [(Instr.set sfr x, Masks.whole (s.readReg x), setOffsetAt (s.readReg x)),
        (.wfxl sfr x, .low (s.readReg x), wfxlOffsetAt (s.readReg x)),
        (.wfxm sfr x, .high (s.readReg x), wfxmOffsetAt (s.readReg x))] →
      s.MayExecute i.op → s.MayWrite sfr m →
      ((sfr = .ps ∧ 3 < s.ps.pl.val + (offsetAt psLayout.plLo).val)
        ∨ ∃ r k, sfr = .ownW r ∧ ownField r k = true ∧ 3 < s.ps.pl.val + (offsetAt (2 * k.val)).val) →
      ∃ t, exec i s = .next t ∧ TrapEntered (s.owner .hto (htoSlot .plo)) s t)
    ∧ ∀ (x : Reg) (s : State), s.MayExecute .rswap → s.MayWrite .ps (Masks.whole (s.readReg x)) →
      3 < s.ps.pl.val + (setOffsetAt (s.readReg x) psLayout.plLo).val →
      ∃ t, exec (.rswap .ps x) s = .next t
        ∧ TrapEntered (s.owner .hto (htoSlot (if sfrAccess .rswap .ps then .plo else .opcode))) s t

/-- SET, WFXL, WFXM or RSWAP, of any SFR, that passes the OPCODE check and tries a field of a more privileged level
traps PRIVILEGE to the most privileged of the owners violated, whatever else the write would do, and writes nothing.
The choice among several owners of fields is the spec's decision D16, that the trap goes to the owner of the resource
D17; that the instruction's own owner counts among them is the MODEL'S choice (log 18). PCR has one owner, in a field
of MO (R28; which one is open, logs 12 and 17), and so has the field of an interrupt line in ILR and in the SFRs of
enables and levels (R71; its bits are open, log 13). -/
def Obligations.ForeignWriteTrapsPrivilege : Prop :=
  (∀ (s : State) (i : Instr) (kind : AccessKind) (sfr : Sfr) (m : Masks) (b : BitNo),
      s.sfrWrite i = some (kind, sfr, m) → AccessPasses kind sfr m → m.tries sfr b = true →
      s.ownerAt sfr b < s.ps.pl →
      ∃ o t, exec i s = .next t ∧ TrapEntered o s t ∧ t.ps.pl = o
        ∧ (∀ c : BitNo, m.tries sfr c = true → o ≤ s.ownerAt sfr c)
        ∧ (∀ k, instrSlot i.op = some k → o ≤ s.owner .mo k)
        ∧ ((∃ k, instrSlot i.op = some k ∧ s.owner .mo k = o)
          ∨ ∃ c : BitNo, m.tries sfr c = true ∧ s.ownerAt sfr c = o))
    ∧ ∀ (s : State), (∃ k, ownField .mo k = true ∧ ∀ b : BitNo, s.ownerAt .pcr b = s.owner .mo k)
      ∧ ∀ (l : LineFields) (sfr : Sfr) (k : Line) (b c : BitNo),
        (l, sfr) ∈ [(ilrFields, Sfr.ilr), (enableFields, .itEnable), (levelFields, .itLevel)] →
        (l.bits k).getLsbD b.val = true → (l.bits k).getLsbD c.val = true → s.ownerAt sfr b = s.ownerAt sfr c

/-- SET through a write alias traps PRIVILEGE when any one field of the register belongs to a more privileged level,
whatever value is written, to a level at least as privileged as that owner (R77, R79; decisions D15 and D16). That the
destination can be the owner of SET itself, when that is violated too, is the MODEL'S choice (log 18). -/
def Obligations.SetTriesEveryField : Prop :=
  ∀ (r : OwnReg) (x : Reg) (s : State) (k : Slot), ownField r k = true → s.owner r k < s.ps.pl →
    ∃ o t, exec (.set (.ownW r) x) s = .next t ∧ TrapEntered o s t ∧ o ≤ s.owner r k

/-- WFXL and WFXM on EA of any level, executed at any level, trap OPCODE to the level HTO gives: also where the
register belongs to a more privileged level (R145, vector W12). -/
def Obligations.OpcodeWinsOverPrivilege : Prop :=
  ∀ (j : Level) (x : Reg) (s : State), s.TrapsOpcode (.wfxl (.ea j) x) ∧ s.TrapsOpcode (.wfxm (.ea j) x)

/-- SET, WFXL and WFXM on the read name of an ownership register, GET on its write name and RSWAP on either trap
OPCODE at every level; so does every GET, IGET, SET, WFXL, WFXM and RSWAP of any SFR whose row the open table refuses,
and WFX* where the table refuses a field touched. For the ownership names the trap is the spec's decision D13, for the
open rows U19 (log 15). -/
def Obligations.WrongOwnershipAccessTrapsOpcode : Prop :=
  ∀ (x : Reg) (s : State),
    (∀ (r : OwnReg) (i : Instr),
        i ∈ [Instr.set (.own r) x, .wfxl (.own r) x, .wfxm (.own r) x, .get x (.ownW r), .rswap (.own r) x,
          .rswap (.ownW r) x] → s.TrapsOpcode i)
      ∧ (∀ sfr : Sfr, sfrAccess .get sfr = false → s.TrapsOpcode (.get x sfr))
      ∧ (∀ sfr : Sfr, s.readReg x = sfrIndex sfr → sfrAccess .iget sfr = false → s.TrapsOpcode (.iget x))
      ∧ ∀ (i : Instr) (kind : AccessKind) (sfr : Sfr) (m : Masks), s.sfrWrite i = some (kind, sfr, m) →
        ¬AccessPasses kind sfr m → s.TrapsOpcode i

/-- At a level that may access every PS field, with an offset that fits, SET on PS gives PL the running level plus the
operand's PL bits and every other field the operand's bits, and changes no other register but `pc`, which goes to the
next bundle. The places of the fields are open (log 8). -/
def Obligations.SetPsIsRelativeInItsLevel : Prop :=
  ∀ (x : Reg) (s : State), s.MayExecute .set → s.MayWrite .ps (Masks.whole (s.readReg x)) →
    s.ps.pl.val + (levelOfBits ((s.readReg x).getLsbD psLayout.plLo)
      ((s.readReg x).getLsbD (psLayout.plLo + 1))).val ≤ 3 →
    ∃ t, exec (.set .ps x) s = .next t
      ∧ t.ps.pl.val = s.ps.pl.val + (levelOfBits ((s.readReg x).getLsbD psLayout.plLo)
          ((s.readReg x).getLsbD (psLayout.plLo + 1))).val
      ∧ t.ps.ie = (s.readReg x).getLsbD psLayout.iePos
      ∧ t.ps.et = (s.readReg x).getLsbD psLayout.etPos
      ∧ (∀ n : Nat, n < psLayout.ilWidth → t.ps.il.getLsbD n = (s.readReg x).getLsbD (psLayout.ilLo + n))
      ∧ (∀ b : BitNo, psFieldAt b = some (.other b) → t.ps.other.getLsbD b.val = (s.readReg x).getLsbD b.val)
      ∧ t.pc = s.nextBundle
      ∧ (∀ a : Nat, memRead t.mem a = memRead s.mem a)
      ∧ { t with ps := s.ps, pc := s.pc } = s

/-- At a level that may access every field of a saved status, SET stores the operand's bits in every field, the
relative level as it is given, at every level and with no overflow check, and changes nothing else. Who may access a
field is the spec's decision D12. -/
def Obligations.SetSavedStatusStoresAsGiven : Prop :=
  ∀ (j : Level) (x : Reg) (s : State), s.MayExecute .set →
    s.MayWrite (.sps j) (Masks.whole (s.readReg x)) →
    ∃ t, exec (.set (.sps j) x) s = .next t
      ∧ (t.sps[j]).pl = levelOfBits ((s.readReg x).getLsbD psLayout.plLo)
          ((s.readReg x).getLsbD (psLayout.plLo + 1))
      ∧ (t.sps[j]).ie = (s.readReg x).getLsbD psLayout.iePos
      ∧ (t.sps[j]).et = (s.readReg x).getLsbD psLayout.etPos
      ∧ (∀ n : Nat, n < psLayout.ilWidth → (t.sps[j]).il.getLsbD n = (s.readReg x).getLsbD (psLayout.ilLo + n))
      ∧ (∀ b : BitNo, psFieldAt b = some (.other b) →
          (t.sps[j]).other.getLsbD b.val = (s.readReg x).getLsbD b.val)
      ∧ (∀ m : Level, m ≠ j → t.sps[m] = s.sps[m])
      ∧ t.pc = s.nextBundle
      ∧ (∀ a : Nat, memRead t.mem a = memRead s.mem a)
      ∧ { t with sps := s.sps, pc := s.pc } = s

/-- SET on the saved status of level j traps PRIVILEGE, to a level at least as privileged as the owner, when for some
PS field the more privileged of j and the field's owner in PSO is more privileged than the running level (R80; the
owner is the spec's decision D12, the trap's destination D16). That the destination can be the owner of SET itself,
when that is violated too, is the MODEL'S choice (log 18). -/
def Obligations.ForgedSavedStatusTraps : Prop :=
  ∀ (j : Level) (x : Reg) (s : State) (b : BitNo) (f : PsField), psFieldAt b = some f →
    min j (s.owner .pso (psoSlot f)) < s.ps.pl →
    ∃ o t, exec (.set (.sps j) x) s = .next t ∧ TrapEntered o s t
      ∧ o ≤ min j (s.owner .pso (psoSlot f))

/-- For every SFR: SET, WFXL, WFXM and RSWAP that pass the OPCODE and the ownership checks and do not overflow
complete with the effect of writeSfr on the SFR, RSWAP also with the value read in its register, and `pc` at the next
bundle. What writeSfr does to each SFR is said by RegularUpdateClearsThenSets and, for the ownership aliases, by
SetOwnersIsRelative, WfxlFollowsTheTable and WfxmFollowsTheTable. That RSWAP exchanges is GK15 (log 22); which SFRs it
accesses is open (log 15). -/
def Obligations.AcceptedWritesComplete : Prop :=
  ∀ (sfr : Sfr) (x : Reg) (s t : State),
    (sfrAccess .set sfr = true → s.MayExecute .set → s.MayWrite sfr (Masks.whole (s.readReg x)) →
        writeSfr sfr (Masks.whole (s.readReg x)) s = some t →
        exec (.set sfr x) s = .next { t with pc := s.nextBundle })
      ∧ (sfrAccess .wfx sfr = true → fieldsAccessible .wfx sfr (Masks.low (s.readReg x)) = true →
        s.MayExecute .wfxl → s.MayWrite sfr (Masks.low (s.readReg x)) →
        writeSfr sfr (Masks.low (s.readReg x)) s = some t →
        exec (.wfxl sfr x) s = .next { t with pc := s.nextBundle })
      ∧ (sfrAccess .wfx sfr = true → fieldsAccessible .wfx sfr (Masks.high (s.readReg x)) = true →
        s.MayExecute .wfxm → s.MayWrite sfr (Masks.high (s.readReg x)) →
        writeSfr sfr (Masks.high (s.readReg x)) s = some t →
        exec (.wfxm sfr x) s = .next { t with pc := s.nextBundle })
      ∧ (sfrAccess .rswap sfr = true → s.MayExecute .rswap → s.MayWrite sfr (Masks.whole (s.readReg x)) →
        writeSfr sfr (Masks.whole (s.readReg x)) s = some t →
        exec (.rswap sfr x) s
          = .next { t with gpr := s.gpr.set x.val (s.readSfr sfr), pc := s.nextBundle })

/-- For any set and clear masks, writeSfr updates each field bit by bit, cleared and then set: in PS every field but
PL, which becomes the running level plus the set mask's bits when touched, or overflows; in a saved status every
field, PL included; the three WU bits and the other bits of WS; SPC, EV, ES, EA and PCR; ILR, EV4 and the SFRs of the
interrupt enables and levels. A line whose field the masks leave alone stays registered, enabled and of its level as
before. Nothing else changes. Where the lines' fields lie, and what one means, is open (log 13). The order of the
masks is the spec's decision D14 (log 23), that PS.PL touched by the clear mask only takes the running level D32; that
SPC, EV, ES, EA and PCR are plain bits is log 12, their width log 6. -/
def Obligations.RegularUpdateClearsThenSets : Prop :=
  ∀ (m : Masks) (j : Level) (s : State),
    (let touched := m.set.getLsbD psLayout.plLo || m.clr.getLsbD psLayout.plLo || m.set.getLsbD (psLayout.plLo + 1)
        || m.clr.getLsbD (psLayout.plLo + 1)
      let sum := s.ps.pl.val + (setOffsetAt m.set psLayout.plLo).val
      if touched = true ∧ 3 < sum then writeSfr .ps m s = none
      else ∃ t, writeSfr .ps m s = some t ∧ t.ps.pl.val = (if touched then sum else s.ps.pl.val)
        ∧ FieldsUpdated m s.ps t.ps ∧ { t with ps := s.ps } = s)
      ∧ (∃ t, writeSfr (.sps j) m s = some t
        ∧ (t.sps[j]).pl = levelOfBits (regularUpdate m psLayout.plLo (levelBit (s.sps[j]).pl 0))
            (regularUpdate m (psLayout.plLo + 1) (levelBit (s.sps[j]).pl 1))
        ∧ FieldsUpdated m s.sps[j] t.sps[j]
        ∧ (∀ k : Level, k ≠ j → t.sps[k] = s.sps[k]) ∧ { t with sps := s.sps } = s)
      ∧ (∃ t, writeSfr .ws m s = some t
        ∧ t.ws.wu0 = regularUpdate m wsLayout.wu0Pos s.ws.wu0
        ∧ t.ws.wu1 = regularUpdate m wsLayout.wu1Pos s.ws.wu1
        ∧ t.ws.wu2 = regularUpdate m wsLayout.wu2Pos s.ws.wu2
        ∧ (∀ n : Nat, wsOtherMask.getLsbD n = true → t.ws.other.getLsbD n = regularUpdate m n (s.ws.other.getLsbD n))
        ∧ { t with ws := s.ws } = s)
      ∧ (∃ t, writeSfr (.spc j) m s = some t
        ∧ (∀ n : Nat, n < pcWidth → (t.spc[j]).getLsbD n = regularUpdate m n ((s.spc[j]).getLsbD n))
        ∧ (∀ k : Level, k ≠ j → t.spc[k] = s.spc[k]) ∧ { t with spc := s.spc } = s)
      ∧ (∃ t, writeSfr (.ev j) m s = some t
        ∧ (∀ n : Nat, n < pcWidth → (t.ev[j]).getLsbD n = regularUpdate m n ((s.ev[j]).getLsbD n))
        ∧ (∀ k : Level, k ≠ j → t.ev[k] = s.ev[k]) ∧ { t with ev := s.ev } = s)
      ∧ (∃ t, writeSfr (.ea j) m s = some t
        ∧ (∀ n : Nat, n < pcWidth → (t.ea[j]).getLsbD n = regularUpdate m n ((s.ea[j]).getLsbD n))
        ∧ (∀ k : Level, k ≠ j → t.ea[k] = s.ea[k]) ∧ { t with ea := s.ea } = s)
      ∧ (∃ t, writeSfr (.es j) m s = some t
        ∧ (∀ n : Nat, n < 64 → (t.es[j]).getLsbD n = regularUpdate m n ((s.es[j]).getLsbD n))
        ∧ (∀ k : Level, k ≠ j → t.es[k] = s.es[k]) ∧ { t with es := s.es } = s)
      ∧ (∃ t, writeSfr .pcr m s = some t
        ∧ (∀ n : Nat, n < 64 → t.pcr.getLsbD n = regularUpdate m n (s.pcr.getLsbD n)) ∧ { t with pcr := s.pcr } = s)
      ∧ (∃ t, writeSfr .ilr m s = some t
        ∧ (∀ n : Nat, n < 64 → t.ilr.getLsbD n = regularUpdate m n (s.ilr.getLsbD n))
        ∧ (∀ k : Line, m.LeavesAlone (ilrFields.bits k) → t.registered k = s.registered k)
        ∧ { t with ilr := s.ilr } = s)
      ∧ (∃ t, writeSfr .itEnable m s = some t
        ∧ (∀ n : Nat, n < 64 → t.itEnable.getLsbD n = regularUpdate m n (s.itEnable.getLsbD n))
        ∧ (∀ k : Line, m.LeavesAlone (enableFields.bits k) → t.itEnabled k = s.itEnabled k)
        ∧ { t with itEnable := s.itEnable } = s)
      ∧ (∃ t, writeSfr .itLevel m s = some t
        ∧ (∀ n : Nat, n < 64 → t.itLevel.getLsbD n = regularUpdate m n (s.itLevel.getLsbD n))
        ∧ (∀ k : Line, m.LeavesAlone (levelFields.bits k) → t.lineLevel k = s.lineLevel k)
        ∧ { t with itLevel := s.itLevel } = s)
      ∧ ∃ t, writeSfr .ev4 m s = some t
        ∧ (∀ n : Nat, n < 64 → t.ev4.image.getLsbD n = regularUpdate m n (s.ev4.image.getLsbD n))
        ∧ (t.ev4.image = s.ev4.image → t.ev4 = s.ev4) ∧ { t with ev4 := s.ev4 } = s

/-- In every SFR and at every level the masks of an operand 0, of WFXL and of WFXM, violate no owner, overflow nowhere
and leave the state as it is (R78, decision D15). -/
def Obligations.ZeroMasksChangeNothing : Prop :=
  ∀ (sfr : Sfr) (s : State), s.violated sfr (Masks.low 0#64) = [] ∧ s.violated sfr (Masks.high 0#64) = []
    ∧ writeSfr sfr (Masks.low 0#64) s = some s ∧ writeSfr sfr (Masks.high 0#64) s = some s

/-- The write of SET and RSWAP, where it is allowed, replaces a saved PC, a vector base, a syndrome, an exception
address, PCR, ILR, what EV4 holds, or the SFR of the interrupt enables or levels by the value and changes nothing
else. That every bit of these registers is one that is written is the model's reading (logs 12 and 13); SPC, EV and EA
take the low PC_W bits of it, an open width (log 6). -/
def Obligations.WholeWriteReplacesTheRegister : Prop :=
  ∀ (j : Level) (v : Word) (s : State),
    writeSfr (.spc j) (Masks.whole v) s = some { s with spc := s.spc.set j.val (v.setWidth pcWidth) }
      ∧ writeSfr (.ev j) (Masks.whole v) s = some { s with ev := s.ev.set j.val (v.setWidth pcWidth) }
      ∧ writeSfr (.es j) (Masks.whole v) s = some { s with es := s.es.set j.val v }
      ∧ writeSfr (.ea j) (Masks.whole v) s = some { s with ea := s.ea.set j.val (v.setWidth pcWidth) }
      ∧ writeSfr .pcr (Masks.whole v) s = some { s with pcr := v }
      ∧ writeSfr .ilr (Masks.whole v) s = some { s with ilr := v }
      ∧ writeSfr .itEnable (Masks.whole v) s = some { s with itEnable := v }
      ∧ writeSfr .itLevel (Masks.whole v) s = some { s with itLevel := v }
      ∧ ∃ t, writeSfr .ev4 (Masks.whole v) s = some t ∧ t.ev4.image = v ∧ { t with ev4 := s.ev4 } = s

/-- At a level that may access every PS field, with an offset that fits, RSWAP on PS gives the register the absolute
level and IE of PS before it, and PS the running level plus the register's PL bits and the register's IE; no other
register changes but `pc`. The exchange is general knowledge (GK15, log 22), the two forms of the level decision D37.
Where the open table does not let RSWAP access PS, it traps OPCODE (U19, log 15). -/
def Obligations.RswapExchangesPs : Prop :=
  ∀ (x : Reg) (s : State), s.MayExecute .rswap → s.MayWrite .ps (Masks.whole (s.readReg x)) →
    s.ps.pl.val + (setOffsetAt (s.readReg x) psLayout.plLo).val ≤ 3 →
    if sfrAccess .rswap .ps then
      ∃ t, exec (.rswap .ps x) s = .next t
        ∧ levelOfBits ((t.readReg x).getLsbD psLayout.plLo) ((t.readReg x).getLsbD (psLayout.plLo + 1)) = s.ps.pl
        ∧ (t.readReg x).getLsbD psLayout.iePos = s.ps.ie
        ∧ t.ps.pl.val = s.ps.pl.val + (setOffsetAt (s.readReg x) psLayout.plLo).val
        ∧ t.ps.ie = (s.readReg x).getLsbD psLayout.iePos
        ∧ (∀ r, r ≠ x → t.readReg r = s.readReg r)
        ∧ t.pc = s.nextBundle
        ∧ (∀ a : Nat, memRead t.mem a = memRead s.mem a)
        ∧ { t with gpr := s.gpr, ps := s.ps, pc := s.pc } = s
    else s.TrapsOpcode (.rswap .ps x)

/-- TLB* runs no effect: where the open table refuses the member it traps OPCODE; where it allows it and the owner of
something the member writes, or of the instruction, is more privileged than the level, it traps PRIVILEGE to the most
privileged of these owners; and otherwise it is refused under its own name (R90, U12). What a member writes is open
(log 20); that the instruction's owner counts among those violated is the MODEL'S choice (log 18). -/
def Obligations.TlbChecksThenIsRefused : Prop :=
  ∀ (m : BitVec 8) (s : State),
    (Config.tlbAccess m = false ∧ s.TrapsOpcode (.tlb m))
      ∨ (Config.tlbAccess m = true ∧ (∀ k, TlbOwnedBy m k → s.ps.pl ≤ s.owner .mo k)
        ∧ exec (.tlb m) s = .refused (.tlbEffectNotGiven m))
      ∨ (Config.tlbAccess m = true ∧ ∃ n t, TlbOwnedBy m n ∧ s.owner .mo n < s.ps.pl
        ∧ (∀ k, TlbOwnedBy m k → s.owner .mo n ≤ s.owner .mo k)
        ∧ exec (.tlb m) s = .next t ∧ TrapEntered (s.owner .mo n) s t ∧ t.ps.pl = s.owner .mo n)

/-! Supporting instructions. -/

/-- NOP always completes; `pc` moves to the next bundle and no other state changes. -/
def Obligations.NopOnlyMovesPc : Prop := ∀ (s : State), exec .nop s = .next { s with pc := s.nextBundle }

/-- MAKE, at a level that may execute it, gives its register the 64-bit immediate, moves `pc` to the next bundle and
changes nothing else. -/
def Obligations.MakeLoadsTheImmediate : Prop :=
  ∀ (d : Reg) (imm : Word) (s : State), s.MayExecute .make →
    ∃ t, exec (.make d imm) s = .next t ∧ t.readReg d = imm ∧ (∀ r, r ≠ d → t.readReg r = s.readReg r)
      ∧ t.pc = s.nextBundle ∧ (∀ a : Nat, memRead t.mem a = memRead s.mem a)
      ∧ { t with gpr := s.gpr, pc := s.pc } = s

/-- A system call, at a level that may execute it, takes the whole exception entry to the more privileged of its SYO
owner and the running level, with the next bundle's address saved. Which field it selects is open (D35, log 19), the
FOE values are decision D7 (log 9). -/
def Obligations.SystemCallEntersItsOwner : Prop :=
  ∀ (n : BitVec 16) (s : State), s.MayExecute .scall →
    ∃ t, exec (.scall n) s = .next t
      ∧ Entered .syscall (s.owner .syo (syoSlot n)) s.nextBundle s t
          (min (s.owner .syo (syoSlot n)) s.ps.pl)

/-! Idle modes. -/

/-- At a level that may execute it, each idle instruction moves `pc` to the next bundle and enters its own mode when
its own WU bit is 0, does nothing more when the bit is 1, and changes nothing else: WS is not written. -/
def Obligations.IdleInstructionsEnterTheirModes : Prop :=
  ∀ (s : State),
    (s.MayExecute .await →
        exec .await s = .next { s with pc := s.nextBundle, idle := if s.ws.wu0 then s.idle else .inAwait })
      ∧ (s.MayExecute .sleep →
        exec .sleep s = .next { s with pc := s.nextBundle, idle := if s.ws.wu1 then s.idle else .inSleep })
      ∧ (s.MayExecute .stop →
        exec .stop s = .next { s with pc := s.nextBundle, idle := if s.ws.wu2 then s.idle else .inStop })

/-- An instruction after which a running core is idle is AWAIT with WU0 at 0, SLEEP with WU1 at 0 or STOP with WU2 at
0, and the mode is the instruction's. -/
def Obligations.OnlyIdleInstructionsStopTheCore : Prop :=
  ∀ (i : Instr) (s t : State), exec i s = .next t → s.idle = .running → t.idle ≠ .running →
    (i = .await ∧ t.idle = .inAwait ∧ s.ws.wu0 = false) ∨ (i = .sleep ∧ t.idle = .inSleep ∧ s.ws.wu1 = false)
      ∨ (i = .stop ∧ t.idle = .inStop ∧ s.ws.wu2 = false)

/-- A core in AWAIT or SLEEP mode whose bit is 1 wakes, whatever reset_on_wakeup is, and a stopped one wakes when its
bit is 1 and reset_on_wakeup is 0; every register keeps its value, and the model marks the wake from AWAIT and SLEEP,
and not that from STOP (DESIGN CHOICE, log 29). A core whose bit is 0 waits: its step changes nothing (U18, log 31).
That it wakes at its next step is decision D31. -/
def Obligations.IdleCoreWakesOrWaits : Prop :=
  ∀ (dec : Decoder) (s : State), s.script = [] →
    (s.idle = .inAwait → s.ws.wu0 = true → stepWith dec s = .next { s with idle := .running, woken := true })
      ∧ (s.idle = .inSleep → s.ws.wu1 = true → stepWith dec s = .next { s with idle := .running, woken := true })
      ∧ (s.idle = .inStop → s.ws.wu2 = true → s.resetOnWakeup = false →
          stepWith dec s = .next { s with idle := .running })
      ∧ (s.Waiting → stepWith dec s = .next s)

/-- A stopped core with WU2 and reset_on_wakeup at 1 steps to a state after a hardware reset: running at RESET_PC at
PL0, every resource owned by PL0. That the level is PL0 is the spec's decision D22 (log 36). -/
def Obligations.StopWakeResets : Prop :=
  ∀ (dec : Decoder) (s : State), s.script = [] → s.idle = .inStop → s.ws.wu2 = true → s.resetOnWakeup = true →
    ∃ t, stepWith dec s = .next t ∧ AfterReset t ∧ t.pc = Config.resetPc ∧ t.idle = .running ∧ t.ps.pl = 0
      ∧ ∀ (r : OwnReg) (k : Slot), t.owner r k = 0

/-- A rising edge on an existing line, whatever the core is doing, adds the line to those registered, in its own field
of ILR and in no other bit, sets WU0, sets WU1 when the line is eligible at that moment, and changes nothing else; a
line registered already leaves ILR as it is (U10). That a line has a field of its own in ILR is DEDUCED from R183 (log
13). Registering while running is decision D20, the moment of eligibility D21 (log 27). -/
def Obligations.RisingEdgeRegisters : Prop :=
  ∀ (dec : Decoder) (s : State) (k : Line) (rest : List Turn), s.script = .env (.interruptRise k) :: rest →
    lineExists k = true →
    ∃ t, stepWith dec s = .next t
      ∧ (∀ n : Line, t.registered n = (s.registered n || decide (n = k)))
      ∧ (∀ b : Nat, (ilrFields.bits k).getLsbD b = false → t.ilr.getLsbD b = s.ilr.getLsbD b)
      ∧ (s.registered k = true → t.ilr = s.ilr)
      ∧ t.ws = { s.ws with wu0 := true, wu1 := s.ws.wu1 || s.eligible k }
      ∧ { t with ilr := s.ilr, ws := s.ws, script := s.script } = s

/-- A PE2PE event is recorded in EV4, as the latest of those since EV4 last held a known word (log 13), and sets WU0;
a wake-up signal sets all three WU bits; setting reset_on_wakeup changes that bit; nothing else changes. That events
go to EV4 is decision D20 (log 27). -/
def Obligations.EventsAndWakeupSignals : Prop :=
  ∀ (dec : Decoder) (s : State) (e : Nat) (b : Bool) (rest : List Turn),
    stepWith dec { s with script := .env (.pe2peEvent e) :: rest }
        = .next { s with script := rest, ev4 := { s.ev4 with since := s.ev4.since ++ [e] }, ws := { s.ws with wu0 := true } }
      ∧ stepWith dec { s with script := .env .wakeupSignal :: rest }
        = .next { s with script := rest, ws := { s.ws with wu0 := true, wu1 := true, wu2 := true } }
      ∧ stepWith dec { s with script := .env (.setResetOnWakeup b) :: rest }
        = .next { s with script := rest, resetOnWakeup := b }

/-- For every decoder, turn and state: after a step a WU bit that was 1 is 1, unless the bundle at `pc` holds an SFR
write naming WS, or a stopped core woke into a state after a hardware reset (R107, R35). Through every move of the
environment it stays 1, and an instruction that is no SFR write naming WS leaves WS as it is. That hardware clears no
WU bit is the spec's decision D19 (log 27). -/
def Obligations.WakeupBitsAreNotLost : Prop :=
  (∀ (dec : Decoder) (s t : State), stepWith dec s = .next t →
      ((s.ws.wu0 = true → t.ws.wu0 = true) ∧ (s.ws.wu1 = true → t.ws.wu1 = true) ∧ (s.ws.wu2 = true → t.ws.wu2 = true))
        ∨ (∃ i, s.Fetches dec i ∧ i.WritesSfr .ws) ∨ (s.idle = .inStop ∧ AfterReset t))
    ∧ ∀ (m : EnvMove) (i : Instr) (s t : State),
      (s.ws.wu0 = true → (envMove m s).ws.wu0 = true) ∧ (s.ws.wu1 = true → (envMove m s).ws.wu1 = true)
        ∧ (s.ws.wu2 = true → (envMove m s).ws.wu2 = true)
        ∧ (exec i s = .next t → ¬ i.WritesSfr .ws → t.ws = s.ws)

/-! Interrupts. -/

/-- A line can be taken exactly when it exists, is registered in ILR, is individually enabled, has a level above
PS.IL, and PS.IE is 1; right after any exception entry none can. The definition of eligible is decision D21, that
entry clears IE decision D7 (logs 27 and 9). -/
def Obligations.PendingMeansRegisteredAndEligible : Prop :=
  (∀ (k : Line) (s : State), k ∈ s.pending ↔
      (lineExists k = true ∧ s.registered k = true ∧ s.itEnabled k = true
        ∧ s.ps.il.toNat < s.lineLevel k ∧ s.ps.ie = true))
    ∧ ∀ (cat : Category) (o : Level) (cause : Cause) (savedPc : Pc) (s : State),
      (takeException cat o cause savedPc s).pending = []

/-- A running core with an eligible interrupt takes the entry of one of them, to the level its line's owner gives and
with the next bundle as return address, or executes the next bundle first; a core just woken from AWAIT or SLEEP takes
one. The order is open in the spec (D26, log 29). -/
def Obligations.EligibleInterruptIsTaken : Prop :=
  ∀ (dec : Decoder) (s : State), s.script = [] → s.idle = .running → s.pending ≠ [] →
    (∃ k t, k ∈ s.pending ∧ stepWith dec s = .next t
        ∧ Entered .interrupt (s.owner .ito k) s.pc s t (min (s.owner .ito k) s.ps.pl))
      ∨ (s.woken = false ∧ stepWith dec s = runBundle dec { s with draws := s.draws + 1 })

/-! Whole-machine rules. -/

/-- For every decoder, every turn and every state, reachable or not: a step from a state in which memory is canonical,
no PS, saved PS or WS has a bit outside its fields, absent owner fields hold PL0 and a core just woken runs gives such
a state. The invariant is the model's own. -/
def Obligations.StepKeepsTheStateOk : Prop :=
  ∀ (dec : Decoder) (s t : State), s.Ok → stepWith dec s = .next t → t.Ok

/-- The state right after reset has the invariant of StepKeepsTheStateOk, and so has the state after a hardware reset
with any draw of a machine whose memory is canonical. The zeros of the reset state are the model's (DESIGN CHOICE, log
2). -/
def Obligations.ResetStateIsOk : Prop :=
  State.reset.Ok ∧ ∀ (d : ResetDraw) (s : State), memWf s.mem = true → (State.resetFrom d s).Ok

/-- The reset state, and the state after any hardware reset whatever the draw, runs at RESET_PC at PL0 with every
field of the six ownership registers at PL0. That the level is PL0 is the spec's decision D22 (log 36). -/
def Obligations.ResetGivesEverythingToPl0 : Prop :=
  ∀ (s : State), s = State.reset ∨ AfterReset s →
    s.pc = Config.resetPc ∧ s.idle = .running ∧ s.ps.pl = 0 ∧ ∀ (r : OwnReg) (k : Slot), s.owner r k = 0

/-- For every decoder, every turn and every state: a step after which the level is more privileged is an exception
entry from a state that agrees with the one before but for the script, the draws, NextBundle, the mark of a wake and
general registers that instructions of the bundle at `pc` write; or it is the wake of a stopped core into a state
after a hardware reset (R13's derivation, R154, R107). -/
def Obligations.PrivilegeRisesOnlyByEntry : Prop :=
  ∀ (dec : Decoder) (s t : State), stepWith dec s = .next t → t.ps.pl < s.ps.pl →
    (∃ cat o cause savedPc u, t = takeException cat o cause savedPc u
        ∧ { u with gpr := s.gpr, nextBundle := s.nextBundle, woken := s.woken, script := s.script, draws := s.draws } = s
        ∧ ∀ r, u.readReg r ≠ s.readReg r → ∃ i, s.Fetches dec i ∧ i.writes = some r)
      ∨ (s.idle = .inStop ∧ AfterReset t)

/-- For every decoder, turn and state: an owner field that a step changes was held by a level the executing one may
act for, and goes to the executing level or to a less privileged one, in all six ownership registers (R93, R71); or
the step is the wake of a stopped core into a state after a hardware reset (R107). -/
def Obligations.OwnershipMovesOnlyDown : Prop :=
  ∀ (dec : Decoder) (s t : State) (r : OwnReg) (k : Slot), stepWith dec s = .next t → t.owner r k ≠ s.owner r k →
    (s.ps.pl ≤ s.owner r k ∧ s.ps.pl ≤ t.owner r k) ∨ (s.idle = .inStop ∧ AfterReset t)

/-- For every decoder, turn and state: a step leaves SPS, SPC, EV, ES and EA of every more privileged level as they
are, or is a whole exception entry to that level from a state with the same PS and per-level registers, or is the wake
of a stopped core into a state after a hardware reset (R35). That the registers belong to their level is the spec's
decision D11. -/
def Obligations.SavedContextIsProtected : Prop :=
  ∀ (dec : Decoder) (s t : State) (j : Level), stepWith dec s = .next t → j < s.ps.pl →
    (t.sps[j] = s.sps[j] ∧ t.spc[j] = s.spc[j] ∧ t.ev[j] = s.ev[j] ∧ t.es[j] = s.es[j] ∧ t.ea[j] = s.ea[j])
      ∨ (∃ cat o savedPc u, Entered cat o savedPc u t j
        ∧ u.ps = s.ps ∧ u.sps = s.sps ∧ u.spc = s.spc ∧ u.ev = s.ev ∧ u.es = s.es ∧ u.ea = s.ea)
      ∨ (s.idle = .inStop ∧ AfterReset t)

/-- Whatever an instruction does, traps included, every byte of memory, reset_on_wakeup and the coming turns are as
before, and so is every general register but the one the instruction names as its destination (R41's derivation). -/
def Obligations.InstructionFrame : Prop :=
  ∀ (i : Instr) (s t : State), exec i s = .next t →
    (∀ a : Nat, memRead t.mem a = memRead s.mem a) ∧ t.resetOnWakeup = s.resetOnWakeup ∧ t.script = s.script
      ∧ ∀ r : Reg, i.writes ≠ some r → t.readReg r = s.readReg r

/-- PCR, ILR, EV4, the interrupt enables and levels, each vector base and each ownership register are as before after
every instruction that is no SFR write naming the register, RFE and every exception entry among them. -/
def Obligations.SpecialRegisterFrame : Prop :=
  ∀ (i : Instr) (s t : State), exec i s = .next t →
    (¬ i.WritesSfr .pcr → t.pcr = s.pcr) ∧ (¬ i.WritesSfr .ilr → t.ilr = s.ilr) ∧ (¬ i.WritesSfr .ev4 → t.ev4 = s.ev4)
      ∧ (¬ i.WritesSfr .itEnable → t.itEnable = s.itEnable) ∧ (¬ i.WritesSfr .itLevel → t.itLevel = s.itLevel)
      ∧ (∀ j : Level, ¬ i.WritesSfr (.ev j) → t.ev[j] = s.ev[j])
      ∧ (∀ r : OwnReg, ¬ i.WritesSfr (.ownW r) → t.owners.get r = s.owners.get r)
end

