-- ==== Sys2Proof/Laws/Layout.lean ====
section
/-! SUPPORT. The constraints on the open layouts, and the bits of the masks built from them. -/

namespace Sys2Proof

/-- The PS layout in use meets its constraint. -/
theorem psLayout_ok : psLayout.ok = true := by
  unfold psLayout
  split
  · assumption
  · decide

/-- The WS layout in use meets its constraint. -/
theorem wsLayout_ok : wsLayout.ok = true := by
  unfold wsLayout
  split
  · assumption
  · decide

/-- What the PS layout's constraint says, as inequalities. -/
theorem psLayout_facts :
    (psLayout.plLo + 2 ≤ 32 ∨ 32 ≤ psLayout.plLo ∧ psLayout.plLo + 2 ≤ 64) ∧ psLayout.iePos < 64
      ∧ psLayout.etPos < 64 ∧ 0 < psLayout.ilWidth ∧ psLayout.ilLo + psLayout.ilWidth ≤ 64
      ∧ psLayout.cachePos < 64 ∧ psLayout.modePos < 64
      ∧ psLayout.segments.Pairwise SegmentsApart := by
  have h := psLayout_ok
  simp only [PsLayout.ok, PsLayout.segments, segmentFits, List.all_cons, List.all_nil, Bool.and_eq_true,
    Bool.or_eq_true, decide_eq_true_eq] at h
  obtain ⟨⟨h1, h2, h3, h4, h5, h6, -⟩, h7⟩ := h
  refine ⟨?_, ?_, ?_, ?_, ?_, ?_, ?_, of_decide_eq_true h7⟩ <;> omega

/-- The PS fields with places of their own share no bit. -/
theorem psLayout_apart :
    (psLayout.plLo + 2 ≤ psLayout.iePos ∨ psLayout.iePos < psLayout.plLo)
      ∧ (psLayout.plLo + 2 ≤ psLayout.etPos ∨ psLayout.etPos < psLayout.plLo)
      ∧ (psLayout.plLo + 2 ≤ psLayout.ilLo ∨ psLayout.ilLo + psLayout.ilWidth ≤ psLayout.plLo)
      ∧ (psLayout.plLo + 2 ≤ psLayout.cachePos ∨ psLayout.cachePos < psLayout.plLo)
      ∧ (psLayout.plLo + 2 ≤ psLayout.modePos ∨ psLayout.modePos < psLayout.plLo)
      ∧ psLayout.iePos ≠ psLayout.etPos
      ∧ (psLayout.iePos < psLayout.ilLo ∨ psLayout.ilLo + psLayout.ilWidth ≤ psLayout.iePos)
      ∧ psLayout.iePos ≠ psLayout.cachePos ∧ psLayout.iePos ≠ psLayout.modePos
      ∧ (psLayout.etPos < psLayout.ilLo ∨ psLayout.ilLo + psLayout.ilWidth ≤ psLayout.etPos)
      ∧ psLayout.etPos ≠ psLayout.cachePos ∧ psLayout.etPos ≠ psLayout.modePos
      ∧ (psLayout.cachePos < psLayout.ilLo ∨ psLayout.ilLo + psLayout.ilWidth ≤ psLayout.cachePos)
      ∧ (psLayout.modePos < psLayout.ilLo ∨ psLayout.ilLo + psLayout.ilWidth ≤ psLayout.modePos)
      ∧ psLayout.cachePos ≠ psLayout.modePos := by
  have h := psLayout_facts.2.2.2.2.2.2.2
  simp only [PsLayout.segments, List.pairwise_cons, List.mem_cons, List.not_mem_nil, or_false, forall_eq_or_imp,
    forall_eq, SegmentsApart] at h
  obtain ⟨⟨a1, a2, a3, a4, a5⟩, ⟨b1, b2, b3, b4⟩, ⟨c1, c2, c3⟩, ⟨d1, d2⟩, e1, -⟩ := h
  refine ⟨?_, ?_, ?_, ?_, ?_, ?_, ?_, ?_, ?_, ?_, ?_, ?_, ?_, ?_, ?_⟩ <;> omega

/-- A bit of PL. -/
theorem psFieldAt_pl (b : BitNo) (h : b.val = psLayout.plLo ∨ b.val = psLayout.plLo + 1) : psFieldAt b = some .pl := by
  simp only [psFieldAt, if_pos h]

/-- The bit of IE. -/
theorem psFieldAt_ie (b : BitNo) (h : b.val = psLayout.iePos) : psFieldAt b = some .ie := by
  have := psLayout_apart
  simp only [psFieldAt]
  rw [if_neg (by omega), if_pos h]

/-- The bit of ET. -/
theorem psFieldAt_et (b : BitNo) (h : b.val = psLayout.etPos) : psFieldAt b = some .et := by
  have := psLayout_apart
  simp only [psFieldAt]
  rw [if_neg (by omega), if_neg (by omega), if_pos h]

/-- A bit of IL. -/
theorem psFieldAt_il (b : BitNo) (h : psLayout.ilLo ≤ b.val ∧ b.val < psLayout.ilLo + psLayout.ilWidth) :
    psFieldAt b = some .il := by
  have := psLayout_apart
  simp only [psFieldAt]
  rw [if_neg (by omega), if_neg (by omega), if_neg (by omega), if_pos h]

/-- An unnamed field found at a bit is that bit's own. -/
theorem psFieldAt_other (b c : BitNo) (h : psFieldAt b = some (.other c)) : c = b := by
  unfold psFieldAt at h
  split at h; · simp at h
  split at h; · simp at h
  split at h; · simp at h
  split at h; · simp at h
  split at h
  · simpa using h.symm
  · simp at h

/-- Which bits the mask of the unnamed PS fields holds. -/
theorem getLsbD_psOtherMask (b : BitNo) : psOtherMask.getLsbD b.val = decide (psFieldAt b = some (.other b)) := by
  simp [psOtherMask]

/-- Which bits the mask of IL holds. -/
theorem getLsbD_ilMask (n : Nat) : ilMask.getLsbD n = (decide (n < 64) && decide (n < psLayout.ilWidth)) := by
  by_cases h : n < 64 <;> simp [ilMask, BitVec.getLsbD_ofFnLE, h]

/-- The further members of FOE0 are bits of unnamed fields. -/
theorem foe0Mask_within : foe0Mask &&& psOtherMask = foe0Mask := by
  apply BitVec.eq_of_getLsbD_eq
  intro n hn
  have h := getLsbD_psOtherMask ⟨n, hn⟩
  simp only at h
  simp only [BitVec.getLsbD_and, h, foe0Mask, BitVec.getLsbD_ofFnLE, hn, dite_true, mayBeFoe]
  cases decide (psFieldAt ⟨n, hn⟩ = some (.other ⟨n, hn⟩)) <;> simp

/-- The further members of FOE1 are bits of unnamed fields. -/
theorem foe1Mask_within : foe1Mask &&& psOtherMask = foe1Mask := by
  apply BitVec.eq_of_getLsbD_eq
  intro n hn
  have h := getLsbD_psOtherMask ⟨n, hn⟩
  simp only at h
  simp only [BitVec.getLsbD_and, h, foe1Mask, BitVec.getLsbD_ofFnLE, hn, dite_true, mayBeFoe]
  cases decide (psFieldAt ⟨n, hn⟩ = some (.other ⟨n, hn⟩)) <;> simp

/-- No bit is in both FOE0 and FOE1. -/
theorem foe_disjoint (n : Nat) : (foe0Mask.getLsbD n && foe1Mask.getLsbD n) = false := by
  by_cases hn : n < 64
  · simp only [foe0Mask, foe1Mask, BitVec.getLsbD_ofFnLE, hn, dite_true]
    cases mayBeFoe ⟨n, hn⟩ <;> cases Config.foe0Raw.getLsbD n <;> simp
  · simp [BitVec.getLsbD_of_ge _ _ (Nat.le_of_not_lt hn)]

/-- The two bits of a level make the level. -/
@[simp] theorem levelOfBits_levelBit (l : Level) : levelOfBits (levelBit l 0) (levelBit l 1) = l := by
  revert l
  decide

/-- The lower bit of a level made of two bits. -/
@[simp] theorem levelBit_levelOfBits_zero (b0 b1 : Bool) : levelBit (levelOfBits b0 b1) 0 = b0 := by
  cases b0 <;> cases b1 <;> decide

/-- The upper bit of a level made of two bits. -/
@[simp] theorem levelBit_levelOfBits_one (b0 b1 : Bool) : levelBit (levelOfBits b0 b1) 1 = b1 := by
  cases b0 <;> cases b1 <;> decide

/-- A level is 0 exactly when both its bits are. -/
theorem levelOfBits_eq_zero (b0 b1 : Bool) : levelOfBits b0 b1 = 0 ↔ b0 = false ∧ b1 = false := by
  cases b0 <;> cases b1 <;> decide

/-- Every SFR is in the list of SFRs. -/
theorem mem_allSfrs (sfr : Sfr) : sfr ∈ allSfrs := by
  cases sfr with
  | sps j | spc j | ev j | es j | ea j => revert j; decide
  | own r | ownW r => cases r <;> decide
  | ps | pcr | ws | ilr | ev4 | itEnable | itLevel => decide

/-- Distinct SFRs have distinct ordinals. -/
theorem sfrOrdinal_nodup : (allSfrs.map sfrOrdinal).Nodup := by decide

/-- The ordinal of an SFR names it. -/
theorem sfrOfOrdinal_sfrOrdinal (sfr : Sfr) : sfrOfOrdinal (sfrOrdinal sfr) = some sfr := by
  cases sfr with
  | sps j | spc j | ev j | es j | ea j => revert j; decide
  | own r | ownW r => cases r <;> decide
  | ps | pcr | ws | ilr | ev4 | itEnable | itLevel => decide

/-- An ordinal that names an SFR is that SFR's. -/
theorem sfrOrdinal_of_sfrOfOrdinal (n : Nat) (sfr : Sfr) (h : sfrOfOrdinal n = some sfr) : sfrOrdinal sfr = n := by
  simpa using List.find?_some h

/-- Every ordinal fits the SFR byte. -/
theorem sfrOrdinal_lt (sfr : Sfr) : sfrOrdinal sfr < 256 := by
  cases sfr with
  | sps j | spc j | ev j | es j | ea j => revert j; decide
  | own r | ownW r => cases r <;> decide
  | ps | pcr | ws | ilr | ev4 | itEnable | itLevel => decide

/-- Distinct SFRs have distinct numbers. -/
theorem sfrIndex_nodup : (allSfrs.map sfrIndex).Nodup := by
  by_cases h : (allSfrs.map Config.sfrIndexRaw).Nodup
  · have e : sfrIndex = Config.sfrIndexRaw := funext fun f => if_pos h
    rw [e]
    exact h
  · have e : sfrIndex = fun f => BitVec.ofNat 64 (sfrOrdinal f) := funext fun f => if_neg h
    rw [e]
    decide

/-- The number of an SFR names it (R74). -/
theorem sfrOfIndex_sfrIndex (sfr : Sfr) : sfrOfIndex (sfrIndex sfr) = some sfr := by
  unfold sfrOfIndex
  cases h : allSfrs.find? (fun f => sfrIndex f == sfrIndex sfr) with
  | none =>
    have := List.find?_eq_none.1 h sfr (mem_allSfrs sfr)
    simp at this
  | some f =>
    have hf : sfrIndex f = sfrIndex sfr := by simpa using List.find?_some h
    have inj := List.inj_on_of_nodup_map sfrIndex_nodup (List.mem_of_find?_eq_some h) (mem_allSfrs sfr) hf
    rw [inj]

/-! The width of an address. -/

/-- `PC_W` is at least 2 and at most `SFR_W`. -/
theorem pcWidth_bounds : 2 ≤ pcWidth ∧ pcWidth ≤ 64 := by
  have := Config.pcWidthRaw.isLt
  unfold pcWidth
  omega

/-- There are at least four addresses. -/
theorem four_le_two_pow_pcWidth : 4 ≤ 2 ^ pcWidth :=
  le_trans (by decide) (Nat.pow_le_pow_right (by decide) pcWidth_bounds.1)

/-! Owner fields (R21). -/

/-- Every ownership register but ITO has its first field. -/
theorem ownField_firstSlot (r : OwnReg) (h : r ≠ .ito) : ownField r (Config.firstSlot r) = true := by
  cases r <;> simp_all [ownField]

/-- A field chosen as one that the register has is one. -/
theorem ownField_existingSlot (r : OwnReg) (k : Slot) (h : r ≠ .ito) : ownField r (existingSlot r k) = true := by
  unfold existingSlot
  split
  · assumption
  · exact ownField_firstSlot r h

/-- The owner of a system call is in a field of SYO (R131). -/
theorem ownField_syoSlot (n : BitVec 16) : ownField .syo (syoSlot n) = true := ownField_existingSlot _ _ (by decide)

/-- The owner of a hardware trap is in a field of HTO (R131). -/
theorem ownField_htoSlot (t : HtoTrap) : ownField .hto (htoSlot t) = true := ownField_existingSlot _ _ (by decide)

/-- The owner of a debug event is in a field of DO (R131). -/
theorem ownField_doSlot (d : BitVec 5) : ownField .dbo (doSlot d) = true := ownField_existingSlot _ _ (by decide)

/-- The owner of a PS field is in a field of PSO (R26). -/
theorem ownField_psoSlot (f : PsField) : ownField .pso (psoSlot f) = true := ownField_existingSlot _ _ (by decide)

/-- The owner of a bit of an SFR that MO owns is in a field of MO (R26). -/
theorem ownField_moSlot (sfr : Sfr) (b : BitNo) : ownField .mo (moSlot sfr b) = true :=
  ownField_existingSlot _ _ (by decide)

/-- The owner of an owned instruction is in a field of MO (R26, R91). -/
theorem ownField_instrSlot (op : Op) (k : Slot) (h : instrSlot op = some k) : ownField .mo k = true := by
  obtain ⟨n, -, rfl⟩ := Option.map_eq_some_iff.1 h
  exact ownField_existingSlot _ _ (by decide)

/-- The owners of what a TLB* member writes are in fields of MO (R90). -/
theorem ownField_tlbSlots (m : BitVec 8) (k : Slot) (h : k ∈ tlbSlots m) : ownField .mo k = true := by
  obtain ⟨n, -, rfl⟩ := List.mem_map.1 h
  exact ownField_existingSlot _ _ (by decide)

/-- The SFR that RSWAP may access is no ownership register (R72). -/
theorem rswapTarget_ne (r : OwnReg) : rswapTarget ≠ .own r ∧ rswapTarget ≠ .ownW r := by
  unfold rswapTarget
  split <;> simp_all

/-! How ES reports (R19, R141). -/

/-- The ES in use reports as it must. -/
theorem esLayout_ok : esLayout.ok = true := by
  unfold esLayout
  split
  · assumption
  · decide

/-- What the constraint on ES says: there is an *RPL field, each lies within the register, and the value made for a
category reports it and has 0 in every *RPL field. -/
theorem esLayout_facts :
    esLayout.rpl ≠ [] ∧ (∀ lo ∈ esLayout.rpl, lo + 2 ≤ 64)
      ∧ ∀ c : Category, esLayout.category (esLayout.witness c) = c ∧ ∀ lo ∈ esLayout.rpl, esRpl (esLayout.witness c) lo = 0 := by
  have h := esLayout_ok
  simp only [EsLayout.ok, allCategories, List.all_cons, List.all_nil, Bool.and_eq_true, Bool.not_eq_true',
    List.isEmpty_eq_false_iff, List.all_eq_true, decide_eq_true_eq, segmentFits, Bool.or_eq_true] at h
  obtain ⟨⟨⟨h1, h2⟩, -⟩, c1, c2, c3, c4, -⟩ := h
  refine ⟨h1, fun lo hlo => ?_, fun c => ?_⟩
  · have := (h2 lo hlo).2
    omega
  · cases c
    · exact c1
    · exact c2
    · exact c3
    · exact c4

/-! The SFRs that keep something of each line (R30, R32). -/

/-- The stand-in for the lines' fields meets both constraints. -/
theorem LineFields.standIn_ok : LineFields.standIn.ok = true ∧ LineFields.standIn.clears = true := by decide

/-- The lines' fields in use meet their constraints. -/
theorem lineFields_ok :
    ilrFields.ok = true ∧ ilrFields.clears = true ∧ enableFields.ok = true ∧ levelFields.ok = true := by
  have hi : ilrFields.ok = true ∧ ilrFields.clears = true := by
    unfold ilrFields
    split
    · next h => exact Bool.and_eq_true_iff.1 h
    · exact LineFields.standIn_ok
  refine ⟨hi.1, hi.2, ?_, ?_⟩
  · unfold enableFields
    split
    · assumption
    · exact LineFields.standIn_ok.1
  · unfold levelFields
    split
    · assumption
    · exact LineFields.standIn_ok.1

/-- What the constraint on the lines' fields says: two of them share no bit, and the field of an existing line means
another number than 0 in the value `raised`. -/
theorem LineFields.ok_facts (l : LineFields) (h : l.ok = true) :
    (∀ j k : Line, j ≠ k → l.bits j &&& l.bits k = 0#64) ∧ ∀ k, lineExists k = true → l.valueAt l.raised k ≠ 0 := by
  simp only [LineFields.ok, Bool.and_eq_true, decide_eq_true_eq, List.all_eq_true, Bool.or_eq_true,
    Bool.not_eq_true'] at h
  refine ⟨fun j k hjk => ?_, fun k hk => ?_⟩
  · rcases lt_or_gt_of_ne hjk with hlt | hlt
    · simpa using List.pairwise_iff_getElem.1 h.1 j.val k.val (by simp) (by simp) hlt
    · rw [BitVec.and_comm]
      simpa using List.pairwise_iff_getElem.1 h.1 k.val j.val (by simp) (by simp) hlt
  · exact (h.2 k (List.mem_finRange k)).2.resolve_right (by simp [hk])

/-- Where two values of the SFR agree on the field of a line, it means the same. -/
theorem LineFields.valueAt_congr (l : LineFields) (v w : Word) (k : Line) (h : v &&& l.bits k = w &&& l.bits k) :
    l.valueAt v k = l.valueAt w k := congrArg (l.value k) h

/-- Raising the field of a line gives it what it means in `raised`. -/
theorem LineFields.valueAt_raise_self (l : LineFields) (w : Word) (k : Line) :
    l.valueAt (l.raise w k) k = l.valueAt l.raised k := by
  refine l.valueAt_congr _ _ _ (BitVec.eq_of_getLsbD_eq fun n hn => ?_)
  simp only [LineFields.raise, BitVec.getLsbD_and, BitVec.getLsbD_or, BitVec.getLsbD_not, hn, decide_true, Bool.true_and]
  cases (l.bits k).getLsbD n <;> simp

/-- Raising the field of a line leaves every other line's as it was. -/
theorem LineFields.valueAt_raise_of_ne (l : LineFields) (h : l.ok = true) (w : Word) (j k : Line) (hjk : j ≠ k) :
    l.valueAt (l.raise w k) j = l.valueAt w j := by
  refine l.valueAt_congr _ _ _ (BitVec.eq_of_getLsbD_eq fun n hn => ?_)
  have := congrArg (·.getLsbD n) ((l.ok_facts h).1 j k hjk)
  simp only [BitVec.getLsbD_and, BitVec.getLsbD_zero] at this
  simp only [LineFields.raise, BitVec.getLsbD_and, BitVec.getLsbD_or, BitVec.getLsbD_not, hn, decide_true, Bool.true_and]
  revert this
  cases (l.bits k).getLsbD n <;> cases (l.bits j).getLsbD n <;> simp

/-- The bits of one line's field have one first bit. -/
theorem LineFields.firstBit_eq (l : LineFields) (h : l.ok = true) (k : Line) (b c : BitNo)
    (hb : (l.bits k).getLsbD b.val = true) (hc : (l.bits k).getLsbD c.val = true) : l.firstBit b = l.firstBit c := by
  have only : ∀ d : BitNo, (l.bits k).getLsbD d.val = true →
      (List.finRange 32).find? (fun j => (l.bits j).getLsbD d.val) = some k := by
    intro d hd
    cases hf : (List.finRange 32).find? (fun j => (l.bits j).getLsbD d.val) with
    | none => simpa [hd] using List.find?_eq_none.1 hf k (List.mem_finRange k)
    | some j =>
      by_contra hjk
      have hj : (l.bits j).getLsbD d.val = true := List.find?_some (p := fun j => (l.bits j).getLsbD d.val) hf
      have := congrArg (·.getLsbD d.val) ((l.ok_facts h).1 j k fun e => hjk (congrArg some e))
      simp only [BitVec.getLsbD_and, BitVec.getLsbD_zero, hj, hd, Bool.and_self, Bool.true_eq_false] at this
  have some_first : ∀ d : BitNo, (l.bits k).getLsbD d.val = true →
      ∃ e, (List.finRange 64).find? (fun e => (l.bits k).getLsbD e.val) = some e := by
    intro d hd
    rw [← Option.isSome_iff_exists, List.find?_isSome]
    exact ⟨d, List.mem_finRange d, hd⟩
  obtain ⟨e, he⟩ := some_first b hb
  simp only [LineFields.firstBit, only b hb, only c hc, he, Option.getD_some]

/-- A number that no SFR has names none. -/
theorem sfrOfIndex_eq_none (n : Word) (h : ∀ sfr : Sfr, sfrIndex sfr ≠ n) : sfrOfIndex n = none := by
  unfold sfrOfIndex
  rw [List.find?_eq_none]
  intro f _
  simpa using h f

end Sys2Proof
end

