-- ==== Sys2Proof/Laws/State.lean ====
section
/-! SUPPORT. What each field of the state is after each named update: one lemma per field per update, true by rfl. -/

namespace Sys2Proof.Machine

/-! `writeReg`. -/

section
variable (s : State) (r : Reg) (v : Word)

@[simp] theorem writeReg_gpr : (s.writeReg r v).gpr = s.gpr.set r.val v := rfl
@[simp] theorem writeReg_pc : (s.writeReg r v).pc = s.pc := rfl
@[simp] theorem writeReg_ps : (s.writeReg r v).ps = s.ps := rfl
@[simp] theorem writeReg_sps : (s.writeReg r v).sps = s.sps := rfl
@[simp] theorem writeReg_spc : (s.writeReg r v).spc = s.spc := rfl
@[simp] theorem writeReg_ev : (s.writeReg r v).ev = s.ev := rfl
@[simp] theorem writeReg_es : (s.writeReg r v).es = s.es := rfl
@[simp] theorem writeReg_ea : (s.writeReg r v).ea = s.ea := rfl
@[simp] theorem writeReg_owners : (s.writeReg r v).owners = s.owners := rfl
@[simp] theorem writeReg_pcr : (s.writeReg r v).pcr = s.pcr := rfl
@[simp] theorem writeReg_ws : (s.writeReg r v).ws = s.ws := rfl
@[simp] theorem writeReg_ilr : (s.writeReg r v).ilr = s.ilr := rfl
@[simp] theorem writeReg_ev4 : (s.writeReg r v).ev4 = s.ev4 := rfl
@[simp] theorem writeReg_itEnable : (s.writeReg r v).itEnable = s.itEnable := rfl
@[simp] theorem writeReg_itLevel : (s.writeReg r v).itLevel = s.itLevel := rfl
@[simp] theorem writeReg_idle : (s.writeReg r v).idle = s.idle := rfl
@[simp] theorem writeReg_resetOnWakeup : (s.writeReg r v).resetOnWakeup = s.resetOnWakeup := rfl
@[simp] theorem writeReg_mem : (s.writeReg r v).mem = s.mem := rfl
@[simp] theorem writeReg_nextBundle : (s.writeReg r v).nextBundle = s.nextBundle := rfl
@[simp] theorem writeReg_woken : (s.writeReg r v).woken = s.woken := rfl
@[simp] theorem writeReg_script : (s.writeReg r v).script = s.script := rfl
@[simp] theorem writeReg_draws : (s.writeReg r v).draws = s.draws := rfl

end

/-! `endBundle`. -/

section
variable (s : State)

@[simp] theorem endBundle_gpr : (s.endBundle).gpr = s.gpr := rfl
@[simp] theorem endBundle_pc : (s.endBundle).pc = s.nextBundle := rfl
@[simp] theorem endBundle_ps : (s.endBundle).ps = s.ps := rfl
@[simp] theorem endBundle_sps : (s.endBundle).sps = s.sps := rfl
@[simp] theorem endBundle_spc : (s.endBundle).spc = s.spc := rfl
@[simp] theorem endBundle_ev : (s.endBundle).ev = s.ev := rfl
@[simp] theorem endBundle_es : (s.endBundle).es = s.es := rfl
@[simp] theorem endBundle_ea : (s.endBundle).ea = s.ea := rfl
@[simp] theorem endBundle_owners : (s.endBundle).owners = s.owners := rfl
@[simp] theorem endBundle_pcr : (s.endBundle).pcr = s.pcr := rfl
@[simp] theorem endBundle_ws : (s.endBundle).ws = s.ws := rfl
@[simp] theorem endBundle_ilr : (s.endBundle).ilr = s.ilr := rfl
@[simp] theorem endBundle_ev4 : (s.endBundle).ev4 = s.ev4 := rfl
@[simp] theorem endBundle_itEnable : (s.endBundle).itEnable = s.itEnable := rfl
@[simp] theorem endBundle_itLevel : (s.endBundle).itLevel = s.itLevel := rfl
@[simp] theorem endBundle_idle : (s.endBundle).idle = s.idle := rfl
@[simp] theorem endBundle_resetOnWakeup : (s.endBundle).resetOnWakeup = s.resetOnWakeup := rfl
@[simp] theorem endBundle_mem : (s.endBundle).mem = s.mem := rfl
@[simp] theorem endBundle_nextBundle : (s.endBundle).nextBundle = s.nextBundle := rfl
@[simp] theorem endBundle_woken : (s.endBundle).woken = s.woken := rfl
@[simp] theorem endBundle_script : (s.endBundle).script = s.script := rfl
@[simp] theorem endBundle_draws : (s.endBundle).draws = s.draws := rfl

end

/-! `atBundle`. -/

section
variable (s : State) (n : Nat)

@[simp] theorem atBundle_gpr : (s.atBundle n).gpr = s.gpr := rfl
@[simp] theorem atBundle_pc : (s.atBundle n).pc = s.pc := rfl
@[simp] theorem atBundle_ps : (s.atBundle n).ps = s.ps := rfl
@[simp] theorem atBundle_sps : (s.atBundle n).sps = s.sps := rfl
@[simp] theorem atBundle_spc : (s.atBundle n).spc = s.spc := rfl
@[simp] theorem atBundle_ev : (s.atBundle n).ev = s.ev := rfl
@[simp] theorem atBundle_es : (s.atBundle n).es = s.es := rfl
@[simp] theorem atBundle_ea : (s.atBundle n).ea = s.ea := rfl
@[simp] theorem atBundle_owners : (s.atBundle n).owners = s.owners := rfl
@[simp] theorem atBundle_pcr : (s.atBundle n).pcr = s.pcr := rfl
@[simp] theorem atBundle_ws : (s.atBundle n).ws = s.ws := rfl
@[simp] theorem atBundle_ilr : (s.atBundle n).ilr = s.ilr := rfl
@[simp] theorem atBundle_ev4 : (s.atBundle n).ev4 = s.ev4 := rfl
@[simp] theorem atBundle_itEnable : (s.atBundle n).itEnable = s.itEnable := rfl
@[simp] theorem atBundle_itLevel : (s.atBundle n).itLevel = s.itLevel := rfl
@[simp] theorem atBundle_idle : (s.atBundle n).idle = s.idle := rfl
@[simp] theorem atBundle_resetOnWakeup : (s.atBundle n).resetOnWakeup = s.resetOnWakeup := rfl
@[simp] theorem atBundle_mem : (s.atBundle n).mem = s.mem := rfl
@[simp] theorem atBundle_nextBundle : (s.atBundle n).nextBundle = nextAddress s.pc n := rfl
@[simp] theorem atBundle_woken : (s.atBundle n).woken = false := rfl
@[simp] theorem atBundle_script : (s.atBundle n).script = s.script := rfl
@[simp] theorem atBundle_draws : (s.atBundle n).draws = s.draws := rfl

end

/-! `returnFromException`. -/

section
variable (s : State) (d : Level)

@[simp] theorem returnFromException_gpr : (returnFromException d s).gpr = s.gpr := rfl
@[simp] theorem returnFromException_pc : (returnFromException d s).pc = s.pc := rfl
@[simp] theorem returnFromException_ps : (returnFromException d s).ps = { s.sps[s.ps.pl] with pl := d } := rfl
@[simp] theorem returnFromException_sps :
    (returnFromException d s).sps =
      if d = s.ps.pl then s.sps else s.sps.set s.ps.pl.val (Ps.backUp s.sps[s.ps.pl] s.ps) := rfl
@[simp] theorem returnFromException_spc : (returnFromException d s).spc = s.spc := rfl
@[simp] theorem returnFromException_ev : (returnFromException d s).ev = s.ev := rfl
@[simp] theorem returnFromException_es : (returnFromException d s).es = s.es := rfl
@[simp] theorem returnFromException_ea : (returnFromException d s).ea = s.ea := rfl
@[simp] theorem returnFromException_owners : (returnFromException d s).owners = s.owners := rfl
@[simp] theorem returnFromException_pcr : (returnFromException d s).pcr = s.pcr := rfl
@[simp] theorem returnFromException_ws : (returnFromException d s).ws = s.ws := rfl
@[simp] theorem returnFromException_ilr : (returnFromException d s).ilr = s.ilr := rfl
@[simp] theorem returnFromException_ev4 : (returnFromException d s).ev4 = s.ev4 := rfl
@[simp] theorem returnFromException_itEnable : (returnFromException d s).itEnable = s.itEnable := rfl
@[simp] theorem returnFromException_itLevel : (returnFromException d s).itLevel = s.itLevel := rfl
@[simp] theorem returnFromException_idle : (returnFromException d s).idle = s.idle := rfl
@[simp] theorem returnFromException_resetOnWakeup : (returnFromException d s).resetOnWakeup = s.resetOnWakeup := rfl
@[simp] theorem returnFromException_mem : (returnFromException d s).mem = s.mem := rfl
@[simp] theorem returnFromException_nextBundle : (returnFromException d s).nextBundle = s.spc[s.ps.pl] := rfl
@[simp] theorem returnFromException_woken : (returnFromException d s).woken = s.woken := rfl
@[simp] theorem returnFromException_script : (returnFromException d s).script = s.script := rfl
@[simp] theorem returnFromException_draws : (returnFromException d s).draws = s.draws := rfl

end

/-! `takeException`. -/

section
variable (s : State) (c : Category) (o : Level) (w : Cause) (a : Pc)

@[simp] theorem takeException_gpr : (takeException c o w a s).gpr = s.gpr := rfl
@[simp] theorem takeException_pc : (takeException c o w a s).pc = handlerPc s.ev[destLevel o s.ps.pl] c := rfl
@[simp] theorem takeException_ps : (takeException c o w a s).ps = entryPs s (destLevel o s.ps.pl) := rfl
@[simp] theorem takeException_sps :
    (takeException c o w a s).sps =
      s.sps.set (destLevel o s.ps.pl).val { s.ps with pl := s.ps.pl - destLevel o s.ps.pl } := rfl
@[simp] theorem takeException_spc : (takeException c o w a s).spc = s.spc.set (destLevel o s.ps.pl).val a := rfl
@[simp] theorem takeException_ev : (takeException c o w a s).ev = s.ev := rfl
@[simp] theorem takeException_es :
    (takeException c o w a s).es =
      s.es.set (destLevel o s.ps.pl).val (esInfo s.draws c w s.ps.pl (destLevel o s.ps.pl) a) := rfl
@[simp] theorem takeException_ea :
    (takeException c o w a s).ea =
      s.ea.set (destLevel o s.ps.pl).val (Config.eaRaw s.draws c w s.ps.pl (destLevel o s.ps.pl) a) := rfl
@[simp] theorem takeException_owners : (takeException c o w a s).owners = s.owners := rfl
@[simp] theorem takeException_pcr : (takeException c o w a s).pcr = s.pcr := rfl
@[simp] theorem takeException_ws : (takeException c o w a s).ws = s.ws := rfl
@[simp] theorem takeException_ilr : (takeException c o w a s).ilr = s.ilr := rfl
@[simp] theorem takeException_ev4 : (takeException c o w a s).ev4 = s.ev4 := rfl
@[simp] theorem takeException_itEnable : (takeException c o w a s).itEnable = s.itEnable := rfl
@[simp] theorem takeException_itLevel : (takeException c o w a s).itLevel = s.itLevel := rfl
@[simp] theorem takeException_idle : (takeException c o w a s).idle = s.idle := rfl
@[simp] theorem takeException_resetOnWakeup : (takeException c o w a s).resetOnWakeup = s.resetOnWakeup := rfl
@[simp] theorem takeException_mem : (takeException c o w a s).mem = s.mem := rfl
@[simp] theorem takeException_nextBundle : (takeException c o w a s).nextBundle = s.nextBundle := rfl
@[simp] theorem takeException_woken : (takeException c o w a s).woken = false := rfl
@[simp] theorem takeException_script : (takeException c o w a s).script = s.script := rfl
@[simp] theorem takeException_draws : (takeException c o w a s).draws = s.draws + 1 := rfl

end

/-! `resetFrom`, the fields that a statement may name. -/

section
variable (d : ResetDraw) (s : State)

@[simp] theorem resetFrom_gpr : (State.resetFrom d s).gpr = Vector.ofFn fun r : Reg => d.gpr r.val := by
  simp only [State.resetFrom]
@[simp] theorem resetFrom_pc : (State.resetFrom d s).pc = Config.resetPc := by
  simp only [State.resetFrom]
@[simp] theorem resetFrom_ps : (State.resetFrom d s).ps = { Ps.ofDraw d 64 with pl := 0 } := by
  simp only [State.resetFrom]
@[simp] theorem resetFrom_sps : (State.resetFrom d s).sps =
    Vector.ofFn fun j : Fin 4 => Ps.ofDraw d (72 + 8 * j.val) := by
  simp only [State.resetFrom]
@[simp] theorem resetFrom_owners : (State.resetFrom d s).owners = Owners.reset := by
  simp only [State.resetFrom]
@[simp] theorem resetFrom_ws : (State.resetFrom d s).ws =
    { wu0 := (d.word 121).getLsbD 0, wu1 := (d.word 121).getLsbD 1, wu2 := (d.word 121).getLsbD 2,
      other := d.word 122 &&& wsOtherMask } := by
  simp only [State.resetFrom]
@[simp] theorem resetFrom_idle : (State.resetFrom d s).idle = .running := by
  simp only [State.resetFrom]
@[simp] theorem resetFrom_resetOnWakeup : (State.resetFrom d s).resetOnWakeup = s.resetOnWakeup := by
  simp only [State.resetFrom]
@[simp] theorem resetFrom_mem : (State.resetFrom d s).mem = s.mem := by
  simp only [State.resetFrom]
@[simp] theorem resetFrom_woken : (State.resetFrom d s).woken = false := by
  simp only [State.resetFrom]
@[simp] theorem resetFrom_script : (State.resetFrom d s).script = s.script := by
  simp only [State.resetFrom]
@[simp] theorem resetFrom_draws : (State.resetFrom d s).draws = s.draws + 1 := by
  simp only [State.resetFrom]

end

end Sys2Proof.Machine
end

