-- ==== Sys2Proof/Laws/Ops.lean ====
section
/-! SUPPORT. For each shared operation, what it can do: the lemmas that proofs cite instead of unfolding it. -/

namespace Sys2Proof.Machine

/-! Levels and owners. -/

/-- A relative level is read when the sum fits. -/
theorem addLevels_eq_some (i k d : Level) : addLevels i k = some d ↔ i.val + k.val = d.val := by
  revert i k d
  decide

/-- A relative level overflows when the sum exceeds 3. -/
theorem addLevels_eq_none (i k : Level) : addLevels i k = none ↔ 3 < i.val + k.val := by
  revert i k
  decide

/-- The destination is the more privileged of owner and running level (R133). -/
theorem destLevel_eq_min (o i : Level) : destLevel o i = min o i := by
  revert o i
  decide

/-- No owner is the worst exactly of no owners. -/
theorem worstOwner_eq_none (l : List Level) : worstOwner l = none ↔ l = [] := by
  cases l with
  | nil => simp [worstOwner]
  | cons o os => simp only [worstOwner]; split <;> simp

/-- The worst owner is one of them and none is more privileged. -/
theorem worstOwner_eq_some (l : List Level) (o : Level) (h : worstOwner l = some o) : o ∈ l ∧ ∀ p ∈ l, o ≤ p := by
  induction l generalizing o with
  | nil => simp [worstOwner] at h
  | cons p ps ih =>
    simp only [worstOwner] at h
    split at h
    · rename_i hn
      have : ps = [] := (worstOwner_eq_none ps).1 hn
      simp_all
    · rename_i q hq
      obtain ⟨hmem, hle⟩ := ih q hq
      simp only [Option.some.injEq] at h
      subst h
      rcases min_choice p q with hm | hm <;> rw [hm]
      · refine ⟨by simp, fun r hr => ?_⟩
        rcases List.mem_cons.1 hr with rfl | hr
        · exact le_refl _
        · exact (min_eq_left_iff.1 hm).trans (hle r hr)
      · refine ⟨by simp [hmem], fun r hr => ?_⟩
        rcases List.mem_cons.1 hr with rfl | hr
        · exact min_eq_right_iff.1 hm
        · exact hle r hr

/-- PL0 may execute every instruction. -/
theorem mayExecute_of_pl0 (s : State) (op : Op) (h : s.ps.pl = 0) : s.MayExecute op := by
  simp [State.MayExecute, State.instrOwners, h]

/-- An owner in the list of violations is more privileged than the running level. -/
theorem lt_of_mem_instrOwners (s : State) (op : Op) (o : Level) (h : o ∈ s.instrOwners op) : o < s.ps.pl := by
  unfold State.instrOwners at h
  split at h
  · simp at h
  · split at h
    · simp at h
    · simp only [List.mem_filter, decide_eq_true_eq] at h
      exact h.2

/-- What makes an owned instruction privileged: its owner field, where it holds a more privileged level (R91). -/
theorem instrOwners_eq (s : State) (op : Op) (k : Slot) (hk : instrSlot op = some k) :
    s.instrOwners op = if s.owner .mo k < s.ps.pl then [s.owner .mo k] else [] := by
  unfold State.instrOwners
  split
  · rename_i h
    rw [if_neg (by rw [h]; simp)]
  · rw [hk]
    by_cases h : s.owner .mo k < s.ps.pl <;> simp [h]

/-- An instruction that no field owns has no owner. -/
theorem instrOwners_of_unowned (s : State) (op : Op) (hk : instrSlot op = none) : s.instrOwners op = [] := by
  simp [State.instrOwners, hk]

/-- The violated owners of a write are those of the tried fields that the level may not access. -/
theorem mem_violated (s : State) (sfr : Sfr) (m : Masks) (o : Level) :
    o ∈ s.violated sfr m ↔ ∃ b, m.tries sfr b = true ∧ s.ownerAt sfr b = o ∧ o < s.ps.pl := by
  unfold State.violated
  split
  · rename_i h
    simp only [List.not_mem_nil, false_iff, not_exists, not_and]
    intro b _ _
    simp [h]
  · simp only [List.mem_map, List.mem_filter, List.mem_finRange, true_and, State.may, Bool.and_eq_true,
      Bool.not_eq_true', decide_eq_false_iff_not, not_le]
    constructor
    · rintro ⟨b, ⟨h1, h2⟩, rfl⟩
      exact ⟨b, h1, rfl, h2⟩
    · rintro ⟨b, h1, rfl, h2⟩
      exact ⟨b, ⟨h1, h2⟩, rfl⟩

/-- A write violates no owner exactly when the level may access every field tried. -/
theorem violated_eq_nil (s : State) (sfr : Sfr) (m : Masks) : s.violated sfr m = [] ↔ s.MayWrite sfr m := by
  rw [List.eq_nil_iff_forall_not_mem]
  constructor
  · intro h b hb
    by_contra hlt
    exact h _ ((mem_violated s sfr m _).2 ⟨b, hb, rfl, lt_of_not_ge hlt⟩)
  · rintro h o ho
    obtain ⟨b, hb, rfl, hlt⟩ := (mem_violated s sfr m o).1 ho
    exact absurd (h b hb) (not_le_of_gt hlt)

/-! Effects. -/

/-- A guarded effect is the PRIVILEGE trap or the effect. -/
theorem guardOwned_cases (op : Op) (s : State) (e : Effect) :
    (∃ o, o < s.ps.pl ∧ guardOwned op s e = .trap o .privilege) ∨ (s.MayExecute op ∧ guardOwned op s e = e) := by
  unfold guardOwned
  cases h : worstOwner (s.instrOwners op) with
  | none => exact .inr ⟨(worstOwner_eq_none _).1 h, rfl⟩
  | some o => exact .inl ⟨o, lt_of_mem_instrOwners s op o (worstOwner_eq_some _ o h).1, rfl⟩

/-- The level may execute the instruction: the guard passes. -/
theorem guardOwned_of_mayExecute (op : Op) (s : State) (e : Effect) (h : s.MayExecute op) : guardOwned op s e = e := by
  simp only [State.MayExecute] at h
  simp [guardOwned, h, worstOwner]

/-- RSWAP may access an SFR (R89). -/
theorem sfrAccess_rswapTarget : sfrAccess .rswap rswapTarget = true := by
  have h := rswapTarget_ne
  generalize ht : rswapTarget = sfr at h
  cases sfr with
  | own r => exact absurd rfl (h r).1
  | ownW r => exact absurd rfl (h r).2
  | _ => simp [sfrAccess, ht]

/-- The OPCODE check of an SFR write, field by field (R70, R72, R78). -/
theorem accessPasses_iff (kind : AccessKind) (sfr : Sfr) (m : Masks) :
    (sfrAccess kind sfr && fieldsAccessible kind sfr m) = true ↔ AccessPasses kind sfr m := by
  unfold AccessPasses
  cases kind <;> simp only [fieldsAccessible, Bool.and_true, Bool.and_eq_true, reduceCtorEq, false_implies, and_true,
    true_implies, List.all_eq_true, List.mem_finRange, Bool.or_eq_true, Bool.not_eq_true', ← Bool.not_eq_true,
    ← imp_iff_not_or]

/-- What an SFR write can do: OPCODE, PRIVILEGE, PL Overflow, or the write, in this order. -/
theorem writeEffect_cases (op : Op) (kind : AccessKind) (sfr : Sfr) (m : Masks) (f : State → State) (s : State) :
    ((sfrAccess kind sfr && fieldsAccessible kind sfr m) = false
        ∧ writeEffect op kind sfr m f s = .trap (s.trapOwner .opcode) .opcode)
      ∨ (∃ o, (sfrAccess kind sfr && fieldsAccessible kind sfr m) = true
        ∧ worstOwner (s.instrOwners op ++ s.violated sfr m) = some o
        ∧ writeEffect op kind sfr m f s = .trap o .privilege)
      ∨ ((sfrAccess kind sfr && fieldsAccessible kind sfr m) = true ∧ s.MayExecute op ∧ s.MayWrite sfr m
        ∧ writeSfr sfr m (f s) = none ∧ writeEffect op kind sfr m f s = .trap (s.trapOwner .plo) .plo)
      ∨ (∃ t, (sfrAccess kind sfr && fieldsAccessible kind sfr m) = true ∧ s.MayExecute op ∧ s.MayWrite sfr m
        ∧ writeSfr sfr m (f s) = some t ∧ writeEffect op kind sfr m f s = .complete t) := by
  unfold writeEffect
  cases hk : (sfrAccess kind sfr && fieldsAccessible kind sfr m) with
  | false => exact .inl ⟨rfl, rfl⟩
  | true =>
    right
    cases hw : worstOwner (s.instrOwners op ++ s.violated sfr m) with
    | some o => exact .inl ⟨o, rfl, rfl, rfl⟩
    | none =>
      right
      obtain ⟨h1, h2⟩ := List.append_eq_nil_iff.1 ((worstOwner_eq_none _).1 hw)
      have h2 := (violated_eq_nil s sfr m).1 h2
      cases ht : writeSfr sfr m (f s) with
      | none => exact .inl ⟨rfl, h1, h2, rfl, rfl⟩
      | some t => exact .inr ⟨t, rfl, h1, h2, rfl, rfl⟩

/-- A write that its checks let pass. -/
theorem writeEffect_of_allowed (op : Op) (kind : AccessKind) (sfr : Sfr) (m : Masks) (f : State → State) (s : State)
    (hk : sfrAccess kind sfr = true) (hf : fieldsAccessible kind sfr m = true) (ho : s.MayExecute op)
    (hw : s.MayWrite sfr m) :
    writeEffect op kind sfr m f s
      = (writeSfr sfr m (f s)).elim (.trap (s.trapOwner .plo) .plo) .complete := by
  simp only [State.MayExecute] at ho
  simp only [writeEffect, hk, hf, ho, (violated_eq_nil s sfr m).2 hw, List.append_nil, worstOwner]
  cases writeSfr sfr m (f s) <;> rfl

/-- What an SFR read can do: OPCODE, PRIVILEGE, or the read. -/
theorem readEffect_cases (op : Op) (kind : AccessKind) (sfr : Sfr) (d : Reg) (s : State) :
    (sfrAccess kind sfr = false ∧ readEffect op kind sfr d s = .trap (s.trapOwner .opcode) .opcode)
      ∨ (∃ o, o < s.ps.pl ∧ readEffect op kind sfr d s = .trap o .privilege)
      ∨ (sfrAccess kind sfr = true ∧ s.MayExecute op
        ∧ readEffect op kind sfr d s = .complete (s.writeReg d (s.readSfr sfr))) := by
  unfold readEffect
  cases hk : sfrAccess kind sfr with
  | false => exact .inl ⟨rfl, rfl⟩
  | true =>
    right
    rcases guardOwned_cases op s (.complete (s.writeReg d (s.readSfr sfr))) with ⟨o, ho, h⟩ | ⟨hm, h⟩
    · exact .inl ⟨o, ho, by simpa using h⟩
    · exact .inr ⟨rfl, hm, by simpa using h⟩

/-! Registers and reads. -/

/-- A read of the register written. -/
@[simp] theorem readReg_writeReg_self (s : State) (r : Reg) (v : Word) : (s.writeReg r v).readReg r = v := by
  simp [State.readReg, State.writeReg]

/-- A read of another register. -/
theorem readReg_writeReg_ne (s : State) (r q : Reg) (v : Word) (h : q ≠ r) :
    (s.writeReg r v).readReg q = s.readReg q := by
  have : r.val ≠ q.val := fun e => h (Fin.ext e.symm)
  simp [State.readReg, State.writeReg, Vector.getElem_set_ne, this]

/-- The bits of what a read gives. -/
theorem getLsbD_readSfr (s : State) (sfr : Sfr) (b : BitNo) :
    (s.readSfr sfr).getLsbD b.val = (s.readable sfr b && s.imageBit sfr b) := by
  simp [State.readSfr]

/-- Every register of the reads and puts of the ownership registers. -/
@[simp] theorem owners_get_put (o : Owners) (r q : OwnReg) (v : Vector Level 32) :
    (o.put r v).get q = if q = r then v else o.get q := by
  cases r <;> cases q <;> rfl

/-! The masks. -/

/-- The set mask of WFXL, bit by bit (R55). -/
theorem getLsbD_low_set (v : Word) (b : Nat) : (Masks.low v).set.getLsbD b = (decide (b < 32) && v.getLsbD (32 + b)) := by
  by_cases h : b < 32
  · have : b < 64 := by omega
    simp [Masks.low, h, this]
  · simp [Masks.low, h]

/-- The clear mask of WFXL, bit by bit (R55). -/
theorem getLsbD_low_clr (v : Word) (b : Nat) : (Masks.low v).clr.getLsbD b = (decide (b < 32) && v.getLsbD b) := by
  by_cases h : b < 32
  · have : b < 64 := by omega
    simp [Masks.low, h, this]
  · simp [Masks.low, h]

/-- The set mask of WFXM, bit by bit (R81). -/
theorem getLsbD_high_set (v : Word) (b : Nat) :
    (Masks.high v).set.getLsbD b = (decide (32 ≤ b) && decide (b < 64) && v.getLsbD b) := by
  by_cases h : b < 64
  · by_cases h2 : 32 ≤ b
    · have e : 32 + (b - 32) = b := by omega
      have h3 : b - 32 < 32 := by omega
      have h5 : ¬b < 32 := by omega
      simp [Masks.high, h, h2, h3, h5, e]
    · have h5 : b < 32 := by omega
      simp [Masks.high, h2, h5]
  · simp [Masks.high, h]

/-- The clear mask of WFXM, bit by bit (R81). -/
theorem getLsbD_high_clr (v : Word) (b : Nat) :
    (Masks.high v).clr.getLsbD b = (decide (32 ≤ b) && decide (b < 64) && v.getLsbD (b - 32)) := by
  by_cases h : b < 64
  · by_cases h2 : 32 ≤ b
    · have h3 : b - 32 < 32 := by omega
      have h4 : b - 32 < 64 := by omega
      have h5 : ¬b < 32 := by omega
      simp [Masks.high, h, h2, h3, h4, h5]
    · have h5 : b < 32 := by omega
      simp [Masks.high, h2, h5]
  · simp [Masks.high, h]

/-! Memory and exceptions. -/

/-- The handler addresses of one EV value differ by category (R140), as a list. -/
theorem handlerPc_nodup (ev : Pc) : (allCategories.map (handlerPc ev)).Nodup := by
  by_cases h : (allCategories.map (Config.handlerRaw ev)).Nodup
  · have e : handlerPc ev = Config.handlerRaw ev := funext fun c => if_pos h
    rw [e]
    exact h
  · have e : handlerPc ev = fun c => ev + BitVec.ofNat pcWidth (categoryCode c) := funext fun c => if_neg h
    have p := four_le_two_pow_pcWidth
    have ne : ∀ m n : Nat, m < 4 → n < 4 → m ≠ n → ¬BitVec.ofNat pcWidth m = BitVec.ofNat pcWidth n := by
      intro m n hm hn hne heq
      have := congrArg BitVec.toNat heq
      rw [BitVec.toNat_ofNat, BitVec.toNat_ofNat, Nat.mod_eq_of_lt (by omega), Nat.mod_eq_of_lt (by omega)] at this
      exact hne this
    rw [e]
    simp only [allCategories, List.map, categoryCode, List.nodup_cons, List.mem_cons,
      List.not_mem_nil, or_false, not_or, List.nodup_nil, and_true, not_false_eq_true]
    simp only [BitVec.add_right_inj]
    refine ⟨⟨?_, ?_, ?_⟩, ⟨?_, ?_⟩, ?_⟩ <;> exact ne _ _ (by decide) (by decide) (by decide)

/-- What entry writes to ES reports the category, and holds relative levels in its *RPL fields (R36, R141). -/
theorem esInfo_reports (n : Nat) (cat : Category) (cause : Cause) (i j : Level) (a : Pc) :
    esCategory (esInfo n cat cause i j a) = cat
      ∧ ∀ lo ∈ esLayout.rpl, j.val + (esRpl (esInfo n cat cause i j a) lo).val ≤ 3 := by
  unfold esInfo
  dsimp only
  split
  · rename_i h
    simp only [esLevelsFit, List.all_eq_true, decide_eq_true_eq] at h
    exact h
  · obtain ⟨h1, h2⟩ := esLayout_facts.2.2 cat
    refine ⟨h1, fun lo hlo => ?_⟩
    rw [h2 lo hlo]
    have := j.isLt
    simp
    omega

/-- The unnamed PS bits after the FOE bits are forced (R137). -/
theorem getLsbD_forceFoe_other (p : Ps) (b : Nat) :
    p.forceFoe.other.getLsbD b = ((p.other.getLsbD b && !foe0Mask.getLsbD b) || foe1Mask.getLsbD b) := by
  simp only [Ps.forceFoe, BitVec.getLsbD_or, BitVec.getLsbD_and, BitVec.getLsbD_not]
  by_cases h : b < 64
  · simp only [h, decide_true, Bool.true_and]
  · simp only [BitVec.getLsbD_of_ge _ _ (Nat.le_of_not_lt h), Bool.false_and]

/-- The unnamed PS bits after the remnant state is backed up (R61). -/
theorem getLsbD_backUp_other (saved running : Ps) (b : Nat) :
    (Ps.backUp saved running).other.getLsbD b
      = if foeMask.getLsbD b then saved.other.getLsbD b else running.other.getLsbD b := by
  simp only [Ps.backUp, BitVec.getLsbD_or, BitVec.getLsbD_and, BitVec.getLsbD_not]
  by_cases h : b < 64
  · cases foeMask.getLsbD b <;> simp only [h, decide_true, Bool.and_true, Bool.and_false, Bool.not_true, Bool.not_false,
      Bool.or_false, Bool.false_or, if_true, if_false, Bool.false_eq_true]
  · simp only [BitVec.getLsbD_of_ge _ _ (Nat.le_of_not_lt h), Bool.false_and, Bool.or_false, ite_self]

/-- A bit that is no FOE bit is in neither set. -/
theorem foeMask_false (b : Nat) : foeMask.getLsbD b = false ↔ foe0Mask.getLsbD b = false ∧ foe1Mask.getLsbD b = false := by
  simp only [foeMask, BitVec.getLsbD_or, Bool.or_eq_false_iff]

/-- The level after an entry. -/
@[simp] theorem entryPs_pl (s : State) (j : Level) : (entryPs s j).pl = j := rfl

/-- The unnamed PS bits after an entry: of the PS that the entry starts from, with the FOE bits forced (R135 to R137). -/
theorem getLsbD_entryPs_other (s : State) (j : Level) (b : Nat) :
    (entryPs s j).other.getLsbD b
      = (((if j = s.ps.pl then s.ps else s.sps[j]).other.getLsbD b && !foe0Mask.getLsbD b) || foe1Mask.getLsbD b) := by
  rw [← getLsbD_forceFoe_other]
  rfl

/-- A vector of one register per level, read at the level written. -/
@[simp] theorem level_set_self {α : Type} (v : Vector α 4) (j : Level) (x : α) : (v.set j.val x)[j] = x := by
  simp

/-- A vector of one register per level, read at another level. -/
theorem level_set_ne {α : Type} (v : Vector α 4) (j m : Level) (x : α) (h : m ≠ j) : (v.set j.val x)[m] = v[m] := by
  have : j.val ≠ m.val := fun e => h (Fin.ext e.symm)
  simp [Vector.getElem_set_ne, this]

/-! What a write of an SFR leaves alone. -/

/-- A write of an SFR, overflow apart, changes none of these fields. -/
structure WriteFrame (s t : State) : Prop where
  gpr : t.gpr = s.gpr
  pc : t.pc = s.pc
  idle : t.idle = s.idle
  resetOnWakeup : t.resetOnWakeup = s.resetOnWakeup
  mem : t.mem = s.mem
  nextBundle : t.nextBundle = s.nextBundle
  woken : t.woken = s.woken
  script : t.script = s.script
  draws : t.draws = s.draws

/-- The frame of the write of an SFR. -/
theorem writeSfr_frame (sfr : Sfr) (m : Masks) (s t : State) (h : writeSfr sfr m s = some t) : WriteFrame s t := by
  cases sfr <;> simp only [writeSfr, writePs] at h <;> (repeat' split at h) <;>
    first
    | (simp only [Option.some.injEq] at h; subst h; exact ⟨rfl, rfl, rfl, rfl, rfl, rfl, rfl, rfl, rfl⟩)
    | simp at h

/-- A write of an SFR changes no SFR but the one it names. -/
structure WriteTarget (sfr : Sfr) (s t : State) : Prop where
  ps : t.ps ≠ s.ps → sfr = .ps
  pcr : t.pcr ≠ s.pcr → sfr = .pcr
  ws : t.ws ≠ s.ws → sfr = .ws
  ilr : t.ilr ≠ s.ilr → sfr = .ilr
  ev4 : t.ev4 ≠ s.ev4 → sfr = .ev4
  itEnable : t.itEnable ≠ s.itEnable → sfr = .itEnable
  itLevel : t.itLevel ≠ s.itLevel → sfr = .itLevel
  sps : ∀ j : Level, t.sps[j] ≠ s.sps[j] → sfr = .sps j
  spc : ∀ j : Level, t.spc[j] ≠ s.spc[j] → sfr = .spc j
  ev : ∀ j : Level, t.ev[j] ≠ s.ev[j] → sfr = .ev j
  es : ∀ j : Level, t.es[j] ≠ s.es[j] → sfr = .es j
  ea : ∀ j : Level, t.ea[j] ≠ s.ea[j] → sfr = .ea j
  owners : ∀ r : OwnReg, t.owners.get r ≠ s.owners.get r → sfr = .ownW r

/-- A register of a level that differs after one of them is set is the one set. -/
theorem level_of_set_ne {α : Type} (v : Vector α 4) (j m : Level) (x : α) (h : (v.set j.val x)[m] ≠ v[m]) : j = m := by
  by_contra hne
  exact h (level_set_ne v j m x fun e => hne e.symm)

/-- The target of the write of an SFR. -/
theorem writeSfr_target (sfr : Sfr) (m : Masks) (s t : State) (h : writeSfr sfr m s = some t) : WriteTarget sfr s t := by
  cases sfr <;> simp only [writeSfr, writePs] at h <;> (repeat' split at h) <;>
    first
    | (simp only [Option.some.injEq] at h; subst h
       constructor <;>
         first
         | exact fun hne => absurd rfl hne
         | exact fun _ hne => absurd rfl hne
         | exact fun _ => rfl
         | exact fun _ hne => by rw [level_of_set_ne _ _ _ _ hne]
         | (intro r hne
            have := owners_get_put s.owners
            by_contra hq
            simp only [owners_get_put] at hne
            split at hne <;> simp_all))
    | simp at h

end Sys2Proof.Machine
end

