-- ==== Sys2Proof/Laws/Exec.lean ====
section
/-! SUPPORT. What an instruction can do, said once, so that the proofs of frames and invariants go by cases on it. -/

namespace Sys2Proof.Machine

/-- `t` is what instruction `i` makes of `s` when it completes, before its bundle ends. -/
inductive Completes (s : State) : Instr → State → Prop where
  /-- A register is written. -/
  | register (i : Instr) (d : Reg) (v : Word) (h : i.writes = some d) : Completes s i (s.writeReg d v)
  /-- RFE returns. -/
  | returns (d : Level) (h : addLevels s.ps.pl (s.sps[s.ps.pl]).pl = some d) : Completes s .rfe (returnFromException d s)
  /-- Nothing. -/
  | nothing (i : Instr) : Completes s i s
  /-- An idle mode is entered. -/
  | idle (i : Instr) (mode : Idle)
      (h : (i = .await ∧ mode = .inAwait ∧ s.ws.wu0 = false) ∨ (i = .sleep ∧ mode = .inSleep ∧ s.ws.wu1 = false)
        ∨ (i = .stop ∧ mode = .inStop ∧ s.ws.wu2 = false)) : Completes s i { s with idle := mode }
  /-- SET, WFXL or WFXM writes an SFR. -/
  | write (i : Instr) (sfr : Sfr) (m : Masks) (r : Reg) (u : State)
      (hi : i = .set sfr r ∨ i = .wfxl sfr r ∨ i = .wfxm sfr r) (hw : s.MayWrite sfr m)
      (hu : writeSfr sfr m s = some u) : Completes s i u
  /-- RSWAP exchanges an SFR and a register. -/
  | exchange (sfr : Sfr) (m : Masks) (r : Reg) (v : Word) (u : State) (hw : s.MayWrite sfr m)
      (hu : writeSfr sfr m s = some u) : Completes s (.rswap sfr r) (u.writeReg r v)

/-- `t` is what the bundle of instruction `i` makes of `s`. -/
inductive Does (s : State) : Instr → State → Prop where
  /-- It traps. -/
  | trap (i : Instr) (o : Level) (cause : Cause) : Does s i (takeTrap o cause s)
  /-- It is a system call. -/
  | syscall (o : Level) (n : BitVec 16) : Does s (.scall n) (takeSyscall o n s)
  /-- It completes. -/
  | completes (i : Instr) (u : State) (h : Completes s i u) : Does s i u.endBundle

/-- A register write and an SFR write do not disturb each other. -/
theorem writeSfr_writeReg (sfr : Sfr) (m : Masks) (s : State) (r : Reg) (v : Word) :
    writeSfr sfr m (s.writeReg r v) = (writeSfr sfr m s).map fun t => t.writeReg r v := by
  cases sfr <;> simp only [writeSfr, writePs] <;> (repeat' split) <;> simp_all <;> rfl

/-- An SFR write that completes has written. -/
theorem writeEffect_completes (op : Op) (kind : AccessKind) (sfr : Sfr) (m : Masks) (f : State → State) (s t : State)
    (h : writeEffect op kind sfr m f s = .complete t) : s.MayWrite sfr m ∧ writeSfr sfr m (f s) = some t := by
  rcases writeEffect_cases op kind sfr m f s with ⟨-, e⟩ | ⟨o, -, -, e⟩ | ⟨-, -, -, -, e⟩ | ⟨u, -, -, hw, hu, e⟩ <;>
    rw [e] at h <;> simp only [Effect.complete.injEq, reduceCtorEq] at h
  subst h
  exact ⟨hw, hu⟩

/-- An SFR write raises no system call. -/
theorem writeEffect_ne_syscall (op : Op) (kind : AccessKind) (sfr : Sfr) (m : Masks) (f : State → State) (s : State)
    (o : Level) (n : BitVec 16) : writeEffect op kind sfr m f s ≠ .syscall o n := by
  rcases writeEffect_cases op kind sfr m f s with ⟨-, e⟩ | ⟨o, -, -, e⟩ | ⟨-, -, -, -, e⟩ | ⟨u, -, -, hw, hu, e⟩ <;>
    rw [e] <;> simp

/-- An SFR read that completes has written its register. -/
theorem readEffect_completes (op : Op) (kind : AccessKind) (sfr : Sfr) (d : Reg) (s t : State)
    (h : readEffect op kind sfr d s = .complete t) : t = s.writeReg d (s.readSfr sfr) := by
  rcases readEffect_cases op kind sfr d s with ⟨-, e⟩ | ⟨o, -, e⟩ | ⟨-, -, e⟩ <;>
    rw [e] at h <;> simp only [Effect.complete.injEq, reduceCtorEq] at h
  exact h.symm

/-- An SFR read raises no system call. -/
theorem readEffect_ne_syscall (op : Op) (kind : AccessKind) (sfr : Sfr) (d : Reg) (s : State) (o : Level) (n : BitVec 16) :
    readEffect op kind sfr d s ≠ .syscall o n := by
  rcases readEffect_cases op kind sfr d s with ⟨-, e⟩ | ⟨o, -, e⟩ | ⟨-, -, e⟩ <;> rw [e] <;> simp

/-- A guarded effect that is no trap is the effect. -/
theorem guardOwned_eq (op : Op) (s : State) (e e' : Effect) (h : guardOwned op s e = e')
    (hne : ∀ o cause, e' ≠ .trap o cause) : e = e' := by
  rcases guardOwned_cases op s e with ⟨o, -, he⟩ | ⟨-, he⟩
  · exact absurd (h.symm.trans he) (hne _ _)
  · exact he.symm.trans h

/-- An idle instruction that completes enters its mode or does nothing. -/
theorem idleEffect_completes (op : Op) (i : Instr) (wu : Bool) (mode : Idle) (s t : State)
    (hi : (i = .await ∧ mode = .inAwait ∧ s.ws.wu0 = wu) ∨ (i = .sleep ∧ mode = .inSleep ∧ s.ws.wu1 = wu)
      ∨ (i = .stop ∧ mode = .inStop ∧ s.ws.wu2 = wu))
    (h : idleEffect op wu mode s = .complete t) : Completes s i t := by
  have h := guardOwned_eq _ _ _ _ h (by simp)
  simp only [Effect.complete.injEq] at h
  subst h
  cases wu
  · exact .idle i mode hi
  · exact .nothing i

/-- An instruction that completes does what `Completes` says. -/
theorem effectOf_completes (i : Instr) (s t : State) (h : effectOf i s = .complete t) : Completes s i t := by
  cases i with
  | rfe =>
    have h := guardOwned_eq _ _ _ _ h (by simp)
    split at h <;> simp only [Effect.complete.injEq, reduceCtorEq] at h
    subst h
    exact .returns _ ‹_›
  | get d sfr =>
    rw [readEffect_completes _ _ _ _ _ _ h]
    exact .register _ _ _ rfl
  | iget z =>
    simp only [effectOf, igetEffect] at h
    split at h
    · simp at h
    · rw [readEffect_completes _ _ _ _ _ _ h]
      exact .register _ _ _ rfl
  | set sfr r =>
    obtain ⟨hw, hu⟩ := writeEffect_completes _ _ _ _ _ _ _ h
    exact .write _ sfr _ r _ (.inl rfl) hw hu
  | wfxl sfr r =>
    obtain ⟨hw, hu⟩ := writeEffect_completes _ _ _ _ _ _ _ h
    exact .write _ sfr _ r _ (.inr (.inl rfl)) hw hu
  | wfxm sfr r =>
    obtain ⟨hw, hu⟩ := writeEffect_completes _ _ _ _ _ _ _ h
    exact .write _ sfr _ r _ (.inr (.inr rfl)) hw hu
  | rswap sfr r =>
    simp only [effectOf, rswapEffect] at h
    obtain ⟨hw, hu⟩ := writeEffect_completes _ _ _ _ _ _ _ h
    rw [writeSfr_writeReg, Option.map_eq_some_iff] at hu
    obtain ⟨u, hu, rfl⟩ := hu
    exact .exchange sfr _ r _ u hw hu
  | tlb m =>
    simp only [effectOf, tlbEffect] at h
    split at h
    · simp at h
    · split at h <;> simp at h
  | await => exact idleEffect_completes _ _ _ _ _ _ (.inl ⟨rfl, rfl, rfl⟩) h
  | sleep => exact idleEffect_completes _ _ _ _ _ _ (.inr (.inl ⟨rfl, rfl, rfl⟩)) h
  | stop => exact idleEffect_completes _ _ _ _ _ _ (.inr (.inr ⟨rfl, rfl, rfl⟩)) h
  | make d imm =>
    have h := guardOwned_eq _ _ _ _ h (by simp)
    simp only [Effect.complete.injEq] at h
    subst h
    exact .register _ _ _ rfl
  | nop =>
    simp only [effectOf, nopEffect, Effect.complete.injEq] at h
    subst h
    exact .nothing _
  | scall n =>
    have h := guardOwned_eq _ _ _ _ h (by simp)
    simp at h

/-- Only a system call raises one. -/
theorem effectOf_syscall (i : Instr) (s : State) (o : Level) (n : BitVec 16) (h : effectOf i s = .syscall o n) :
    i = .scall n := by
  cases i with
  | rfe =>
    have h := guardOwned_eq _ _ _ _ h (by simp)
    split at h <;> simp at h
  | get d sfr => exact absurd h (readEffect_ne_syscall _ _ _ _ _ _ _)
  | iget z =>
    simp only [effectOf, igetEffect] at h
    split at h
    · simp at h
    · exact absurd h (readEffect_ne_syscall _ _ _ _ _ _ _)
  | set sfr r | wfxl sfr r | wfxm sfr r => exact absurd h (writeEffect_ne_syscall _ _ _ _ _ _ _ _)
  | rswap sfr r =>
    simp only [effectOf, rswapEffect] at h
    exact absurd h (writeEffect_ne_syscall _ _ _ _ _ _ _ _)
  | tlb m =>
    simp only [effectOf, tlbEffect] at h
    split at h
    · simp at h
    · split at h <;> simp at h
  | await | sleep | stop | make d imm =>
    have h := guardOwned_eq _ _ _ _ h (by simp)
    simp at h
  | nop => simp [effectOf, nopEffect] at h
  | scall n =>
    have h := guardOwned_eq _ _ _ _ h (by simp)
    simp only [Effect.syscall.injEq] at h
    rw [h.2]

/-- The traps that an instruction can raise (R145, R147, R148). -/
theorem effectOf_trap_cause (i : Instr) (s : State) (o : Level) (cause : Cause) (h : effectOf i s = .trap o cause) :
    cause = .opcode ∨ cause = .privilege ∨ cause = .plo := by
  have guarded : ∀ (op : Op) (e : Effect), guardOwned op s e = .trap o cause → cause = .privilege ∨ e = .trap o cause := by
    intro op e h
    rcases guardOwned_cases op s e with ⟨p, -, he⟩ | ⟨-, he⟩ <;> rw [he] at h
    · simp only [Effect.trap.injEq] at h
      exact .inl h.2.symm
    · exact .inr h
  have read : ∀ (op : Op) (kind : AccessKind) (sfr : Sfr) (d : Reg), readEffect op kind sfr d s = .trap o cause →
      cause = .opcode ∨ cause = .privilege ∨ cause = .plo := by
    intro op kind sfr d h
    rcases readEffect_cases op kind sfr d s with ⟨-, e⟩ | ⟨p, -, e⟩ | ⟨-, -, e⟩ <;> rw [e] at h <;>
      simp only [Effect.trap.injEq, reduceCtorEq] at h
    · exact .inl h.2.symm
    · exact .inr (.inl h.2.symm)
  have write : ∀ (op : Op) (kind : AccessKind) (sfr : Sfr) (m : Masks) (f : State → State),
      writeEffect op kind sfr m f s = .trap o cause → cause = .opcode ∨ cause = .privilege ∨ cause = .plo := by
    intro op kind sfr m f h
    rcases writeEffect_cases op kind sfr m f s with ⟨-, e⟩ | ⟨p, -, -, e⟩ | ⟨-, -, -, -, e⟩ | ⟨u, -, -, -, -, e⟩ <;>
      rw [e] at h <;> simp only [Effect.trap.injEq, reduceCtorEq] at h
    · exact .inl h.2.symm
    · exact .inr (.inl h.2.symm)
    · exact .inr (.inr h.2.symm)
  cases i with
  | rfe =>
    rcases guarded _ _ h with h | h
    · exact .inr (.inl h)
    · split at h <;> simp only [Effect.trap.injEq, reduceCtorEq] at h
      exact .inr (.inr h.2.symm)
  | get d sfr => exact read _ _ _ _ h
  | iget z =>
    simp only [effectOf, igetEffect] at h
    split at h
    · simp at h
    · exact read _ _ _ _ h
  | set | wfxl | wfxm => exact write _ _ _ _ _ h
  | rswap =>
    simp only [effectOf, rswapEffect] at h
    exact write _ _ _ _ _ h
  | tlb m =>
    simp only [effectOf, tlbEffect] at h
    split at h
    · simp only [Effect.trap.injEq] at h
      exact .inl h.2.symm
    · split at h <;> simp only [Effect.trap.injEq, reduceCtorEq] at h
      exact .inr (.inl h.2.symm)
  | nop => simp [effectOf, nopEffect] at h
  | await | sleep | stop | make | scall =>
    rcases guarded _ _ h with h | h
    · exact .inr (.inl h)
    · simp at h

/-- The bundle of one instruction ends with its effect. -/
theorem exec_eq_commit (i : Instr) (s : State) : exec i s = commit s (effectOf i s) := by cases i <;> rfl

/-- An instruction whose effect is a trap takes it. -/
theorem exec_of_trap (i : Instr) (s : State) (o : Level) (cause : Cause) (h : effectOf i s = .trap o cause) :
    exec i s = .next (takeTrap o cause s) := by
  rw [exec_eq_commit, h]
  rfl

/-- The four SFR writes have one effect, over what each does to the general registers first. -/
theorem effectOf_sfrWrite (i : Instr) (s : State) (kind : AccessKind) (sfr : Sfr) (m : Masks)
    (h : s.sfrWrite i = some (kind, sfr, m)) :
    ∃ f : State → State, effectOf i s = writeEffect i.op kind sfr m f s
      ∧ (f = id ∨ ∃ r v, f = fun t => t.writeReg r v) := by
  cases i <;> simp only [State.sfrWrite, Option.some.injEq, Prod.mk.injEq, reduceCtorEq] at h
  all_goals obtain ⟨rfl, rfl, rfl⟩ := h
  iterate 3 exact ⟨id, rfl, .inl rfl⟩
  rename_i sfr r
  exact ⟨fun t => t.writeReg r (s.readSfr sfr), rfl, .inr ⟨_, _, rfl⟩⟩

/-- `exec` does what `Does` says. -/
theorem exec_does (i : Instr) (s t : State) (h : exec i s = .next t) : Does s i t := by
  rw [exec_eq_commit] at h
  cases he : effectOf i s with
  | complete u =>
    rw [he] at h
    simp only [commit, Host.Outcome.next.injEq] at h
    subst h
    exact .completes i u (effectOf_completes i s u he)
  | trap o cause =>
    rw [he] at h
    simp only [commit, Host.Outcome.next.injEq] at h
    subst h
    exact .trap i o cause
  | syscall o n =>
    rw [he] at h
    simp only [commit, Host.Outcome.next.injEq] at h
    subst h
    rw [effectOf_syscall i s o n he]
    exact .syscall o n
  | refuse r =>
    rw [he] at h
    simp [commit] at h

end Sys2Proof.Machine
end

