-- ==== Sys2Proof/Laws/Turns.lean ====
section
/-! SUPPORT. What a bundle, a core's turn and a step can do, said once. -/

namespace Sys2Proof.Machine

/-- A bundle that gives a next state is one instruction, or several of which one traps, one is a system call, or all
complete. -/
theorem execBundle_next (b : Bundle) (s t : State) (h : execBundle b s = .next t) :
    (∃ i, b = [i] ∧ exec i s = .next t)
      ∨ b.length ≠ 1 ∧ ((∃ o cause, t = takeTrap o cause s)
          ∨ (b.filter s.decides).length ≤ 1
            ∧ ((∃ o n k, Instr.scall k ∈ b ∧ t = takeSyscall o n (applyAll b s)) ∨ t = (applyAll b s).endBundle)) := by
  unfold execBundle at h
  split at h
  · exact .inl ⟨_, rfl, h⟩
  · rename_i hb
    refine .inr ⟨?_, ?_⟩
    · intro hl
      match b, hl with
      | [i], _ => exact hb i rfl
    · unfold execSeveral at h
      dsimp only at h
      split at h
      · simp at h
      · split at h
        · simp only [Host.Outcome.next.injEq] at h
          exact .inl ⟨_, _, h.symm⟩
        · split at h
          · simp at h
          · rename_i hd
            refine .inr ⟨by omega, ?_⟩
            split at h
            · rename_i o n hs
              simp only [Host.Outcome.next.injEq] at h
              obtain ⟨e, he, hse⟩ := List.exists_of_findSome?_eq_some hs
              obtain ⟨i, hi, rfl⟩ := List.mem_map.1 he
              split at hse <;> simp at hse
              rename_i o' n' heq
              rw [effectOf_syscall i s o' n' heq] at hi
              exact .inl ⟨o, n, n', hi, h.symm⟩
            · simp only [Host.Outcome.next.injEq] at h
              exact .inr h.symm

/-- A fetched bundle that gives a next state is well-formed. -/
theorem runBundle_next (dec : Decoder) (s t : State) (h : runBundle dec s = .next t) :
    ∃ b size, dec s.mem s.pc = .bundle b size ∧ Bundle.WellFormed b size ∧ execBundle b (s.atBundle size) = .next t := by
  unfold runBundle at h
  split at h
  · simp at h
  · simp at h
  · rename_i b size hd
    split at h
    · simp at h
    · rename_i hp
      exact ⟨b, size, hd, hp, h⟩

/-- The interrupt taken is one of those that can be. -/
theorem chooseInterrupt_mem (s : State) (k : Line) (ks : List Line) : s.chooseInterrupt k ks ∈ k :: ks := by
  unfold State.chooseInterrupt
  rw [List.getD_eq_getElem?_getD, List.getElem?_eq_getElem (by rw [List.length_cons]; exact Nat.mod_lt _ (Nat.succ_pos _))]
  exact List.getElem_mem _

/-- A core's turn: a bundle, the entry of an interrupt, or an idle core's step. -/
theorem coreTurn_next (dec : Decoder) (s t : State) (h : coreTurn dec s = .next t) :
    (s.idle = .running ∧ s.pending = [] ∧ runBundle dec s = .next t)
      ∨ (∃ k, s.idle = .running ∧ k ∈ s.pending ∧ t = takeInterrupt k s)
      ∨ (s.idle = .running ∧ s.pending ≠ [] ∧ s.woken = false
          ∧ runBundle dec { s with draws := s.draws + 1 } = .next t)
      ∨ (s.idle ≠ .running ∧ t = idleTurn s) := by
  unfold coreTurn at h
  split at h
  · rename_i hi
    split at h
    · rename_i hp
      exact .inl ⟨hi, hp, h⟩
    · rename_i k ks hp
      split at h
      · simp only [Host.Outcome.next.injEq] at h
        exact .inr (.inl ⟨_, hi, by rw [hp]; exact chooseInterrupt_mem s k ks, h.symm⟩)
      · rename_i hw
        simp only [Bool.or_eq_true, not_or, Bool.not_eq_true] at hw
        exact .inr (.inr (.inl ⟨hi, by rw [hp]; simp, hw.1, h⟩))
  all_goals
    rename_i hi
    simp only [Host.Outcome.next.injEq] at h
    exact .inr (.inr (.inr ⟨by rw [hi]; simp, h.symm⟩))

/-- A step is the core's turn, a move of the environment, or a debug event. -/
theorem stepWith_next (dec : Decoder) (s t : State) (h : stepWith dec s = .next t) :
    (∃ rest, (s.script = rest ∧ rest = [] ∨ s.script = .core :: rest) ∧ coreTurn dec { s with script := rest } = .next t)
      ∨ (∃ m rest, s.script = .env m :: rest ∧ t = envMove m { s with script := rest })
      ∨ (∃ d rest, s.script = .debug d :: rest ∧ t = debugTurn d { s with script := rest }) := by
  unfold stepWith at h
  split at h
  · rename_i hs
    refine .inl ⟨[], .inl ⟨hs, rfl⟩, ?_⟩
    rw [← h]
    congr 1
    rw [← hs]
  · rename_i rest hs
    exact .inl ⟨rest, .inr hs, h⟩
  · rename_i m rest hs
    simp only [Host.Outcome.next.injEq] at h
    exact .inr (.inl ⟨m, rest, hs, h.symm⟩)
  · rename_i d rest hs
    simp only [Host.Outcome.next.injEq] at h
    exact .inr (.inr ⟨d, rest, hs, h.symm⟩)

/-- Registering a line adds it to those registered and changes no bit outside its field; one that is registered already
changes nothing (R110, 93_implementation_defined.md U10). -/
theorem registerLine_cases (k : Line) (s : State) (hk : lineExists k = true) :
    (∀ n : Line, ({ s with ilr := s.registerLine k } : State).registered n = (s.registered n || decide (n = k)))
      ∧ (∀ b : Nat, (ilrFields.bits k).getLsbD b = false → (s.registerLine k).getLsbD b = s.ilr.getLsbD b)
      ∧ (s.registered k = true → s.registerLine k = s.ilr) := by
  cases hr : s.registered k with
  | true =>
    have : s.registerLine k = s.ilr := by simp [State.registerLine, hr]
    refine ⟨fun n => ?_, fun b _ => by rw [this], fun _ => this⟩
    rw [this]
    by_cases hn : n = k
    · simp [hn, hr]
    · simp [hn]
  | false =>
    have : s.registerLine k = ilrFields.raise s.ilr k := by simp [State.registerLine, hr]
    rw [this]
    refine ⟨fun n => ?_, fun b hb => ?_, fun h => absurd h (by simp)⟩
    · by_cases hn : n = k
      · subst hn
        simp [State.registered, LineFields.valueAt_raise_self, (ilrFields.ok_facts lineFields_ok.1).2 n hk]
      · simp [State.registered, ilrFields.valueAt_raise_of_ne lineFields_ok.1 _ _ _ hn, hn]
    · by_cases hlt : b < 64
      · simp only [LineFields.raise, BitVec.getLsbD_or, BitVec.getLsbD_and, BitVec.getLsbD_not, hb, hlt, decide_true,
          Bool.not_false, Bool.and_self, Bool.and_true, Bool.and_false, Bool.or_false]
      · rw [BitVec.getLsbD_of_ge _ _ (by omega), BitVec.getLsbD_of_ge _ _ (by omega)]

/-- A debug turn of a running core is the entry of the debug event, unless the core has just woken and an interrupt can
be taken (R131, R157). -/
theorem debugTurn_debug (d : BitVec 5) (s : State) (hi : s.idle = .running) (hw : s.woken = false ∨ s.pending = []) :
    debugTurn d s = takeDebug d s := by
  unfold debugTurn
  rw [hi]
  dsimp only
  split
  · rfl
  · rename_i h
    rw [h] at hw
    simp only [reduceCtorEq, or_false] at hw
    simp [hw]

/-- A debug turn of a core just woken takes an interrupt that can be taken (R112). -/
theorem debugTurn_interrupt (d : BitVec 5) (s : State) (hi : s.idle = .running) (hw : s.woken = true)
    (hp : s.pending ≠ []) : ∃ k ∈ s.pending, debugTurn d s = takeInterrupt k s := by
  unfold debugTurn
  rw [hi]
  dsimp only
  split
  · rename_i h
    exact absurd h hp
  · rename_i k ks h
    rw [if_pos hw]
    exact ⟨_, by rw [h]; exact chooseInterrupt_mem s k ks, rfl⟩

/-- A debug turn of an idle core does nothing. -/
theorem debugTurn_idle (d : BitVec 5) (s : State) (hi : s.idle ≠ .running) : debugTurn d s = s := by
  unfold debugTurn
  cases h : s.idle <;> simp_all

/-- What a step can do, for every decoder and every turn: run the bundle at `pc`, enter an exception with `pc` saved, move
the environment, take an idle core's step, or nothing. `rest` is the script after it and `n` the draws before it. -/
theorem stepWith_cases (dec : Decoder) (s t : State) (h : stepWith dec s = .next t) :
    ∃ rest n,
      (∃ b size, dec s.mem s.pc = .bundle b size ∧ Bundle.WellFormed b size
          ∧ execBundle b (State.atBundle { s with script := rest, draws := n } size) = .next t)
        ∨ (∃ cat o cause, t = takeException cat o cause s.pc { s with script := rest, draws := n })
        ∨ (∃ m, t = envMove m { s with script := rest, draws := n })
        ∨ (s.idle ≠ .running ∧ t = idleTurn { s with script := rest, draws := n })
        ∨ t = { s with script := rest, draws := n } := by
  rcases stepWith_next dec s t h with ⟨rest, -, h⟩ | ⟨m, rest, -, rfl⟩ | ⟨d, rest, -, rfl⟩
  · rcases coreTurn_next dec _ t h with ⟨-, -, h⟩ | ⟨k, -, -, rfl⟩ | ⟨-, -, -, h⟩ | ⟨hi, rfl⟩
    · exact ⟨rest, s.draws, .inl (runBundle_next dec _ t h)⟩
    · exact ⟨rest, s.draws, .inr (.inl ⟨_, _, _, rfl⟩)⟩
    · exact ⟨rest, s.draws + 1, .inl (runBundle_next dec _ t h)⟩
    · exact ⟨rest, s.draws, .inr (.inr (.inr (.inl ⟨hi, rfl⟩)))⟩
  · exact ⟨rest, s.draws, .inr (.inr (.inl ⟨m, rfl⟩))⟩
  · refine ⟨rest, s.draws, ?_⟩
    by_cases hi : s.idle = .running
    · by_cases hw : s.woken = false ∨ s.pending = []
      · exact .inr (.inl ⟨_, _, _, debugTurn_debug d { s with script := rest } hi hw⟩)
      · rw [not_or, Bool.not_eq_false] at hw
        obtain ⟨k, -, e⟩ := debugTurn_interrupt d { s with script := rest } hi hw.1 hw.2
        exact .inr (.inl ⟨_, _, _, e⟩)
    · exact .inr (.inr (.inr (.inr (debugTurn_idle d { s with script := rest } hi))))

/-- A running core with no interrupt to take runs the bundle at `pc`. -/
theorem stepWith_running (dec : Decoder) (s : State) (h1 : s.script = []) (h2 : s.idle = .running) (h3 : s.pending = []) :
    stepWith dec s = runBundle dec s := by
  simp only [stepWith, h1, coreTurn, h2, h3]

/-- An idle core's step. -/
theorem stepWith_idle (dec : Decoder) (s : State) (h1 : s.script = []) (h2 : s.idle ≠ .running) :
    stepWith dec s = .next (idleTurn s) := by
  simp only [stepWith, h1, coreTurn]
  cases h : s.idle <;> simp_all

/-- The instructions of a bundle are all applied. -/
theorem mem_applyOrder (b : Bundle) (s : State) (i : Instr) :
    i ∈ (b.filter (fun i => !s.decides i) ++ b.filter s.decides) ↔ i ∈ b := by
  simp only [List.mem_append, List.mem_filter]
  cases h : s.decides i <;> simp

/-- An owner after a hardware reset (R171). -/
theorem owner_resetFrom (r : OwnReg) (k : Slot) (d : ResetDraw) (s : State) : (State.resetFrom d s).owner r k = 0 := by
  cases r <;> simp [State.owner, Owners.reset, ownedByPl0, Owners.get]

end Sys2Proof.Machine
end

