-- ==== Sys2Proof/Laws/Bundles.lean ====
section
/-! SUPPORT. A bundle of several instructions: what the instructions that do not decide what follows leave alone, and
what each of them writes. -/

namespace Sys2Proof.Machine

/-- Which instructions decide what follows depends on WS alone. -/
theorem decides_congr (s u : State) (i : Instr) (h : u.ws = s.ws) : u.decides i = s.decides i := by
  cases i <;> simp [State.decides, h]

/-- An instruction of a bundle of several is none of SET, WFX*, RSWAP and TLB* (R51). -/
theorem alone_of_wellFormed (b : Bundle) (size : Nat) (h : Bundle.WellFormed b size) (hl : b.length ≠ 1) :
    ∀ i ∈ b, i.alone = false := by
  intro i hi
  by_contra hne
  have ha : b.any Instr.alone = true := List.any_eq_true.2 ⟨i, hi, by simpa using hne⟩
  rw [Bundle.WellFormed, Bundle.problem] at h
  split at h
  · simp at h
  · rw [if_pos (by rw [ha, Bool.true_and]; exact decide_eq_true hl)] at h
    simp at h

/-- No register is written twice in a well-formed bundle. -/
theorem nodup_of_wellFormed (b : Bundle) (size : Nat) (h : Bundle.WellFormed b size) :
    (b.filterMap Instr.writes).Nodup := by
  simp only [Bundle.WellFormed, Bundle.problem] at h
  split at h; · simp at h
  split at h; · simp at h
  split at h; · simp at h
  split at h; · simp at h
  rename_i hn
  simpa [Bundle.independent] using hn

/-- An instruction that may share a bundle and does not decide what follows writes at most its own register. -/
theorem completes_registers (i : Instr) (s t : State) (ha : i.alone = false) (hd : s.decides i = false)
    (hc : Completes s i t) : t = { s with gpr := t.gpr } ∧ ∀ r, i.writes ≠ some r → t.readReg r = s.readReg r := by
  cases hc with
  | register _ d v hw =>
    exact ⟨rfl, fun r hr => readReg_writeReg_ne _ _ _ _ fun e => hr (by rw [hw, e])⟩
  | returns => simp [State.decides] at hd
  | nothing => exact ⟨rfl, fun _ _ => rfl⟩
  | idle _ mode h => rcases h with ⟨rfl, -, h⟩ | ⟨rfl, -, h⟩ | ⟨rfl, -, h⟩ <;> simp [State.decides, h] at hd
  | write _ sfr m r u hi => rcases hi with rfl | rfl | rfl <;> simp [Instr.alone] at ha
  | exchange => simp [Instr.alone] at ha

/-- The same of what is applied of it. -/
theorem applyEffect_registers (i : Instr) (s : State) (ha : i.alone = false) (hd : s.decides i = false) :
    applyEffect s i = { s with gpr := (applyEffect s i).gpr } ∧ ∀ r, i.writes ≠ some r → (applyEffect s i).readReg r = s.readReg r := by
  unfold applyEffect
  split
  · exact completes_registers i s _ ha hd (effectOf_completes i s _ ‹_›)
  all_goals exact ⟨rfl, fun _ _ => rfl⟩

/-- The same of several. -/
theorem foldl_registers (l : List Instr) (s : State) (ha : ∀ i ∈ l, i.alone = false) (hd : ∀ i ∈ l, s.decides i = false) :
    l.foldl applyEffect s = { s with gpr := (l.foldl applyEffect s).gpr }
      ∧ ∀ r, (∀ i ∈ l, i.writes ≠ some r) → (l.foldl applyEffect s).readReg r = s.readReg r := by
  induction l generalizing s with
  | nil => exact ⟨rfl, fun _ _ => rfl⟩
  | cons i l ih =>
    obtain ⟨h1, h2⟩ := applyEffect_registers i s (ha i (by simp)) (hd i (by simp))
    have hws : (applyEffect s i).ws = s.ws := by rw [h1]
    obtain ⟨k1, k2⟩ := ih (applyEffect s i) (fun j hj => ha j (by simp [hj]))
      (fun j hj => by rw [decides_congr s _ _ hws]; exact hd j (by simp [hj]))
    refine ⟨?_, fun r hr => ?_⟩
    · rw [List.foldl_cons]
      generalize l.foldl applyEffect (applyEffect s i) = u at k1
      rw [h1] at k1
      exact k1
    · rw [List.foldl_cons, k2 r fun j hj => hr j (by simp [hj]), h2 r (hr i (by simp))]

/-- The instruction of a bundle that decides what follows comes last: at most one does when the bundle completes. -/
theorem applyAll_cases (b : Bundle) (s : State) (h : (b.filter s.decides).length ≤ 1) :
    (∀ i ∈ b, s.decides i = false) ∧ applyAll b s = (b.filter fun i => !s.decides i).foldl applyEffect s
      ∨ ∃ c ∈ b, s.decides c = true
        ∧ applyAll b s = applyEffect ((b.filter fun i => !s.decides i).foldl applyEffect s) c := by
  match hf : b.filter s.decides with
  | [] =>
    refine .inl ⟨fun i hi => ?_, by rw [applyAll, hf, List.append_nil]⟩
    have := List.filter_eq_nil_iff.1 hf i hi
    simpa using this
  | [c] =>
    have hc : c ∈ b.filter s.decides := by rw [hf]; simp
    exact .inr ⟨c, (List.mem_filter.1 hc).1, (List.mem_filter.1 hc).2, by rw [applyAll, hf, List.foldl_append]; rfl⟩
  | _ :: _ :: _ => rw [hf] at h; simp at h

/-- What the instructions that do not decide what follows do: they write registers of the bundle, and nothing else. -/
theorem rest_registers (b : Bundle) (s : State) (ha : ∀ i ∈ b, i.alone = false) :
    (b.filter fun i => !s.decides i).foldl applyEffect s
        = { s with gpr := ((b.filter fun i => !s.decides i).foldl applyEffect s).gpr }
      ∧ ∀ r, (∀ i ∈ b, i.writes ≠ some r) →
        ((b.filter fun i => !s.decides i).foldl applyEffect s).readReg r = s.readReg r := by
  obtain ⟨h1, h2⟩ := foldl_registers (b.filter fun i => !s.decides i) s
    (fun i hi => ha i (List.mem_filter.1 hi).1) (fun i hi => by simpa using (List.mem_filter.1 hi).2)
  exact ⟨h1, fun r hr => h2 r fun i hi => hr i (List.mem_filter.1 hi).1⟩

/-- A system call writes nothing before it is taken. -/
theorem applyEffect_scall (s : State) (n : BitVec 16) : applyEffect s (.scall n) = s := by
  unfold applyEffect
  split
  · have h := guardOwned_eq _ _ _ _ ‹effectOf (.scall n) s = _› (by simp)
    simp at h
  all_goals rfl

/-- What a system call's bundle has written when the call is taken: registers, and nothing else (R122). -/
theorem applyAll_scall (b : Bundle) (s : State) (n : BitVec 16) (ha : ∀ i ∈ b, i.alone = false)
    (h : (b.filter s.decides).length ≤ 1) (hn : .scall n ∈ b) :
    applyAll b s = { s with gpr := (applyAll b s).gpr }
      ∧ ∀ r, (∀ i ∈ b, i.writes ≠ some r) → (applyAll b s).readReg r = s.readReg r := by
  rcases applyAll_cases b s h with ⟨hd, -⟩ | ⟨c, hc, hdc, e⟩
  · exact absurd (hd _ hn) (by simp [State.decides])
  · have : c = .scall n := by
      have h1 : c ∈ b.filter s.decides := List.mem_filter.2 ⟨hc, hdc⟩
      have h2 : Instr.scall n ∈ b.filter s.decides := List.mem_filter.2 ⟨hn, rfl⟩
      match hf : b.filter s.decides with
      | [] => rw [hf] at h1; simp at h1
      | [x] => rw [hf] at h1 h2; simp at h1 h2; rw [h1, h2]
      | _ :: _ :: _ => rw [hf] at h; simp at h
    subst this
    rw [e, applyEffect_scall]
    exact rest_registers b s ha

/-- What a bundle can do: after registers that its instructions name have been written, and nothing else (`u`), one of its
instructions does what it does, or an exception is entered, or the bundle ends. -/
theorem execBundle_cases (b : Bundle) (size : Nat) (s t : State) (hwf : Bundle.WellFormed b size)
    (h : execBundle b s = .next t) :
    ∃ u : State, u = { s with gpr := u.gpr } ∧ (∀ r, u.readReg r ≠ s.readReg r → ∃ i ∈ b, i.writes = some r)
      ∧ ((∃ i ∈ b, Does u i t) ∨ (∃ cat o cause a, t = takeException cat o cause a u) ∨ t = u.endBundle) := by
  have named : ∀ u : State, (∀ r, (∀ i ∈ b, i.writes ≠ some r) → u.readReg r = s.readReg r) →
      ∀ r, u.readReg r ≠ s.readReg r → ∃ i ∈ b, i.writes = some r := by
    intro u hu r hr
    by_contra hn
    exact hr (hu r fun i hi e => hn ⟨i, hi, e⟩)
  rcases execBundle_next b s t h with ⟨i, rfl, h⟩ | ⟨hl, h⟩
  · exact ⟨s, rfl, fun r hr => absurd rfl hr, .inl ⟨i, by simp, exec_does i s t h⟩⟩
  · have ha := alone_of_wellFormed b size hwf hl
    rcases h with ⟨o, cause, rfl⟩ | ⟨hd, ⟨o, n, k, hk, rfl⟩ | rfl⟩
    · exact ⟨s, rfl, fun r hr => absurd rfl hr, .inr (.inl ⟨_, _, _, _, rfl⟩)⟩
    · obtain ⟨h1, h2⟩ := applyAll_scall b s k ha hd hk
      exact ⟨_, h1, named _ h2, .inr (.inl ⟨_, _, _, _, rfl⟩)⟩
    · obtain ⟨h1, h2⟩ := rest_registers b s ha
      rcases applyAll_cases b s hd with ⟨-, e⟩ | ⟨c, hc, -, e⟩ <;> rw [e]
      · exact ⟨_, h1, named _ h2, .inr (.inr rfl)⟩
      · refine ⟨_, h1, named _ h2, ?_⟩
        generalize (b.filter fun i => !s.decides i).foldl applyEffect s = u
        cases he : effectOf c u with
        | complete v =>
          have : applyEffect u c = v := by rw [applyEffect, he]
          rw [this]
          exact .inl ⟨c, hc, .completes c v (effectOf_completes c u v he)⟩
        | trap | syscall | refuse =>
          have : applyEffect u c = u := by rw [applyEffect, he]
          rw [this]
          exact .inr (.inr rfl)

/-! The instructions of a bundle read the registers from before it (R3, R47). -/

/-- The effect with the state of a completion changed. -/
def Effect.mapState (f : State → State) : Effect → Effect
  | .complete t => .complete (f t)
  | .trap o cause => .trap o cause
  | .syscall o n => .syscall o n
  | .refuse r => .refuse r

/-- `t` with the registers `g`, but for the one that `i` writes. -/
def State.withOtherRegs (i : Instr) (g : Vector Word gprCount) (t : State) : State :=
  { t with gpr := match i.writes with
                  | some d => g.set d.val (t.readReg d)
                  | none => g }

/-- A register that `i` does not write is the given one. -/
theorem readReg_withOtherRegs_ne (i : Instr) (g : Vector Word gprCount) (t : State) (r : Reg) (h : i.writes ≠ some r) :
    (t.withOtherRegs i g).readReg r = g[r] := by
  have key : ∀ o : Option Reg, o ≠ some r →
      (match o with
        | some d => g.set d.val (t.readReg d)
        | none => g)[r] = g[r] := by
    intro o ho
    cases o with
    | none => rfl
    | some d =>
      have : d.val ≠ r.val := fun e => ho (by rw [Fin.ext e])
      simp [Vector.getElem_set_ne, this]
  exact key _ h

/-- The guard of an owned instruction reads no register. -/
theorem guardOwned_gpr (op : Op) (s : State) (g : Vector Word gprCount) (e : Effect) (f : State → State) :
    guardOwned op { s with gpr := g } (e.mapState f) = (guardOwned op s e).mapState f := by
  show (match worstOwner (s.instrOwners op) with | some o => _ | none => _) = _
  unfold guardOwned
  cases worstOwner (s.instrOwners op) <;> rfl

/-- An SFR read reads no register. -/
theorem readEffect_gpr (i : Instr) (op : Op) (kind : AccessKind) (sfr : Sfr) (d : Reg) (s : State)
    (g : Vector Word gprCount) (hd : i.writes = some d) :
    readEffect op kind sfr d { s with gpr := g } = (readEffect op kind sfr d s).mapState (State.withOtherRegs i g) := by
  unfold readEffect
  cases sfrAccess kind sfr
  · rfl
  · simp only [Bool.not_true, Bool.false_eq_true, if_false]
    rw [← guardOwned_gpr]
    congr 1
    simp only [Effect.mapState, State.withOtherRegs, hd, readReg_writeReg_self]
    rfl

/-- An instruction that may share a bundle does the same whatever the other instructions have written: the one register
it reads is the one it writes. -/
theorem effectOf_gpr (i : Instr) (s : State) (g : Vector Word gprCount) (ha : i.alone = false)
    (hz : ∀ r, i.writes = some r → g[r] = s.readReg r) :
    effectOf i { s with gpr := g } = (effectOf i s).mapState (State.withOtherRegs i g) := by
  have guarded : ∀ (op : Op) (e e' : Effect), e' = e.mapState (State.withOtherRegs i g) →
      guardOwned op { s with gpr := g } e' = (guardOwned op s e).mapState (State.withOtherRegs i g) := by
    rintro op e _ rfl
    exact guardOwned_gpr op s g e _
  cases i with
  | rfe =>
    refine guarded .rfe _ _ ?_
    show (match addLevels s.ps.pl (s.sps[s.ps.pl]).pl with | none => _ | some d => _) = _
    cases addLevels s.ps.pl (s.sps[s.ps.pl]).pl <;> rfl
  | get d sfr => exact readEffect_gpr _ _ _ _ _ _ _ rfl
  | iget z =>
    have : ({ s with gpr := g } : State).readReg z = s.readReg z := hz z rfl
    simp only [effectOf, igetEffect, this]
    cases sfrOfIndex (s.readReg z) with
    | none => rfl
    | some sfr => exact readEffect_gpr _ _ _ _ _ _ _ rfl
  | set | wfxl | wfxm | rswap | tlb => simp [Instr.alone] at ha
  | await =>
    refine guarded .await _ _ ?_
    simp only [Effect.mapState]
    cases s.ws.wu0 <;> rfl
  | sleep =>
    refine guarded .sleep _ _ ?_
    simp only [Effect.mapState]
    cases s.ws.wu1 <;> rfl
  | stop =>
    refine guarded .stop _ _ ?_
    simp only [Effect.mapState]
    cases s.ws.wu2 <;> rfl
  | make d imm =>
    refine guarded .make _ _ ?_
    simp only [Effect.mapState, State.withOtherRegs, Instr.writes, readReg_writeReg_self]
    rfl
  | nop => rfl
  | scall n => exact guarded .scall _ _ rfl

/-- Each of several such instructions, no two of which write one register, gives its register the value that it gives it
alone. -/
theorem foldl_values (l : List Instr) (s : State) (ha : ∀ i ∈ l, i.alone = false) (hd : ∀ i ∈ l, s.decides i = false)
    (hn : (l.filterMap Instr.writes).Nodup) :
    ∀ j ∈ l, ∀ d v, j.writes = some d → effectOf j s = .complete v →
      (l.foldl applyEffect s).readReg d = v.readReg d := by
  induction l generalizing s with
  | nil => simp
  | cons i l ih =>
    intro j hj d v hw he
    obtain ⟨h1, h2⟩ := applyEffect_registers i s (ha i (by simp)) (hd i (by simp))
    have hws : (applyEffect s i).ws = s.ws := by rw [h1]
    have hn' : (l.filterMap Instr.writes).Nodup := by
      rw [List.filterMap_cons] at hn
      split at hn
      · exact hn
      · exact (List.nodup_cons.1 hn).2
    have hd' : ∀ k ∈ l, (applyEffect s i).decides k = false := fun k hk => by
      rw [decides_congr s _ _ hws]
      exact hd k (by simp [hk])
    have excl : ∀ k ∈ l, ∀ e, i.writes = some e → k.writes ≠ some e := by
      intro k hk e hi hke
      rw [List.filterMap_cons, hi] at hn
      exact (List.nodup_cons.1 hn).1 (List.mem_filterMap.2 ⟨k, hk, hke⟩)
    rw [List.foldl_cons]
    rcases List.mem_cons.1 hj with rfl | hj
    · rw [(foldl_registers l _ (fun k hk => ha k (by simp [hk])) hd').2 d fun k hk => excl k hk d hw]
      simp [applyEffect, he]
    · have hu : ∀ r, j.writes = some r → (applyEffect s i).gpr[r] = s.readReg r :=
        fun r hr => h2 r fun hir => excl j hj r hir hr
      have := effectOf_gpr j s (applyEffect s i).gpr (ha j (by simp [hj])) hu
      rw [← h1, he] at this
      rw [ih (applyEffect s i) (fun k hk => ha k (by simp [hk])) hd' hn' j hj d _ hw this]
      simp [State.withOtherRegs, hw, State.readReg]

/-! What the effects of a bundle's instructions come to. -/

/-- A bundle of other than one instruction. -/
theorem execBundle_several (b : Bundle) (s : State) (h : b.length ≠ 1) : execBundle b s = execSeveral b s := by
  unfold execBundle
  split
  · simp at h
  · rfl

/-- No refusal and no trap among instructions that run. -/
theorem no_trap_of_runs (s : State) (b : Bundle) (h : ∀ j ∈ b, s.Runs j) :
    refusalOf (b.map fun i => effectOf i s) = none ∧ bundleTrap (b.map fun i => effectOf i s) = none := by
  have key : ∀ e ∈ b.map (fun i => effectOf i s), (∃ t, e = .complete t) ∨ ∃ o n, e = .syscall o n := by
    intro e he
    obtain ⟨i, hi, rfl⟩ := List.mem_map.1 he
    exact h i hi
  have ht : ∀ c, trapOf c (b.map fun i => effectOf i s) = [] := by
    intro c
    rw [trapOf, List.filterMap_eq_nil_iff]
    intro e he
    rcases key e he with ⟨t, rfl⟩ | ⟨o, n, rfl⟩ <;> rfl
  refine ⟨?_, ?_⟩
  · rw [refusalOf, List.findSome?_eq_none_iff]
    intro e he
    rcases key e he with ⟨t, rfl⟩ | ⟨o, n, rfl⟩ <;> rfl
  · simp only [bundleTrap, ht, worstOwner]

/-- The owners of the traps of one cause. -/
theorem mem_trapOf (cause : Cause) (es : List Effect) (o : Level) : o ∈ trapOf cause es ↔ Effect.trap o cause ∈ es := by
  unfold trapOf
  rw [List.mem_filterMap]
  constructor
  · rintro ⟨e, he, h⟩
    split at h
    · split at h
      · rename_i hc
        simp only [Option.some.injEq] at h
        rw [← h, ← hc]
        exact he
      · simp at h
    all_goals simp at h
  · intro h
    exact ⟨_, h, by simp⟩

/-- The trap of a bundle is that of one of its instructions. -/
theorem bundleTrap_of_mem (es : List Effect) (o : Level) (cause : Cause) (h : Effect.trap o cause ∈ es)
    (hc : cause = .opcode ∨ cause = .privilege ∨ cause = .plo) :
    ∃ p c, bundleTrap es = some (p, c) ∧ Effect.trap p c ∈ es := by
  rw [← mem_trapOf] at h
  unfold bundleTrap
  cases h1 : trapOf .opcode es with
  | cons p ps => exact ⟨p, .opcode, rfl, (mem_trapOf _ _ _).1 (by rw [h1]; simp)⟩
  | nil =>
    cases h2 : worstOwner (trapOf .privilege es) with
    | some p => exact ⟨p, .privilege, rfl, (mem_trapOf _ _ _).1 (worstOwner_eq_some _ _ h2).1⟩
    | none =>
      cases h3 : trapOf .plo es with
      | cons p ps => exact ⟨p, .plo, rfl, (mem_trapOf _ _ _).1 (by rw [h3]; simp)⟩
      | nil =>
        rcases hc with rfl | rfl | rfl
        · rw [h1] at h; simp at h
        · rw [(worstOwner_eq_none _).1 h2] at h; simp at h
        · rw [h3] at h; simp at h

end Sys2Proof.Machine
end

