-- ==== Sys2Proof/Laws/Decode.lean ====
section
/-! SUPPORT. The operands of the stand-in encoding, in both directions. -/

namespace Sys2Proof

/-! Decoding what was encoded. -/

/-- The number that the two bytes of a register operand make. -/
theorem toNat_regBytes (n : Nat) (h : n < 65536) :
    (BitVec.ofNat 8 (n / 256) ++ BitVec.ofNat 8 n : BitVec 16).toNat = n := by
  rw [BitVec.toNat_append, BitVec.toNat_ofNat, BitVec.toNat_ofNat, ← Nat.shiftLeft_add_eq_or_of_lt (by omega),
    Nat.shiftLeft_eq]
  omega

/-- Two bytes are those of the number that they make. -/
theorem regBytes_toNat (lo hi : Byte) :
    BitVec.ofNat 8 (hi ++ lo : BitVec 16).toNat = lo ∧ BitVec.ofNat 8 ((hi ++ lo : BitVec 16).toNat / 256) = hi := by
  have h1 := lo.isLt
  have h2 := hi.isLt
  have e : (hi ++ lo : BitVec 16).toNat = hi.toNat * 256 + lo.toNat := by
    rw [BitVec.toNat_append, ← Nat.shiftLeft_add_eq_or_of_lt h1, Nat.shiftLeft_eq]
  rw [e]
  refine ⟨BitVec.eq_of_toNat_eq ?_, BitVec.eq_of_toNat_eq ?_⟩ <;> rw [BitVec.toNat_ofNat] <;> omega

/-- A register number fits the two bytes of its operand. -/
theorem reg_lt (r : Reg) : r.val < 65536 := by
  have h1 := r.isLt
  have h2 := Config.extraRegs.isLt
  simp only [gprCount] at h1
  omega

/-- A register number is read back. -/
theorem regOperand_ofNat (r : Reg) :
    regOperand (BitVec.ofNat 8 r.val) (BitVec.ofNat 8 (r.val / 256)) = .ok r := by
  have e := toNat_regBytes r.val (reg_lt r)
  unfold regOperand
  rw [dif_pos (by rw [e]; exact r.isLt)]
  simp only [e]

/-- An SFR ordinal is read back. -/
theorem sfrOperand_ofNat (f : Sfr) : sfrOperand (BitVec.ofNat 8 (sfrOrdinal f)) = .ok f := by
  have : (BitVec.ofNat 8 (sfrOrdinal f)).toNat = sfrOrdinal f := by
    rw [BitVec.toNat_ofNat]
    exact Nat.mod_eq_of_lt (sfrOrdinal_lt f)
  simp only [sfrOperand, this, sfrOfOrdinal_sfrOrdinal]

/-- An SFR and a register are read back. -/
theorem sfrAndReg_ofNat (g : Sfr → Reg → Instr) (f : Sfr) (r : Reg) :
    sfrAndReg g (BitVec.ofNat 8 r.val) (BitVec.ofNat 8 (r.val / 256)) (BitVec.ofNat 8 (sfrOrdinal f)) = .ok (g f r) := by
  simp only [sfrAndReg, sfrOperand_ofNat, regOperand_ofNat]

/-- A 64-bit immediate is read back. -/
theorem immediate_tailBytes (d : Reg) (imm : Word) (rest : List Byte) :
    immediate (tailBytes (.make d imm) ++ rest) = some (imm, rest) := by
  simp only [tailBytes, List.range, List.range.loop, List.map, List.cons_append, List.nil_append, immediate]
  congr 2
  apply BitVec.eq_of_getLsbD_eq
  intro n hn
  simp only [BitVec.getLsbD_append, BitVec.getLsbD_extractLsb']
  by_cases h0 : n < 8
  · simp [h0]
  by_cases h1 : n - 8 < 8
  · simp [h0, h1]; congr 1; omega
  by_cases h2 : n - 8 - 8 < 8
  · simp [h0, h1, h2]; congr 1; omega
  by_cases h3 : n - 8 - 8 - 8 < 8
  · simp [h0, h1, h2, h3]; congr 1; omega
  by_cases h4 : n - 8 - 8 - 8 - 8 < 8
  · simp [h0, h1, h2, h3, h4]; congr 1; omega
  by_cases h5 : n - 8 - 8 - 8 - 8 - 8 < 8
  · simp [h0, h1, h2, h3, h4, h5]; congr 1; omega
  by_cases h6 : n - 8 - 8 - 8 - 8 - 8 - 8 < 8
  · simp [h0, h1, h2, h3, h4, h5, h6]; congr 1; omega
  · have h7 : n - 8 - 8 - 8 - 8 - 8 - 8 - 8 < 8 := by omega
    simp [h0, h1, h2, h3, h4, h5, h6, h7]; congr 1; omega

/-- The two bytes of a system-call selector make the selector. -/
theorem selector_bytes (n : BitVec 16) : (n.extractLsb' 8 8 ++ n.extractLsb' 0 8 : BitVec 16) = n := by
  apply BitVec.eq_of_getLsbD_eq
  intro k hk
  simp only [BitVec.getLsbD_append, BitVec.getLsbD_extractLsb']
  by_cases h : k < 8
  · simp [h]
  · have : k - 8 < 8 := by omega
    simp [h, this]
    congr 1
    omega

/-- The opcode and the mark of a header are read back. -/
theorem topByte (more : Bool) (i : Instr) :
    (BitVec.ofNat 8 (opcodeOf i + if more then 128 else 0)).toNat % 128 = opcodeOf i
      ∧ decide (128 ≤ (BitVec.ofNat 8 (opcodeOf i + if more then 128 else 0)).toNat) = more := by
  have : opcodeOf i < 15 := by cases i <;> simp [opcodeOf]
  have e : (BitVec.ofNat 8 (opcodeOf i + if more then 128 else 0)).toNat = opcodeOf i + if more then 128 else 0 := by
    rw [BitVec.toNat_ofNat]
    apply Nat.mod_eq_of_lt
    cases more <;> simp <;> omega
  rw [e]
  cases more <;> simp <;> omega

/-- An instruction whose operands are read back is read back. -/
theorem decodeInstr_of_operands (more : Bool) (i : Instr) (rest : List Byte)
    (h : decodeOperands (opcodeOf i) (operandBytes i).1 (operandBytes i).2 (sfrByte i) (tailBytes i ++ rest)
      = .ok (i, rest)) :
    decodeInstr (encodeInstr more i ++ rest) = .ok (i, more, rest) := by
  simp only [encodeInstr, List.cons_append, decodeInstr, (topByte more i).1, (topByte more i).2, h]

/-! Encoding what was decoded. -/

/-- The bytes of a register operand. -/
theorem regOperand_ok (lo hi : Byte) (r : Reg) (h : regOperand lo hi = .ok r) :
    BitVec.ofNat 8 r.val = lo ∧ BitVec.ofNat 8 (r.val / 256) = hi := by
  unfold regOperand at h
  split at h
  · simp only [Except.ok.injEq] at h
    subst h
    exact regBytes_toNat lo hi
  · simp at h

/-- The byte of an SFR operand. -/
theorem sfrOperand_ok (b : Byte) (f : Sfr) (h : sfrOperand b = .ok f) : BitVec.ofNat 8 (sfrOrdinal f) = b := by
  unfold sfrOperand at h
  split at h
  · rename_i g hg
    simp only [Except.ok.injEq] at h
    subst h
    rw [sfrOrdinal_of_sfrOfOrdinal _ _ hg]
    simp
  · simp at h

/-- The bytes of an SFR and a register operand. -/
theorem sfrAndReg_ok (g : Sfr → Reg → Instr) (lo hi sfr : Byte) (i : Instr) (h : sfrAndReg g lo hi sfr = .ok i) :
    ∃ f r, i = g f r ∧ BitVec.ofNat 8 r.val = lo ∧ BitVec.ofNat 8 (r.val / 256) = hi ∧ BitVec.ofNat 8 (sfrOrdinal f) = sfr := by
  unfold sfrAndReg at h
  split at h
  · simp at h
  · rename_i f hf
    split at h
    · rename_i r hr
      simp only [Except.ok.injEq] at h
      exact ⟨f, r, h.symm, (regOperand_ok _ _ _ hr).1, (regOperand_ok _ _ _ hr).2, sfrOperand_ok _ _ hf⟩
    · simp at h

/-- The bytes of a register operand alone. -/
theorem oneReg_ok (g : Reg → Instr) (lo hi sfr : Byte) (i : Instr) (h : oneReg g lo hi sfr = .ok i) :
    ∃ r, i = g r ∧ regOperand lo hi = .ok r ∧ BitVec.ofNat 8 r.val = lo ∧ BitVec.ofNat 8 (r.val / 256) = hi ∧ sfr = 0#8 := by
  unfold oneReg at h
  split at h
  · split at h
    · rename_i hs _ r hr
      simp only [Except.ok.injEq] at h
      exact ⟨r, h.symm, hr, (regOperand_ok _ _ _ hr).1, (regOperand_ok _ _ _ hr).2, hs⟩
    · simp at h
  · simp at h

/-- The bytes of no operand. -/
theorem noOperand_ok (j : Instr) (lo hi sfr : Byte) (i : Instr) (h : noOperand j lo hi sfr = .ok i) :
    i = j ∧ lo = 0#8 ∧ hi = 0#8 ∧ sfr = 0#8 := by
  unfold noOperand at h
  split at h
  · simp only [Except.ok.injEq] at h
    exact ⟨h.symm, ‹_›⟩
  · simp at h

/-- The bytes of an immediate. -/
theorem immediate_eq_some (bs rest : List Byte) (d : Reg) (imm : Word) (h : immediate bs = some (imm, rest)) :
    bs = tailBytes (.make d imm) ++ rest := by
  match bs, h with
  | b0 :: b1 :: b2 :: b3 :: b4 :: b5 :: b6 :: b7 :: r, h =>
    simp only [immediate, Option.some.injEq, Prod.mk.injEq] at h
    obtain ⟨rfl, rfl⟩ := h
    simp only [tailBytes, List.range, List.range.loop, List.map, List.cons_append, List.nil_append, List.cons.injEq,
      and_true]
    refine ⟨?_, ?_, ?_, ?_, ?_, ?_, ?_, ?_⟩ <;>
    · apply BitVec.eq_of_getLsbD_eq
      intro n hn
      simp only [BitVec.getLsbD_extractLsb', BitVec.getLsbD_append, hn, decide_true, Bool.true_and]
      have a1 : ¬8 + n < 8 := by omega
      have a2 : ¬16 + n < 8 := by omega
      simp [hn]
      try (repeat' rw [if_neg (by omega)])
      try (rw [if_pos (by omega)])
      try (congr 1; omega)

/-- The bytes of a selector. -/
theorem selector_extract (hi lo : Byte) :
    ((hi ++ lo : BitVec 16).extractLsb' 0 8, (hi ++ lo : BitVec 16).extractLsb' 8 8) = (lo, hi) := by
  simp only [Prod.mk.injEq]
  refine ⟨?_, ?_⟩ <;>
  · apply BitVec.eq_of_getLsbD_eq
    intro n hn
    simp only [BitVec.getLsbD_extractLsb', hn, decide_true, Bool.true_and]
    refine (BitVec.getLsbD_append (x := hi) (y := lo)).trans ?_
    simp [hn]

/-- An instruction that is its header alone. -/
theorem headerOnly_ok (rest rest' : List Byte) (r : Except Reject Instr) (i : Instr)
    (h : headerOnly rest r = .ok (i, rest')) : r = .ok i ∧ rest = rest' := by
  cases r with
  | ok j =>
    simp only [headerOnly, Except.ok.injEq, Prod.mk.injEq] at h
    exact ⟨by rw [h.1], h.2⟩
  | error e => simp [headerOnly] at h

end Sys2Proof
end

