-- ==== Sys2Proof/Laws/Fetch.lean ====
section
/-! SUPPORT. The bytes the fetch takes from memory. -/

namespace Sys2Proof.Machine

/-- The fetch takes the bytes that stand in memory, and then what follows them. -/
theorem fetchBytes_of_memRead (m : List Host.Cell) (l : List Byte) (a n : Nat) (hl : l.length ≤ n)
    (ha : a + l.length ≤ addressCount) (h : ∀ k (hk : k < l.length), memRead m (a + k) = some l[k]) :
    fetchBytes m a n = l ++ fetchBytes m (a + l.length) (n - l.length) := by
  induction l generalizing a n with
  | nil => simp
  | cons v l ih =>
    match n, hl with
    | n + 1, hl =>
      have h0 := h 0 (by simp)
      simp only [Nat.add_zero, List.getElem_cons_zero] at h0
      simp only [List.length_cons] at ha hl ⊢
      rw [fetchBytes, if_pos (by omega), h0]
      simp only []
      rw [ih (a + 1) n (by omega) (by omega) (by
        intro k hk
        have := h (k + 1) (by simp; omega)
        simp only [List.getElem_cons_succ] at this
        rw [← this]
        congr 1
        omega)]
      simp only [List.cons_append]
      congr 3 <;> omega

end Sys2Proof.Machine
end

