-- ==== Sys2Proof/Laws/Fields.lean ====
section
/-! SUPPORT. What the masks of a write and the image of a PS do to each field. -/

namespace Sys2Proof.Machine

/-! Levels. -/

/-- The offset of a level from a more privileged one (R138). -/
theorem level_sub_val (i j : Level) (h : j ≤ i) : (i - j).val = i.val - j.val := by
  revert i j
  decide

/-- The offset that entry saves leads back to the level it came from (R138). -/
theorem addLevels_sub (i j : Level) (h : j ≤ i) : addLevels j (i - j) = some i := by
  revert i j
  decide

/-! The image of a PS (R73). -/

section
variable (sfr : Sfr) (p : Ps)

/-- The two bits of PL in a PS image. -/
theorem imageBit_pl (h : psLayout.plLo < 64) (h' : psLayout.plLo + 1 < 64) :
    levelOfBits (p.imageBit sfr ⟨psLayout.plLo, h⟩) (p.imageBit sfr ⟨psLayout.plLo + 1, h'⟩) = p.pl := by
  simp only [Ps.imageBit]
  rw [psFieldAt_pl ⟨_, h⟩ (.inl rfl), psFieldAt_pl ⟨_, h'⟩ (.inr rfl)]
  simp

/-- The bit of IE in a PS image. -/
theorem imageBit_ie (h : psLayout.iePos < 64) : p.imageBit sfr ⟨psLayout.iePos, h⟩ = p.ie := by
  simp only [Ps.imageBit]
  rw [psFieldAt_ie _ rfl]

/-- The bit of ET in a PS image. -/
theorem imageBit_et (h : psLayout.etPos < 64) : p.imageBit sfr ⟨psLayout.etPos, h⟩ = p.et := by
  simp only [Ps.imageBit]
  rw [psFieldAt_et _ rfl]

/-- The bits of IL in a PS image. -/
theorem imageBit_il (n : Nat) (h : psLayout.ilLo + n < 64) (hn : n < psLayout.ilWidth) :
    p.imageBit sfr ⟨psLayout.ilLo + n, h⟩ = p.il.getLsbD n := by
  simp only [Ps.imageBit]
  rw [psFieldAt_il _ ⟨by simp, by simpa using hn⟩]
  simp

/-- The bits of the unnamed fields in a PS image. -/
theorem imageBit_other (b : BitNo) (h : psFieldAt b = some (.other b)) : p.imageBit sfr b = p.other.getLsbD b.val := by
  simp only [Ps.imageBit, h]

end

/-! The masks of SET and RSWAP: every bit (R77). -/

/-- SET tries every field. -/
theorem whole_touchesPair (v : Word) (lo : Nat) (h : lo < 64) : (Masks.whole v).touchesPair lo = true := by
  have : (BitVec.allOnes 64).getLsbD lo = true := by rw [BitVec.getLsbD_allOnes]; simp [h]
  simp only [Masks.touchesPair, Masks.touches, Masks.whole, this, Bool.or_true, Bool.true_or]

/-- The offset SET gives a relative field is the field's bits (R86). -/
theorem whole_offsetAt (v : Word) (lo : Nat) :
    (Masks.whole v).offsetAt lo = levelOfBits (v.getLsbD lo) (v.getLsbD (lo + 1)) := rfl

/-- SET replaces a word. -/
@[simp] theorem whole_word (v old : Word) : (Masks.whole v).word old = v := by
  apply BitVec.eq_of_getLsbD_eq
  intro n hn
  simp [Masks.word, Masks.whole]

/-- SET replaces an SFR of `PC_W` bits by the low bits of the value. -/
@[simp] theorem whole_pcWord (v : Word) (old : Pc) : (Masks.whole v).pcWord old = v.setWidth pcWidth := by
  apply BitVec.eq_of_getLsbD_eq
  intro n hn
  have := pcWidth_bounds
  have h64 : n < 64 := by omega
  have : (BitVec.allOnes 64).getLsbD n = true := by rw [BitVec.getLsbD_allOnes]; simp [h64]
  simp only [Masks.pcWord, Masks.whole, BitVec.getLsbD_or, BitVec.getLsbD_and, BitVec.getLsbD_not,
    BitVec.getLsbD_setWidth, this, hn, decide_true, Bool.true_and, Bool.not_true, Bool.and_false, Bool.false_or]

/-- SET replaces a bit. -/
theorem whole_bit (v : Word) (b : Nat) (h : b < 64) (old : Bool) : (Masks.whole v).bit b old = v.getLsbD b := by
  have : (BitVec.allOnes 64).getLsbD b = true := by rw [BitVec.getLsbD_allOnes]; simp [h]
  simp only [Masks.bit, Masks.whole, this, Bool.not_true, Bool.and_false, Bool.false_or]

/-- SET replaces the bits of a mask. -/
theorem whole_wordWithin (v w old : Word) (b : Nat) (h : w.getLsbD b = true) :
    ((Masks.whole v).wordWithin w old).getLsbD b = v.getLsbD b := by
  have hb : b < 64 := by
    by_contra hb
    rw [BitVec.getLsbD_of_ge _ _ (Nat.le_of_not_lt hb)] at h
    simp at h
  have : (BitVec.allOnes 64).getLsbD b = true := by rw [BitVec.getLsbD_allOnes]; simp [hb]
  simp only [Masks.wordWithin, Masks.whole, BitVec.getLsbD_or, BitVec.getLsbD_and, BitVec.getLsbD_not, this, h, hb,
    decide_true, Bool.and_true, Bool.not_true, Bool.and_false, Bool.false_or]

/-- SET replaces IL. -/
theorem whole_ilField (v old : Word) (n : Nat) (h : n < psLayout.ilWidth) :
    ((Masks.whole v).ilField old).getLsbD n = v.getLsbD (psLayout.ilLo + n) := by
  have F := psLayout_facts
  have hn : n < 64 := by omega
  have hl : psLayout.ilLo + n < 64 := by omega
  have : (BitVec.allOnes 64).getLsbD (psLayout.ilLo + n) = true := by rw [BitVec.getLsbD_allOnes]; simp [hl]
  have hm : ilMask.getLsbD n = true := by rw [getLsbD_ilMask]; simp [h, hn]
  simp only [Masks.ilField, Masks.whole, BitVec.getLsbD_or, BitVec.getLsbD_and, BitVec.getLsbD_not,
    BitVec.getLsbD_ushiftRight, this, hm, hn, decide_true, Bool.and_true, Bool.not_true, Bool.and_false, Bool.false_or]

/-- SET replaces every PS field but PL. -/
theorem whole_psFields (v : Word) (p : Ps) :
    ((Masks.whole v).psFields p).ie = v.getLsbD psLayout.iePos ∧ ((Masks.whole v).psFields p).et = v.getLsbD psLayout.etPos
      ∧ (∀ n : Nat, n < psLayout.ilWidth → ((Masks.whole v).psFields p).il.getLsbD n = v.getLsbD (psLayout.ilLo + n))
      ∧ ∀ b : BitNo, psFieldAt b = some (.other b) →
          ((Masks.whole v).psFields p).other.getLsbD b.val = v.getLsbD b.val := by
  have F := psLayout_facts
  refine ⟨whole_bit _ _ (by omega) _, whole_bit _ _ (by omega) _, fun n hn => whole_ilField _ _ _ hn, fun b hb => ?_⟩
  exact whole_wordWithin _ _ _ _ (by rw [getLsbD_psOtherMask]; simp [hb])

/-! The masks of WFXL and WFXM at an owner field (R55, R81, R83). -/

/-- The four mask bits at a field are not all 0 exactly when the pair of masks is not zero. -/
theorem maskBits_eq_decide : ∀ a b c d : Bool,
    (a || b || (c || d)) = decide ((levelOfBits a c, levelOfBits b d) ≠ ((0, 0) : Level × Level)) := by
  decide

/-- The fields that WFXL tries. -/
theorem low_touchesPair (v : Word) (k : Slot) :
    (Masks.low v).touchesPair (2 * k.val) = (decide (k.val < 16) && decide (wfxMasksAt v (2 * k.val) ≠ (0, 0))) := by
  have e : 32 + (2 * k.val + 1) = 33 + 2 * k.val := by omega
  by_cases h : k.val < 16
  · have h1 : 2 * k.val < 32 := by omega
    have h2 : 2 * k.val + 1 < 32 := by omega
    simp only [Masks.touchesPair, Masks.touches, getLsbD_low_set, getLsbD_low_clr, h1, h2, h, decide_true, Bool.true_and,
      wfxMasksAt, e]
    exact maskBits_eq_decide _ _ _ _
  · have h1 : ¬2 * k.val < 32 := by omega
    have h2 : ¬2 * k.val + 1 < 32 := by omega
    simp [Masks.touchesPair, Masks.touches, getLsbD_low_set, getLsbD_low_clr, h1, h2, h]

/-- The offset that WFXL gives an owner field. -/
theorem low_offsetAt (v : Word) (k : Slot) (h : k.val < 16) :
    (Masks.low v).offsetAt (2 * k.val) = (wfxMasksAt v (2 * k.val)).1 := by
  have e : 32 + (2 * k.val + 1) = 33 + 2 * k.val := by omega
  have h1 : 2 * k.val < 32 := by omega
  have h2 : 2 * k.val + 1 < 32 := by omega
  simp [Masks.offsetAt, getLsbD_low_set, h1, h2, wfxMasksAt, e]

/-- The fields that WFXM tries. -/
theorem high_touchesPair (v : Word) (k : Slot) :
    (Masks.high v).touchesPair (2 * k.val)
      = (decide (16 ≤ k.val) && decide (wfxMasksAt v (2 * k.val - 32) ≠ (0, 0))) := by
  by_cases h : 16 ≤ k.val
  · have h1 : 32 ≤ 2 * k.val := by omega
    have h2 : 32 ≤ 2 * k.val + 1 := by omega
    have h3 : 2 * k.val < 64 := by omega
    have h4 : 2 * k.val + 1 < 64 := by omega
    have e : 2 * k.val + 1 - 32 = 2 * k.val - 32 + 1 := by omega
    have e2 : 32 + (2 * k.val - 32) = 2 * k.val := by omega
    have e3 : 33 + (2 * k.val - 32) = 2 * k.val + 1 := by omega
    simp only [Masks.touchesPair, Masks.touches, getLsbD_high_set, getLsbD_high_clr, h1, h2, h3, h4, h, decide_true,
      Bool.true_and, wfxMasksAt, e, e2, e3]
    exact maskBits_eq_decide _ _ _ _
  · have h1 : ¬32 ≤ 2 * k.val := by omega
    have h2 : ¬32 ≤ 2 * k.val + 1 := by omega
    simp [Masks.touchesPair, Masks.touches, getLsbD_high_set, getLsbD_high_clr, h1, h2, h]

/-- The offset that WFXM gives an owner field. -/
theorem high_offsetAt (v : Word) (k : Slot) (h : 16 ≤ k.val) :
    (Masks.high v).offsetAt (2 * k.val) = (wfxMasksAt v (2 * k.val - 32)).1 := by
  have h1 : 32 ≤ 2 * k.val := by omega
  have h2 : 32 ≤ 2 * k.val + 1 := by omega
  have h3 : 2 * k.val < 64 := by omega
  have h4 : 2 * k.val + 1 < 64 := by omega
  have e2 : 32 + (2 * k.val - 32) = 2 * k.val := by omega
  have e3 : 33 + (2 * k.val - 32) = 2 * k.val + 1 := by omega
  simp only [Masks.offsetAt, getLsbD_high_set, h1, h2, h3, h4, wfxMasksAt, e2, e3, decide_true, Bool.true_and]

/-! The masks of WFXL and WFXM at any 2-bit field of one half (R78, R81, R83). -/

/-- The offset that WFXL gives a field of either half. -/
theorem low_offsetAt_eq (v : Word) (lo : Nat) (h : lo + 2 ≤ 32 ∨ 32 ≤ lo ∧ lo + 2 ≤ 64) :
    (Masks.low v).offsetAt lo = wfxlOffsetAt v lo := by
  simp only [Masks.offsetAt, getLsbD_low_set, wfxlOffsetAt, wfxMasksAt]
  rcases h with h | ⟨h, -⟩
  · have e : 32 + (lo + 1) = 33 + lo := by omega
    simp only [show lo < 32 by omega, show lo + 1 < 32 by omega, decide_true, Bool.true_and, if_true, e]
  · simp only [show ¬lo < 32 by omega, show ¬lo + 1 < 32 by omega, decide_false, Bool.false_and, if_false]
    rfl

/-- The offset that WFXM gives a field of either half. -/
theorem high_offsetAt_eq (v : Word) (lo : Nat) (h : lo + 2 ≤ 32 ∨ 32 ≤ lo ∧ lo + 2 ≤ 64) :
    (Masks.high v).offsetAt lo = wfxmOffsetAt v lo := by
  simp only [Masks.offsetAt, getLsbD_high_set, wfxmOffsetAt, wfxMasksAt]
  rcases h with h | ⟨h, h2⟩
  · simp only [show ¬32 ≤ lo by omega, show ¬32 ≤ lo + 1 by omega, decide_false, Bool.false_and, if_false]
    rfl
  · have e : 32 + (lo - 32) = lo := by omega
    have e2 : 33 + (lo - 32) = lo + 1 := by omega
    simp only [h, show 32 ≤ lo + 1 by omega, show lo < 64 by omega, show lo + 1 < 64 by omega, decide_true, Bool.true_and,
      if_true, e, e2]

/-- A relative field that neither mask touches is given no offset. -/
theorem offsetAt_of_untouched (m : Masks) (lo : Nat) (h : m.touchesPair lo = false) : m.offsetAt lo = 0 := by
  simp only [Masks.touchesPair, Masks.touches, Bool.or_eq_false_iff] at h
  simp [Masks.offsetAt, h.1.1, h.2.1, levelOfBits_eq_zero]

/-- A relative field whose offset overflows is touched. -/
theorem touched_of_overflow (m : Masks) (lo : Nat) (i : Level) (h : 3 < i.val + (m.offsetAt lo).val) :
    m.touchesPair lo = true := by
  by_contra hne
  rw [offsetAt_of_untouched m lo (by simpa using hne)] at h
  have := i.isLt
  simp at h
  omega

/-- A write to PS is not made when its PL overflows (R84, R85). -/
theorem writeSfr_ps_overflow (m : Masks) (s : State) (h : 3 < s.ps.pl.val + (m.offsetAt psLayout.plLo).val) :
    writeSfr .ps m s = none := by
  simp only [writeSfr, writePs]
  rw [if_pos (touched_of_overflow m _ _ h), (addLevels_eq_none _ _).2 h]

/-! The regular update (R82). -/

/-- A 1-bit field. -/
theorem bit_eq (m : Masks) (b : Nat) (v : Bool) : m.bit b v = regularUpdate m b v := rfl

/-- A word. -/
theorem getLsbD_word (m : Masks) (v : Word) (n : Nat) (h : n < 64) :
    (m.word v).getLsbD n = regularUpdate m n (v.getLsbD n) := by
  simp only [Masks.word, BitVec.getLsbD_or, BitVec.getLsbD_and, BitVec.getLsbD_not, h, decide_true, Bool.true_and,
    regularUpdate]

/-- EV4 holds the updated word. -/
theorem image_ev4 (m : Masks) (e : Ev4) : (m.ev4 e).image = m.word e.image := by
  unfold Masks.ev4
  split
  · next h => exact h.symm
  · rfl

/-- An update that leaves what EV4 holds as it is changes nothing. -/
theorem ev4_of_image_eq (m : Masks) (e : Ev4) (h : (m.ev4 e).image = e.image) : m.ev4 e = e := by
  rw [image_ev4] at h
  exact if_pos h

/-- The field of a line that the masks leave alone means the same after the update (R78). -/
theorem valueAt_word (l : LineFields) (m : Masks) (w : Word) (k : Line) (h : m.LeavesAlone (l.bits k)) :
    l.valueAt (m.word w) k = l.valueAt w k := by
  refine l.valueAt_congr _ _ _ (BitVec.eq_of_getLsbD_eq fun n hn => ?_)
  rw [BitVec.getLsbD_and, BitVec.getLsbD_and, getLsbD_word m w n hn]
  cases hb : (l.bits k).getLsbD n with
  | false => simp
  | true => simp [regularUpdate, h n hb]

/-- An SFR of `PC_W` bits. -/
theorem getLsbD_pcWord (m : Masks) (v : Pc) (n : Nat) (h : n < pcWidth) :
    (m.pcWord v).getLsbD n = regularUpdate m n (v.getLsbD n) := by
  simp only [Masks.pcWord, BitVec.getLsbD_or, BitVec.getLsbD_and, BitVec.getLsbD_not, BitVec.getLsbD_setWidth, h,
    decide_true, Bool.true_and, regularUpdate]

/-- The bits of a word that lie in a mask. -/
theorem getLsbD_wordWithin (m : Masks) (w v : Word) (n : Nat) (h : w.getLsbD n = true) :
    (m.wordWithin w v).getLsbD n = regularUpdate m n (v.getLsbD n) := by
  have hn : n < 64 := by
    by_contra hn
    rw [BitVec.getLsbD_of_ge _ _ (Nat.le_of_not_lt hn)] at h
    simp at h
  simp only [Masks.wordWithin, BitVec.getLsbD_or, BitVec.getLsbD_and, BitVec.getLsbD_not, h, hn, decide_true,
    Bool.and_true, Bool.true_and, regularUpdate]

/-- IL. -/
theorem getLsbD_ilField (m : Masks) (v : Word) (n : Nat) (h : n < psLayout.ilWidth) :
    (m.ilField v).getLsbD n = regularUpdate m (psLayout.ilLo + n) (v.getLsbD n) := by
  have F := psLayout_facts
  have hn : n < 64 := by omega
  have hm : ilMask.getLsbD n = true := by rw [getLsbD_ilMask]; simp [h, hn]
  simp only [Masks.ilField, BitVec.getLsbD_or, BitVec.getLsbD_and, BitVec.getLsbD_not, BitVec.getLsbD_ushiftRight, hm, hn,
    decide_true, Bool.and_true, Bool.true_and, regularUpdate]

/-- Every PS field but PL. -/
theorem psFields_updated (m : Masks) (p : Ps) : FieldsUpdated m p (m.psFields p) :=
  ⟨rfl, rfl, fun n hn => getLsbD_ilField m _ n hn,
    fun b hb => getLsbD_wordWithin m _ _ _ (by rw [getLsbD_psOtherMask]; exact decide_eq_true hb)⟩

/-! The write of an ownership register. -/

/-- The access check of a write through an alias, field by field (R71). -/
theorem mayWrite_ownW (r : OwnReg) (m : Masks) (s : State) :
    s.MayWrite (.ownW r) m ↔ ∀ k : Slot, m.triesOwner r k = true → s.ps.pl ≤ s.owner r k := by
  have es : ∀ k : Slot, slotOfBit ⟨2 * k.val, by omega⟩ = k := by intro k; simp [slotOfBit]
  constructor
  · intro h k hk
    have := h ⟨2 * k.val, by omega⟩
    simp only [Masks.tries, State.ownerAt, es] at this
    apply this
    simpa [Masks.triesOwner] using hk
  · intro h b hb
    simp only [Masks.tries, State.ownerAt] at hb ⊢
    apply h
    simpa [Masks.triesOwner] using hb

/-- The write through an alias, when no field overflows (R83, R86). -/
theorem writeSfr_ownW (r : OwnReg) (m : Masks) (s : State)
    (h : ∀ k : Slot, m.triesOwner r k = true → s.ps.pl.val + (m.offsetAt (2 * k.val)).val ≤ 3) :
    ∃ t, writeSfr (.ownW r) m s = some t
      ∧ (∀ k : Slot, (t.owner r k).val =
          if m.triesOwner r k = true then s.ps.pl.val + (m.offsetAt (2 * k.val)).val else (s.owner r k).val)
      ∧ (∀ q : OwnReg, q ≠ r → t.owners.get q = s.owners.get q)
      ∧ { t with owners := s.owners } = s := by
  have hno : ¬m.ownerOverflow s.ps.pl r = true := by
    simp only [Bool.not_eq_true, Masks.ownerOverflow, List.any_eq_false, Bool.and_eq_true, not_and, List.mem_finRange,
      true_implies]
    intro k hk
    cases ha : addLevels s.ps.pl (m.offsetAt (slotLo k)) with
    | none =>
      have := (addLevels_eq_none _ _).1 ha
      have := h k hk
      simp only [slotLo] at *
      omega
    | some d => simp
  refine ⟨{ s with owners := s.owners.put r (m.ownerFields s.ps.pl r (s.owners.get r)) }, ?_, ?_, ?_, rfl⟩
  · simp only [writeSfr]
    rw [if_neg hno]
  · intro k
    have hf : ({ s with owners := s.owners.put r (m.ownerFields s.ps.pl r (s.owners.get r)) } : State).owner r k
        = if m.triesOwner r k then (addLevels s.ps.pl (m.offsetAt (slotLo k))).getD (s.owner r k) else s.owner r k := by
      simp [State.owner, Masks.ownerFields]
    rw [hf]
    by_cases hk : m.triesOwner r k = true
    · rw [if_pos hk, if_pos hk]
      cases ha : addLevels s.ps.pl (m.offsetAt (slotLo k)) with
      | none =>
        have := (addLevels_eq_none _ _).1 ha
        have := h k hk
        simp only [slotLo] at *
        omega
      | some d =>
        have := (addLevels_eq_some _ _ _).1 ha
        simp only [slotLo] at this
        exact this.symm
    · rw [if_neg hk, if_neg hk]
  · intro q hq
    show (s.owners.put r _).get q = _
    rw [owners_get_put, if_neg hq]

/-- The write through an alias is not made when a field that it tries overflows (R84). -/
theorem writeSfr_ownW_overflow (r : OwnReg) (m : Masks) (s : State) (k : Slot) (hk : m.triesOwner r k = true)
    (h : 3 < s.ps.pl.val + (m.offsetAt (2 * k.val)).val) : writeSfr (.ownW r) m s = none := by
  have : m.ownerOverflow s.ps.pl r = true := by
    simp only [Masks.ownerOverflow, List.any_eq_true]
    refine ⟨k, List.mem_finRange k, ?_⟩
    have := (addLevels_eq_none s.ps.pl (m.offsetAt (slotLo k))).2 h
    simp [hk, this]
  simp only [writeSfr, this, if_true]

/-! Masks that touch nothing. -/

/-- A bit that neither mask touches is in neither. -/
theorem touches_eq_false (m : Masks) (b : Nat) :
    m.touches b = false ↔ m.set.getLsbD b = false ∧ m.clr.getLsbD b = false := by
  simp [Masks.touches]

/-- A 1-bit field that is not touched keeps its value. -/
theorem bit_of_untouched (m : Masks) (b : Nat) (v : Bool) (h : m.touches b = false) : m.bit b v = v := by
  obtain ⟨h1, h2⟩ := (touches_eq_false m b).1 h
  simp [Masks.bit, h1, h2]

/-- A word that is not touched keeps its value. -/
theorem word_of_untouched (m : Masks) (w : Word) (h : ∀ b : BitNo, m.touches b.val = false) : m.word w = w := by
  apply BitVec.eq_of_getLsbD_eq
  intro n hn
  obtain ⟨h1, h2⟩ := (touches_eq_false m n).1 (h ⟨n, hn⟩)
  simp only [Masks.word, BitVec.getLsbD_or, BitVec.getLsbD_and, BitVec.getLsbD_not, h1, h2, hn, decide_true,
    Bool.not_false, Bool.and_true, Bool.or_false]

/-- An SFR of `PC_W` bits that is not touched keeps its value. -/
theorem pcWord_of_untouched (m : Masks) (w : Pc) (h : ∀ b : Nat, b < pcWidth → m.touches b = false) :
    m.pcWord w = w := by
  apply BitVec.eq_of_getLsbD_eq
  intro n hn
  obtain ⟨h1, h2⟩ := (touches_eq_false m n).1 (h n hn)
  rw [getLsbD_pcWord m w n hn, regularUpdate, h1, h2, Bool.not_false, Bool.and_true, Bool.or_false]

/-- A saved status of which no field is tried keeps its value. -/
theorem sps_of_untried (m : Masks) (p : Ps) (j : Level) (h : ∀ b, m.tries (.sps j) b = false) :
    ({ m.psFields p with pl := m.pair psLayout.plLo p.pl } : Ps) = p := by
  have F := psLayout_facts
  have hpl : m.touchesPair psLayout.plLo = false := by
    have := h ⟨psLayout.plLo, by omega⟩
    simpa only [Masks.tries, psFieldAt_pl ⟨psLayout.plLo, by omega⟩ (.inl rfl)] using this
  simp only [Masks.touchesPair, Bool.or_eq_false_iff] at hpl
  have hie : m.touches psLayout.iePos = false := by
    have := h ⟨psLayout.iePos, by omega⟩
    simpa only [Masks.tries, psFieldAt_ie ⟨psLayout.iePos, by omega⟩ rfl] using this
  have het : m.touches psLayout.etPos = false := by
    have := h ⟨psLayout.etPos, by omega⟩
    simpa only [Masks.tries, psFieldAt_et ⟨psLayout.etPos, by omega⟩ rfl] using this
  have hil : m.ilField p.il = p.il := by
    apply BitVec.eq_of_getLsbD_eq
    intro n hn
    simp only [Masks.ilField, BitVec.getLsbD_or, BitVec.getLsbD_and, BitVec.getLsbD_not, BitVec.getLsbD_ushiftRight, hn,
      decide_true, Bool.true_and]
    cases hm : ilMask.getLsbD n with
    | false => simp
    | true =>
      rw [getLsbD_ilMask] at hm
      simp only [Bool.and_eq_true, decide_eq_true_eq] at hm
      have := h ⟨psLayout.ilLo + n, by omega⟩
      simp only [Masks.tries, psFieldAt_il ⟨psLayout.ilLo + n, by omega⟩ ⟨by simp, by simpa using hm.2⟩] at this
      obtain ⟨h1, h2⟩ := (touches_eq_false m _).1 this
      simp only [h1, h2, Bool.and_true, Bool.not_false, Bool.or_false]
  have hother : m.wordWithin psOtherMask p.other = p.other := by
    apply BitVec.eq_of_getLsbD_eq
    intro n hn
    simp only [Masks.wordWithin, BitVec.getLsbD_or, BitVec.getLsbD_and, BitVec.getLsbD_not, hn, decide_true,
      Bool.true_and]
    cases hm : psOtherMask.getLsbD n with
    | false => simp
    | true =>
      have e := getLsbD_psOtherMask ⟨n, hn⟩
      simp only at e
      rw [hm] at e
      have := h ⟨n, hn⟩
      have e' := of_decide_eq_true e.symm
      simp only [Masks.tries, e'] at this
      obtain ⟨h1, h2⟩ := (touches_eq_false m _).1 this
      simp only [h1, h2, Bool.and_true, Bool.not_false, Bool.or_false]
  simp only [Masks.psFields, Masks.pair, bit_of_untouched m _ _ hie, bit_of_untouched m _ _ het, hil, hother,
    bit_of_untouched m _ _ hpl.1, bit_of_untouched m _ _ hpl.2, levelOfBits_levelBit]

/-! Words within a mask. -/

/-- A word has no bit outside a mask exactly when every bit outside the mask is 0. -/
theorem and_mask_iff (v m : Word) : v &&& m = v ↔ ∀ b, m.getLsbD b = false → v.getLsbD b = false := by
  constructor
  · intro h b hb
    rw [← h, BitVec.getLsbD_and, hb, Bool.and_false]
  · intro h
    apply BitVec.eq_of_getLsbD_eq
    intro n hn
    rw [BitVec.getLsbD_and]
    cases hm : m.getLsbD n with
    | true => simp
    | false => rw [h n hm]; rfl

/-- A write within a mask leaves no bit outside it. -/
theorem wordWithin_within (m : Masks) (w old : Word) (h : old &&& w = old) : m.wordWithin w old &&& w = m.wordWithin w old := by
  rw [and_mask_iff] at h ⊢
  intro b hb
  simp only [Masks.wordWithin, BitVec.getLsbD_or, BitVec.getLsbD_and, h b hb, hb, Bool.false_and, Bool.and_false,
    Bool.or_false]

/-- A write of IL leaves no bit above it. -/
theorem ilField_within (m : Masks) (old : Word) (h : old &&& ilMask = old) : m.ilField old &&& ilMask = m.ilField old := by
  rw [and_mask_iff] at h ⊢
  intro b hb
  simp only [Masks.ilField, BitVec.getLsbD_or, BitVec.getLsbD_and, h b hb, hb, Bool.false_and, Bool.and_false,
    Bool.or_false]

end Sys2Proof.Machine
end

