-- ==== Sys2Proof/Laws/Invariant.lean ====
section
/-! SUPPORT. The shared operations keep what the model keeps of every state (`State.Ok`). -/

namespace Sys2Proof.Machine

/-- A PS value of zeros has no bit outside its fields. -/
theorem Ps.zero_ok : Ps.zero.Ok := ⟨BitVec.zero_and, BitVec.zero_and⟩

/-- A PS value made of a draw has no bit outside its fields. -/
theorem Ps.ofDraw_ok (d : ResetDraw) (n : Nat) : (Ps.ofDraw d n).Ok := by
  refine ⟨?_, ?_⟩ <;> simp only [Ps.ofDraw, BitVec.and_assoc, BitVec.and_self]

/-- Another level. -/
theorem Ps.Ok.withPl {p : Ps} (h : p.Ok) (l : Level) : ({ p with pl := l } : Ps).Ok := ⟨h.il, h.other⟩

/-- The FOE bits forced. -/
theorem Ps.Ok.forceFoe {p : Ps} (h : p.Ok) : p.forceFoe.Ok := by
  refine ⟨h.il, ?_⟩
  rw [and_mask_iff]
  intro b hb
  rw [getLsbD_forceFoe_other, (and_mask_iff _ _).1 h.other b hb, (and_mask_iff _ _).1 foe1Mask_within b hb]
  rfl

/-- The remnant state backed up. -/
theorem Ps.Ok.backUp {p q : Ps} (hp : p.Ok) (hq : q.Ok) : (Ps.backUp p q).Ok := by
  refine ⟨hp.il, ?_⟩
  rw [and_mask_iff]
  intro b hb
  rw [getLsbD_backUp_other, (and_mask_iff _ _).1 hp.other b hb, (and_mask_iff _ _).1 hq.other b hb]
  simp

/-- A write of the fields. -/
theorem Ps.Ok.psFields {p : Ps} (h : p.Ok) (m : Masks) : (m.psFields p).Ok :=
  ⟨ilField_within m _ h.il, wordWithin_within m _ _ h.other⟩

/-- One saved status replaced. -/
theorem sps_set_ok (v : Vector Ps 4) (j : Level) (p : Ps) (hv : ∀ m : Level, (v[m]).Ok) (hp : p.Ok) (m : Level) :
    ((v.set j.val p)[m]).Ok := by
  by_cases h : m = j
  · subst h
    rw [level_set_self]
    exact hp
  · rw [level_set_ne _ _ _ _ h]
    exact hv m

/-- Taking an exception. -/
theorem State.Ok.takeException {s : State} (h : s.Ok) (cat : Category) (o : Level) (cause : Cause) (a : Pc) :
    (takeException cat o cause a s).Ok := by
  refine ⟨h.mem, ?_, ?_, h.ws, h.owners, fun e => by simp at e⟩
  · simp only [takeException_ps, entryPs]
    refine Ps.Ok.withPl (Ps.Ok.forceFoe ?_) _
    split
    · exact h.ps
    · exact h.sps _
  · intro j
    simp only [takeException_sps]
    exact sps_set_ok _ _ _ h.sps (h.ps.withPl _) j

/-- Returning from one. -/
theorem State.Ok.returnFromException {s : State} (h : s.Ok) (d : Level) : (returnFromException d s).Ok := by
  refine ⟨h.mem, (h.sps _).withPl _, ?_, h.ws, h.owners, h.woken⟩
  intro j
  simp only [returnFromException_sps]
  split
  · exact h.sps j
  · exact sps_set_ok _ _ _ h.sps ((h.sps _).backUp h.ps) j

/-- Writing an SFR. -/
theorem State.Ok.writeSfr {s t : State} (h : s.Ok) (sfr : Sfr) (m : Masks) (hu : writeSfr sfr m s = some t) : t.Ok := by
  have f := writeSfr_frame _ _ _ _ hu
  have g := writeSfr_target _ _ _ _ hu
  refine ⟨by rw [f.mem]; exact h.mem, ?_, ?_, ?_, ?_, by rw [f.woken, f.idle]; exact h.woken⟩
  · by_cases e : t.ps = s.ps
    · rw [e]
      exact h.ps
    · have := g.ps e
      subst this
      simp only [Machine.writeSfr, writePs] at hu
      split at hu
      · split at hu
        · simp at hu
        · simp only [Option.some.injEq] at hu
          rw [← hu]
          exact (h.ps.psFields m).withPl _
      · simp only [Option.some.injEq] at hu
        rw [← hu]
        exact h.ps.psFields m
  · intro j
    by_cases e : t.sps[j] = s.sps[j]
    · rw [e]
      exact h.sps j
    · have := g.sps j e
      subst this
      simp only [Machine.writeSfr, Option.some.injEq] at hu
      rw [← hu]
      simp only [level_set_self]
      exact ((h.sps j).psFields m).withPl _
  · by_cases e : t.ws = s.ws
    · rw [e]
      exact h.ws
    · have := g.ws e
      subst this
      simp only [Machine.writeSfr, Option.some.injEq] at hu
      rw [← hu]
      exact wordWithin_within m _ _ h.ws
  · intro r k hk
    by_cases e : t.owners.get r = s.owners.get r
    · have := h.owners r k hk
      simp only [State.owner, e] at this ⊢
      exact this
    · have := g.owners r e
      subst this
      simp only [Machine.writeSfr] at hu
      split at hu
      · simp at hu
      · simp only [Option.some.injEq] at hu
        have hn : m.triesOwner r k = false := by simp [Masks.triesOwner, hk]
        have : t.owner r k = s.owner r k := by
          rw [← hu]
          simp [State.owner, Masks.ownerFields, hn]
        rw [this]
        exact h.owners r k hk

/-- What an instruction does when it completes. -/
theorem State.Ok.completes {i : Instr} {s t : State} (h : s.Ok) (hw : s.woken = false) (hc : Completes s i t) : t.Ok := by
  cases hc with
  | register => exact ⟨h.mem, h.ps, h.sps, h.ws, h.owners, h.woken⟩
  | nothing => exact h
  | idle i mode hi => exact ⟨h.mem, h.ps, h.sps, h.ws, h.owners, fun e => by rw [hw] at e; simp at e⟩
  | returns d hd => exact h.returnFromException d
  | write i sfr m r u hi _ hu => exact h.writeSfr sfr m hu
  | exchange sfr m r v u _ hu =>
    have := h.writeSfr sfr m hu
    exact ⟨this.mem, this.ps, this.sps, this.ws, this.owners, this.woken⟩

/-- An instruction that completes leaves the wake mark alone. -/
theorem completes_woken (i : Instr) (s t : State) (hc : Completes s i t) : t.woken = s.woken := by
  cases hc with
  | register | nothing | idle | returns => rfl
  | write i sfr m r u hi _ hu => exact (writeSfr_frame _ _ _ _ hu).woken
  | exchange sfr m r v u _ hu => exact (writeSfr_frame _ _ _ _ hu).woken

/-- The end of a bundle. -/
theorem State.Ok.endBundle {s : State} (h : s.Ok) : s.endBundle.Ok :=
  ⟨h.mem, h.ps, h.sps, h.ws, h.owners, h.woken⟩

end Sys2Proof.Machine
end

