-- ==== Sys2Proof/Laws/Memory.lean ====
section
/-! SUPPORT. Instruction memory: every operation keeps the canonical form, and a read after a write. -/

namespace Sys2Proof.Machine

/-- A canonical memory is a canonical tail after its first cell, which lies below everything in it. -/
theorem memWf_cons (k : Nat) (v : Byte) (m : List Host.Cell) :
    memWf ((k, v) :: m) = true ↔ k < addressCount ∧ memWf m = true ∧ ∀ c ∈ m, k < c.1 := by
  induction m generalizing k v with
  | nil => simp [memWf]
  | cons c m ih =>
    obtain ⟨l, w⟩ := c
    have tail := ih l w
    constructor
    · intro h
      simp only [memWf, Bool.and_eq_true, decide_eq_true_eq] at h
      obtain ⟨hl, -, hm⟩ := tail.1 h.2
      refine ⟨by omega, h.2, ?_⟩
      rintro c (_ | ⟨_, hc⟩)
      · exact h.1
      · have := hm c hc
        omega
    · rintro ⟨-, hw, hm⟩
      simp only [memWf, Bool.and_eq_true, decide_eq_true_eq]
      exact ⟨hm (l, w) (by simp), hw⟩

/-- The addresses of a memory after a write are those before it and the one written. -/
theorem mem_memInsert (m : List Host.Cell) (a : Nat) (v : Byte) (c : Host.Cell) (h : c ∈ memInsert m a v) :
    c.1 = a ∨ c ∈ m := by
  induction m with
  | nil => simp_all [memInsert]
  | cons d m ih =>
    obtain ⟨k, w⟩ := d
    simp only [memInsert] at h
    split at h
    · rcases List.mem_cons.1 h with rfl | h <;> simp_all
    · split at h
      · rcases List.mem_cons.1 h with rfl | h <;> simp_all
      · rcases List.mem_cons.1 h with rfl | h
        · simp
        · rcases ih h with h | h <;> simp [h]

/-- An insertion below the top of the address space keeps the canonical form. -/
theorem memInsert_wf (m : List Host.Cell) (a : Nat) (v : Byte) (ha : a < addressCount) (h : memWf m = true) :
    memWf (memInsert m a v) = true := by
  induction m with
  | nil => simpa [memInsert, memWf] using ha
  | cons d m ih =>
    obtain ⟨k, w⟩ := d
    obtain ⟨hk, hm, hlt⟩ := (memWf_cons k w m).1 h
    simp only [memInsert]
    split
    · refine (memWf_cons a v _).2 ⟨ha, h, ?_⟩
      intro c hc
      rcases List.mem_cons.1 hc with rfl | hc
      · assumption
      · have := hlt c hc
        omega
    · split
      · subst_vars
        exact (memWf_cons _ v m).2 ⟨ha, hm, hlt⟩
      · refine (memWf_cons k w _).2 ⟨hk, ih hm, ?_⟩
        intro c hc
        rcases mem_memInsert m a v c hc with hc | hc
        · omega
        · exact hlt c hc

/-- A write keeps the canonical form. -/
theorem memWrite_wf (m : List Host.Cell) (a : Nat) (v : Byte) (h : memWf m = true) : memWf (memWrite m a v) = true := by
  unfold memWrite
  split
  · exact memInsert_wf m a v ‹_› h
  · exact h

/-- A write of several bytes keeps the canonical form. -/
theorem memWriteBytes_wf (vs : List Byte) (m : List Host.Cell) (a : Nat) (h : memWf m = true) :
    memWf (memWriteBytes m a vs) = true := by
  induction vs generalizing m a with
  | nil => exact h
  | cons v vs ih => exact ih _ _ (memWrite_wf m a v h)

/-- A byte below everything in a memory is not in it. -/
theorem memRead_below (m : List Host.Cell) (a : Nat) (h : ∀ c ∈ m, a < c.1) : memRead m a = none := by
  induction m with
  | nil => rfl
  | cons d m ih =>
    have := h d (by simp)
    rw [memRead, if_neg (by omega)]
    exact ih fun c hc => h c (by simp [hc])

/-- What a read gives after an insertion into a canonical memory. -/
theorem memRead_memInsert (m : List Host.Cell) (a b : Nat) (v : Byte) (h : memWf m = true) :
    memRead (memInsert m a v) b = if b = a then some v else memRead m b := by
  induction m with
  | nil => simp [memInsert, memRead]
  | cons d m ih =>
    obtain ⟨k, w⟩ := d
    obtain ⟨-, hm, -⟩ := (memWf_cons k w m).1 h
    simp only [memInsert]
    split
    · simp [memRead]
    · split
      · subst_vars
        simp only [memRead]
        split <;> rfl
      · simp only [memRead, ih hm]
        split <;> split <;> first | rfl | omega

/-- A read after a write: the byte written at its address, what was there elsewhere. -/
theorem memRead_memWrite (m : List Host.Cell) (a b : Nat) (v : Byte) (h : memWf m = true) (ha : a < addressCount) :
    memRead (memWrite m a v) b = if b = a then some v else memRead m b := by
  rw [memWrite, if_pos ha, memRead_memInsert m a b v h]

/-- A write of several bytes leaves every address before them alone. -/
theorem memRead_memWriteBytes_before (vs : List Byte) (m : List Host.Cell) (a b : Nat) (h : memWf m = true)
    (ha : a + vs.length ≤ addressCount) (hb : b < a) : memRead (memWriteBytes m a vs) b = memRead m b := by
  induction vs generalizing m a with
  | nil => rfl
  | cons v vs ih =>
    simp only [List.length_cons] at ha
    rw [memWriteBytes, ih _ _ (memWrite_wf m a v h) (by omega) (by omega), memRead_memWrite m a b v h (by omega),
      if_neg (by omega)]

/-- A write of several bytes below the top of the address space is read back. -/
theorem memRead_memWriteBytes_within (vs : List Byte) (m : List Host.Cell) (a : Nat) (h : memWf m = true)
    (ha : a + vs.length ≤ addressCount) (n : Nat) (hn : n < vs.length) :
    memRead (memWriteBytes m a vs) (a + n) = some vs[n] := by
  induction vs generalizing m a n with
  | nil => simp at hn
  | cons v vs ih =>
    simp only [List.length_cons] at ha hn
    cases n with
    | zero =>
      rw [memWriteBytes, memRead_memWriteBytes_before _ _ _ _ (memWrite_wf m a v h) (by omega) (by omega),
        memRead_memWrite m a _ v h (by omega), if_pos (Nat.add_zero a)]
      rfl
    | succ n =>
      have := ih (memWrite m a v) (a + 1) (memWrite_wf m a v h) (by omega) n (by omega)
      rw [memWriteBytes, List.getElem_cons_succ, ← this]
      congr 1
      omega

/-- Placing an instruction keeps the canonical form. -/
theorem withFetchWord_wf (s : State) (nbits w : Nat) (h : memWf s.mem = true) :
    memWf (s.withFetchWord nbits w).mem = true :=
  memWriteBytes_wf _ _ _ h

/-- The reset state's memory is canonical. -/
theorem reset_mem_wf : memWf State.reset.mem = true := rfl

end Sys2Proof.Machine
end

