-- ==== Sys2Proof/Laws/PerInstr.lean ====
section
/-! SUPPORT. What holds of every instruction as syntax, one lemma per constructor. Both families are about the model's
stand-in encoding (notes/assumptions/1.md). -/

namespace Sys2Proof.Laws

/-! The encoding of an instruction takes the bytes that its size says. -/

/-- The bytes of `i` are as many as its size. -/
def EncodedSize.Statement (i : Instr) : Prop := ∀ more : Bool, (encodeInstr more i).length = instrSize i

theorem EncodedSize.rfe : EncodedSize.Statement .rfe := fun _ => rfl
theorem EncodedSize.get (d : Reg) (sfr : Sfr) : EncodedSize.Statement (.get d sfr) := fun _ => rfl
theorem EncodedSize.iget (z : Reg) : EncodedSize.Statement (.iget z) := fun _ => rfl
theorem EncodedSize.set (sfr : Sfr) (r : Reg) : EncodedSize.Statement (.set sfr r) := fun _ => rfl
theorem EncodedSize.wfxl (sfr : Sfr) (r : Reg) : EncodedSize.Statement (.wfxl sfr r) := fun _ => rfl
theorem EncodedSize.wfxm (sfr : Sfr) (r : Reg) : EncodedSize.Statement (.wfxm sfr r) := fun _ => rfl
theorem EncodedSize.rswap (sfr : Sfr) (r : Reg) : EncodedSize.Statement (.rswap sfr r) := fun _ => rfl
theorem EncodedSize.tlb (m : BitVec 8) : EncodedSize.Statement (.tlb m) := fun _ => rfl
theorem EncodedSize.await : EncodedSize.Statement .await := fun _ => rfl
theorem EncodedSize.sleep : EncodedSize.Statement .sleep := fun _ => rfl
theorem EncodedSize.stop : EncodedSize.Statement .stop := fun _ => rfl
theorem EncodedSize.make (d : Reg) (imm : Word) : EncodedSize.Statement (.make d imm) := fun _ => rfl
theorem EncodedSize.nop : EncodedSize.Statement .nop := fun _ => rfl
theorem EncodedSize.scall (n : BitVec 16) : EncodedSize.Statement (.scall n) := fun _ => rfl

/-! The operands of an encoded instruction are read back. -/

/-- The decoder reads the operands of `i` back from the bytes of `i`, whatever follows them. -/
def OperandsReadBack.Statement (i : Instr) : Prop :=
  ∀ rest : List Byte,
    decodeOperands (opcodeOf i) (operandBytes i).1 (operandBytes i).2 (sfrByte i) (tailBytes i ++ rest) = .ok (i, rest)

theorem OperandsReadBack.rfe : OperandsReadBack.Statement .rfe := fun _ => rfl
theorem OperandsReadBack.get (d : Reg) (sfr : Sfr) : OperandsReadBack.Statement (.get d sfr) := fun rest => by
  simp only [decodeOperands, opcodeOf, operandBytes, sfrByte, sfrAndReg_ofNat]; rfl
theorem OperandsReadBack.iget (z : Reg) : OperandsReadBack.Statement (.iget z) := fun rest => by
  simp only [decodeOperands, opcodeOf, operandBytes, sfrByte, oneReg, regOperand_ofNat, if_true]; rfl
theorem OperandsReadBack.set (sfr : Sfr) (r : Reg) : OperandsReadBack.Statement (.set sfr r) := fun rest => by
  simp only [decodeOperands, opcodeOf, operandBytes, sfrByte, sfrAndReg_ofNat]; rfl
theorem OperandsReadBack.wfxl (sfr : Sfr) (r : Reg) : OperandsReadBack.Statement (.wfxl sfr r) := fun rest => by
  simp only [decodeOperands, opcodeOf, operandBytes, sfrByte, sfrAndReg_ofNat]; rfl
theorem OperandsReadBack.wfxm (sfr : Sfr) (r : Reg) : OperandsReadBack.Statement (.wfxm sfr r) := fun rest => by
  simp only [decodeOperands, opcodeOf, operandBytes, sfrByte, sfrAndReg_ofNat]; rfl
theorem OperandsReadBack.rswap (sfr : Sfr) (r : Reg) : OperandsReadBack.Statement (.rswap sfr r) := fun rest => by
  simp only [decodeOperands, opcodeOf, operandBytes, sfrByte, sfrAndReg_ofNat]; rfl
theorem OperandsReadBack.tlb (m : BitVec 8) : OperandsReadBack.Statement (.tlb m) := fun _ => rfl
theorem OperandsReadBack.await : OperandsReadBack.Statement .await := fun _ => rfl
theorem OperandsReadBack.sleep : OperandsReadBack.Statement .sleep := fun _ => rfl
theorem OperandsReadBack.stop : OperandsReadBack.Statement .stop := fun _ => rfl
theorem OperandsReadBack.make (d : Reg) (imm : Word) : OperandsReadBack.Statement (.make d imm) := fun rest => by
  simp only [decodeOperands, opcodeOf, operandBytes, sfrByte, oneReg, regOperand_ofNat, if_true, immediate_tailBytes]
theorem OperandsReadBack.nop : OperandsReadBack.Statement .nop := fun _ => rfl
theorem OperandsReadBack.scall (n : BitVec 16) : OperandsReadBack.Statement (.scall n) := fun rest => by
  simp only [decodeOperands, opcodeOf, operandBytes, sfrByte, if_true, selector_bytes]; rfl

end Sys2Proof.Laws
end

