-- ==== Sys2Proof/Tests/Slice0.lean ====
section
/-! SUPPORT. The model's own tests: the smoke test of WellFormed, the words written out from the stand-in encoding, one
step of each instruction with the result the spec gives (95_test_vectors.md), and for each obligation with hypotheses a
state and operands that meet them all. How many general registers there are is open (R10), so the tests name `$r0`, the
one that exists for certain. -/

namespace Sys2Proof.Tests

open Sys2Proof.Machine

/-! ## Well-formed bundles: an ill-formed bundle for each check. -/

/-- A bundle holds an instruction: the model's choice (log 33). -/
theorem test_wf_refuses_empty : Bundle.problem [] 0 = some .empty := by decide

/-- R51: SET is alone in its bundle. -/
theorem test_wf_refuses_set_with_another : Bundle.problem [.set .ps 0, .nop] 8 = some .notAlone := by decide

/-- R50: the bundle of SET has size 4. -/
theorem test_wf_refuses_set_of_size_eight : Bundle.problem [.set .ps 0] 8 = some .sizeNotFour := by decide

/-- Two writes of one register have no order: the model's choice (log 33). -/
theorem test_wf_refuses_double_write : Bundle.problem [.make 0 0#64, .get 0 .ps] 16 = some .orderOpen := by decide

/-- R122: a system call may share its bundle. -/
theorem test_wf_accepts_scall_with_make : Bundle.WellFormed [.make 0 0#64, .scall 0] 16 := by decide

/-! ## Decoding: every constructor's word, written out from the table in Decode.lean. -/

theorem test_decode_rfe : decodeTableWord 32 0x01000000 = some .rfe := by decide
theorem test_decode_get : decodeTableWord 32 0x02220000 = some (.get 0 (.own .ito)) := by decide
theorem test_decode_iget : decodeTableWord 32 0x03000000 = some (.iget 0) := by decide
theorem test_decode_set : decodeTableWord 32 0x04080000 = some (.set (.sps 0) 0) := by decide
theorem test_decode_wfxl : decodeTableWord 32 0x052A0000 = some (.wfxl (.ownW .ito) 0) := by decide
theorem test_decode_wfxm : decodeTableWord 32 0x06000000 = some (.wfxm .ps 0) := by decide
theorem test_decode_rswap : decodeTableWord 32 0x070C0000 = some (.rswap (.spc 0) 0) := by decide
theorem test_decode_tlb : decodeTableWord 32 0x080000FF = some (.tlb 255) := by decide
theorem test_decode_await : decodeTableWord 32 0x09000000 = some .await := by decide
theorem test_decode_sleep : decodeTableWord 32 0x0A000000 = some .sleep := by decide
theorem test_decode_stop : decodeTableWord 32 0x0B000000 = some .stop := by decide
theorem test_decode_make : decodeTableWord 96 0x00000001000003000C000000 = some (.make 0 0x0000000100000300#64) := by
  decide
theorem test_decode_nop : decodeTableWord 32 0x0D000000 = some .nop := by decide
theorem test_decode_scall : decodeTableWord 32 0x0E000102 = some (.scall 0x0102#16) := by decide

/-- The two operand bytes are a register number, low byte first: `$r258` where it exists. -/
theorem test_decode_register (h : 258 < gprCount) : decodeTableWord 32 0x03000102 = some (.iget ⟨258, h⟩) := by
  have hr : regOperand 2#8 1#8 = .ok ⟨258, h⟩ := dif_pos h
  show (match decodeBundle [2#8, 1#8, 0#8, 3#8, 0#8, 0#8, 0#8, 0#8, 0#8, 0#8, 0#8, 0#8] with
    | .ok ([i], _) => some i
    | _ => none) = _
  simp only [decodeBundle, maxBundle, decodeUpTo, decodeInstr, decodeOperands, headerOnly, oneReg, hr, if_true]
  rfl

/-- A register number that does not exist is rejected. -/
theorem test_decode_no_register (h : ¬258 < gprCount) : decodeBundle [2#8, 1#8, 0#8, 3#8] = .error .badOperand := by
  have hr : regOperand 2#8 1#8 = .error .badOperand := dif_neg h
  simp only [decodeBundle, maxBundle, decodeUpTo, decodeInstr, decodeOperands, headerOnly, oneReg, hr, if_true]
  rfl

/-- An operand that is not used, an SFR ordinal without SFR, an opcode without instruction and a truncated MAKE are
rejected. -/
theorem test_decode_rejects :
    decodeBundle [1#8, 0#8, 0#8, 13#8] = .error .badOperand ∧ decodeBundle [0#8, 0#8, 7#8, 2#8] = .error .badSfr
      ∧ decodeBundle [0#8, 0#8, 0#8, 15#8] = .error .badOpcode ∧ decodeBundle [0#8, 0#8, 0#8, 12#8, 1#8] = .error .truncated := by
  decide

/-! ## States. -/

/-- Address 0x1000, as far as an address is wide. -/
def pcA : Pc := BitVec.ofNat pcWidth 0x1000

/-- Address 0x1004. -/
def pcB : Pc := BitVec.ofNat pcWidth 0x1004

/-- Address 0x2000. -/
def pcC : Pc := BitVec.ofNat pcWidth 0x2000

/-- The bundle at 0x1000, of size 4, executes in the reset state. -/
def start : State := { State.reset with pc := pcA, nextBundle := pcB }

/-- `start` with PS of level `l`, everything owned by PL3: any instruction may run and any field may be written. -/
def delegated (l : Level) : State :=
  { start with
    ps := { Ps.zero with pl := l }
    owners :=
      { syo := Vector.replicate 32 3, hto := Vector.replicate 32 3, ito := Vector.replicate 32 3,
        dbo := Vector.replicate 32 3, mo := Vector.replicate 32 3, pso := Vector.replicate 32 3 } }

/-- `start` at level `l`, everything owned by PL0. -/
def confined (l : Level) : State := { start with ps := { Ps.zero with pl := l } }

/-- `s` with every general register at `v`. -/
def withRegs (v : Word) (s : State) : State := { s with gpr := Vector.replicate gprCount v }

/-- What holds of a state when everything is owned by PL3. -/
theorem delegated_owner (l : Level) (r : OwnReg) (k : Slot) : (delegated l).owner r k = 3 := by
  cases r <;> simp [delegated, State.owner, Owners.get]

/-- Any instruction may run in a state with the owners of `delegated`. -/
theorem mayExecute_of_delegated (s : State) (l : Level) (h : s.owners = (delegated l).owners) (op : Op) :
    s.MayExecute op := by
  have ho : ∀ k : Slot, s.owner .mo k = 3 := fun k => by
    have := delegated_owner l .mo k
    simp only [State.owner, ← h] at this
    exact this
  simp only [State.MayExecute, State.instrOwners, ho]
  split
  · rfl
  · split
    · rfl
    · have : ¬(3 : Level) < s.ps.pl := by
        generalize s.ps.pl = x
        revert x
        decide
      simp [this]

/-- PL0 may write anything. -/
theorem mayWrite_of_pl0 (s : State) (h : s.ps.pl = 0) (sfr : Sfr) (m : Masks) : s.MayWrite sfr m := by
  intro b _
  rw [h]
  exact Fin.zero_le _

/-- A level may write the PS fields that PL3 owns. -/
theorem mayWrite_ps_of_delegated (s : State) (l : Level) (h : s.owners = (delegated l).owners) (m : Masks) :
    s.MayWrite .ps m := by
  intro b _
  have : s.ownerAt .ps b = 3 := by
    have := delegated_owner l .pso (psOwnerSlot b)
    simp only [State.owner, ← h] at this
    exact this
  rw [this]
  generalize s.ps.pl = x
  revert x
  decide

/-- `start` in an idle mode with the three WU bits at `wu`. -/
def idling (mode : Idle) (wu : Bool) : State :=
  { start with idle := mode, ws := { wu0 := wu, wu1 := wu, wu2 := wu, other := 0#64 } }

/-- Some number names no SFR: there are more numbers than SFRs. -/
theorem exists_unused_index : ∃ w : Word, ∀ sfr : Sfr, sfrIndex sfr ≠ w := by
  by_contra h
  simp only [not_exists, not_forall, not_not] at h
  have hsub : (List.range 40).map (BitVec.ofNat 64) ⊆ allSfrs.map sfrIndex := by
    intro w _
    obtain ⟨f, hf⟩ := h w
    exact List.mem_map.2 ⟨f, mem_allSfrs f, hf⟩
  have hn : ((List.range 40).map (BitVec.ofNat 64)).Nodup := by decide
  have := (List.subperm_of_subset hn hsub).length_le
  simp only [List.length_map, List.length_range] at this
  have hl : allSfrs.length = 39 := by decide
  omega

/-- Every line registered, enabled, of a level above 0, with PS.IE at 1 and PS.IL at 0. -/
def interrupted : State :=
  { start with
    ps := { Ps.zero with ie := true }
    ilr := ilrFields.raised
    itEnable := enableFields.raised
    itLevel := levelFields.raised }

/-- The line can be taken. -/
theorem mem_pending_interrupted : (3 : Line) ∈ interrupted.pending :=
  List.mem_filter.2 ⟨List.mem_finRange _, by
    have h := lineFields_ok
    have hi : ilrFields.valueAt ilrFields.raised 3 ≠ 0 := (ilrFields.ok_facts h.1).2 3 rfl
    have he : enableFields.valueAt enableFields.raised 3 ≠ 0 := (enableFields.ok_facts h.2.2.1).2 3 rfl
    have hl : levelFields.valueAt levelFields.raised 3 ≠ 0 := (levelFields.ok_facts h.2.2.2).2 3 rfl
    have h0 : interrupted.ps.il.toNat = 0 := rfl
    have h3 : lineExists 3 = true := rfl
    have hie : interrupted.ps.ie = true := rfl
    simp only [State.eligible, State.registered, State.itEnabled, State.lineLevel, h0, h3, hie, Bool.and_eq_true,
      decide_eq_true_eq, and_true, true_and]
    exact ⟨⟨he, Nat.pos_of_ne_zero hl⟩, hi⟩⟩

/-! ## One step of each instruction: the vectors of 95_test_vectors.md. -/

/-- F1: a vertical RFE from PL0 to PL2. -/
theorem test_rfe_vertical :
    ∃ t, exec .rfe { start with
          sps := start.sps.set 0 { pl := 2, ie := true, et := false, il := 1#64, other := 0#64 }
          spc := start.spc.set 0 pcC } = .next t
      ∧ t.ps = { pl := 2, ie := true, et := false, il := 1#64, other := 0#64 } ∧ t.pc = pcC
      ∧ t.spc[0] = pcC ∧ (t.sps[0]).pl = 2 ∧ (t.sps[0]).ie = true :=
  ⟨_, rfl, rfl, rfl, rfl, rfl, rfl⟩

/-- F3: an RFE from PL2 with relative level 2 overflows; HTO is 0, so PL0 takes the trap. -/
theorem test_rfe_overflow (s : State) (hp : s.ps.pl = 2) (hs : (s.sps[s.ps.pl]).pl = 2) (hm : s.MayExecute .rfe)
    (ho : ∀ k, s.owner .hto k = 0) :
    ∃ t, exec .rfe s = .next t ∧ t.ps.pl = 0 ∧ t.spc[0] = s.pc ∧ (t.sps[0]).pl = 2 := by
  have : rfeEffect s = .trap (s.trapOwner .plo) .plo := by
    unfold rfeEffect
    rw [guardOwned_of_mayExecute _ _ _ hm, (addLevels_eq_none _ _).2 (by rw [hs, hp]; decide)]
  refine ⟨takeTrap (s.trapOwner .plo) .plo s, by simp only [exec, execRfe, this, commit], ?_, ?_, ?_⟩ <;>
    simp [takeTrap, State.trapOwner, ho, destLevel, hp]

/-- G1: at PL2, with IT0 owned by PL1, IT4 by PL3 and the rest by PL0, ITO reads 0x301. -/
def interruptOwners : State :=
  { start with
    ps := { Ps.zero with pl := 2 }
    owners := { (delegated 2).owners with ito := ((Vector.replicate 32 0).set 0 1).set 4 3 } }

/-- G1: the low bits of what GET reads. -/
theorem test_get_ito :
    (interruptOwners.readSfr (.own .ito)).getLsbD 0 = true ∧ (interruptOwners.readSfr (.own .ito)).getLsbD 1 = false
      ∧ (interruptOwners.readSfr (.own .ito)).getLsbD 8 = true
      ∧ (interruptOwners.readSfr (.own .ito)).getLsbD 9 = true := by
  refine ⟨(getLsbD_readSfr _ _ 0).trans ?_, (getLsbD_readSfr _ _ 1).trans ?_, (getLsbD_readSfr _ _ 8).trans ?_,
    (getLsbD_readSfr _ _ 9).trans ?_⟩ <;> decide

/-- G3: EA_PL[1] reads as zero at PL2. -/
theorem test_get_ea_raz : ({ delegated 2 with ea := Vector.replicate 4 (BitVec.allOnes pcWidth) } : State).readSfr (.ea 1) = 0#64 := by
  apply BitVec.eq_of_getLsbD_eq
  intro n hn
  exact (getLsbD_readSfr _ _ ⟨n, hn⟩).trans (by rw [BitVec.getLsbD_zero]; rfl)

/-- G9: IGET with the number of PS reads PS, at PL3 with absolute level 3. -/
theorem test_iget_ps :
    ∃ t, exec (.iget 0) (withRegs (sfrIndex .ps) (delegated 3)) = .next t
      ∧ t.readReg 0 = (withRegs (sfrIndex .ps) (delegated 3)).readSfr .ps := by
  have hr : (withRegs (sfrIndex .ps) (delegated 3)).readReg 0 = sfrIndex .ps := by simp [withRegs, State.readReg]
  have hm := mayExecute_of_delegated (withRegs (sfrIndex .ps) (delegated 3)) 3 rfl .iget
  refine ⟨((withRegs (sfrIndex .ps) (delegated 3)).writeReg 0 ((withRegs (sfrIndex .ps) (delegated 3)).readSfr .ps)).endBundle,
    ?_, readReg_writeReg_self _ _ _⟩
  simp only [exec, execIget, igetEffect, hr, sfrOfIndex_sfrIndex, readEffect, sfrAccess, guardOwned_of_mayExecute _ _ _ hm]
  rfl

/-- S6: at PL0, SET stores relative level 3 in SPS_PL[0] with no check. -/
theorem test_set_sps :
    ∃ t, exec (.set (.sps 0) 0) (withRegs (BitVec.allOnes 64) start) = .next t ∧ (t.sps[(0 : Level)]).pl = 3 := by
  refine ⟨_, rfl, ?_⟩
  have F := psLayout_facts
  show levelOfBits ((Masks.whole _).bit _ _) ((Masks.whole _).bit _ _) = 3
  have hr : (withRegs (BitVec.allOnes 64) start).readReg 0 = BitVec.allOnes 64 := by simp [withRegs, State.readReg]
  have h1 : psLayout.plLo < 64 := by omega
  have h2 : psLayout.plLo + 1 < 64 := by omega
  rw [whole_bit _ _ h1, whole_bit _ _ h2, hr, BitVec.getLsbD_allOnes, BitVec.getLsbD_allOnes]
  simp only [h1, h2, decide_true]
  decide

/-- S3: at PL1, SET on SYOW traps PRIVILEGE to PL0, which owns the fields. -/
theorem test_set_syow_privilege (k : Slot) (hk : ownField .syo k = true) :
    (2 * k.val < 64) ∧ (confined 1).violated (.ownW .syo) (Masks.whole 2#64) ≠ [] := by
  refine ⟨by omega, fun h => ?_⟩
  have hw := (violated_eq_nil _ _ _).1 h
  have ht : (Masks.whole 2#64).triesOwner .syo k = true := by
    simp only [Masks.triesOwner, slotLo, whole_touchesPair _ (2 * k.val) (by omega), hk, Bool.and_self]
  have := (mayWrite_ownW _ _ _).1 hw k ht
  revert this
  have : (confined 1).owner .syo k = 0 := by simp [confined, start, State.reset, State.owner, Owners.get, Owners.reset, ownedByPl0]
  rw [this]
  decide

/-- W1: the source's example at PL0. -/
theorem test_wfxl_itow_pl0 :
    ∃ t, exec (.wfxl (.ownW .ito) 0) (withRegs 0x0000000100000300#64 start) = .next t ∧ t.owner .ito 0 = 1
      ∧ t.owner .ito 4 = 0 ∧ t.owner .ito 12 = 0 ∧ t.pc = pcB :=
  ⟨_, rfl, rfl, rfl, rfl, rfl⟩

/-- W3: the source's example at PL1 while PL0 owns the lines traps PRIVILEGE to PL0 and writes nothing. -/
theorem test_wfxl_itow_privilege :
    (confined 1).violated (.ownW .ito) (Masks.low 0x0000000100000300#64) ≠ [] ∧ start.owner .ito 0 = 0 := by decide

/-- W18: at PL1, where line 16 exists and PL1 owns it, WFXM gives it to PL3. -/
theorem test_wfxm_itow (h : lineExists 16 = true) :
    ∃ t, writeSfr (.ownW .ito) (Masks.high 0x0000000200000000#64) (confined 1) = some t ∧ t.owner .ito 16 = 3 := by
  have hs : ∀ k : Slot, (Masks.high 0x0000000200000000#64).triesOwner .ito k = true → k = 16 := by
    intro k hk
    simp only [Masks.triesOwner, slotLo, Bool.and_eq_true] at hk
    have h16 : ∀ k : Slot, (Masks.high 0x0000000200000000#64).touchesPair (2 * k.val) = true → k = 16 := by decide
    exact h16 k hk.1
  obtain ⟨t, ht, hv, -⟩ := writeSfr_ownW .ito (Masks.high 0x0000000200000000#64) (confined 1) (by
    intro k hk
    rw [hs k hk]
    decide)
  refine ⟨t, ht, Fin.ext ?_⟩
  have ht16 : (Masks.high 0x0000000200000000#64).triesOwner .ito 16 = true := by
    simp only [Masks.triesOwner, slotLo, ownField, h, Bool.and_true]
    decide
  rw [hv 16, if_pos ht16]
  rfl

/-- R89: at PL0, RSWAP of PS, where the table lets it, with a register of zeros returns the PS and clears IE. -/
theorem test_rswap_ps (hk : sfrAccess .rswap .ps = true) :
    ∃ t, exec (.rswap .ps 0) { start with ps := { Ps.zero with ie := true } } = .next t ∧ t.ps.ie = false
      ∧ t.readReg 0 = ({ start with ps := { Ps.zero with ie := true } } : State).readSfr .ps := by
  have hr : ({ start with ps := { Ps.zero with ie := true } } : State).readReg 0 = 0#64 := by
    simp [start, State.reset, State.readReg]
  have F := psLayout_facts
  have hw := mayWrite_of_pl0 { start with ps := { Ps.zero with ie := true } } rfl .ps (Masks.whole 0#64)
  have hm := mayExecute_of_pl0 { start with ps := { Ps.zero with ie := true } } .rswap rfl
  simp only [exec, execRswap, rswapEffect, hr]
  rw [writeEffect_of_allowed _ _ _ _ _ _ hk rfl hm hw]
  simp only [writeSfr, writePs]
  rw [if_pos (whole_touchesPair _ _ (by omega)), whole_offsetAt]
  simp only [BitVec.getLsbD_zero, show levelOfBits false false = 0 from rfl]
  refine ⟨_, rfl, ?_, readReg_writeReg_self _ _ _⟩
  show (Masks.whole 0#64).bit psLayout.iePos _ = false
  rw [whole_bit _ _ (by omega)]
  simp

/-- S14: at PL0 a TLB* member whose OPCODE check passes is refused by name. -/
theorem test_tlb_refused (h : Config.tlbAccess 0 = true) : exec (.tlb 0) start = .refused (.tlbEffectNotGiven 0) := by
  have h1 : start.instrOwners (.tlb 0) = [] := mayExecute_of_pl0 start _ rfl
  have h2 : start.tlbViolated 0 = [] := if_pos rfl
  simp only [exec, execTlb, tlbEffect, h, h1, h2, List.append_nil, worstOwner, commit]
  rfl

/-- I2: AWAIT with WU0 at 0 stops the core, `pc` past it. -/
theorem test_await_waits : ∃ t, exec .await start = .next t ∧ t.idle = .inAwait ∧ t.pc = pcB := ⟨_, rfl, rfl, rfl⟩

/-- I1: AWAIT with WU0 at 1 is a NOP. -/
theorem test_await_nop :
    ∃ t, exec .await { start with ws := { wu0 := true, wu1 := false, wu2 := false, other := 0#64 } } = .next t
      ∧ t.idle = .running ∧ t.pc = pcB ∧ t.ws.wu0 = true :=
  ⟨_, rfl, rfl, rfl, rfl⟩

/-- R103: SLEEP tests WU1, not WU0. -/
theorem test_sleep_waits :
    ∃ t, exec .sleep { start with ws := { wu0 := true, wu1 := false, wu2 := true, other := 0#64 } } = .next t
      ∧ t.idle = .inSleep :=
  ⟨_, rfl, rfl⟩

/-- I5: SLEEP with WU1 at 1 is a NOP. -/
theorem test_sleep_nop :
    ∃ t, exec .sleep { start with ws := { wu0 := false, wu1 := true, wu2 := false, other := 0#64 } } = .next t
      ∧ t.idle = .running ∧ t.pc = pcB :=
  ⟨_, rfl, rfl, rfl⟩

/-- R106: STOP tests WU2. -/
theorem test_stop_waits :
    ∃ t, exec .stop { start with ws := { wu0 := true, wu1 := true, wu2 := false, other := 0#64 } } = .next t
      ∧ t.idle = .inStop :=
  ⟨_, rfl, rfl⟩

/-- I8: STOP with WU2 at 1 is a NOP. -/
theorem test_stop_nop :
    ∃ t, exec .stop { start with ws := { wu0 := false, wu1 := false, wu2 := true, other := 0#64 } } = .next t
      ∧ t.idle = .running ∧ t.pc = pcB :=
  ⟨_, rfl, rfl, rfl⟩

/-- M1: MAKE. -/
theorem test_make :
    ∃ t, exec (.make 0 0x0000000100000300#64) start = .next t ∧ t.readReg 0 = 0x0000000100000300#64
      ∧ t.pc = pcB :=
  ⟨_, rfl, readReg_writeReg_self _ _ _, rfl⟩

/-- M2: NOP. -/
theorem test_nop : exec .nop start = .next { start with pc := pcB } := rfl

/-- M4: a system call at PL0 that PL2 owns is taken at PL0. -/
theorem test_scall_pathological :
    ∃ t, exec (.scall 0) { delegated 0 with ps := { Ps.zero with ie := true } } = .next t ∧ t.ps.pl = 0
      ∧ t.ps.ie = false ∧ t.ps.et = true ∧ (t.sps[0]).pl = 0 ∧ (t.sps[0]).ie = true ∧ t.spc[0] = pcB := by
  have ho : ({ delegated 0 with ps := { Ps.zero with ie := true } } : State).owner .syo (syoSlot 0) = 3 :=
    delegated_owner 0 .syo _
  have : exec (.scall 0) { delegated 0 with ps := { Ps.zero with ie := true } }
      = .next (takeSyscall 3 0 { delegated 0 with ps := { Ps.zero with ie := true } }) := by
    rw [← ho]
    rfl
  exact ⟨_, this, rfl, rfl, rfl, rfl, rfl, rfl⟩

/-- X1: a system call at PL3 that PL1 owns restores the remnant state of PL1: its IL. -/
theorem test_syscall_vertical :
    let s := { start with
      ps := { pl := 3, ie := true, et := false, il := 0#64, other := 0#64 }
      sps := start.sps.set 1 { pl := 0, ie := false, et := false, il := 2#64, other := 0#64 } }
    (takeSyscall 1 0 s).ps.pl = 1 ∧ (takeSyscall 1 0 s).ps.ie = false ∧ (takeSyscall 1 0 s).ps.il = 2#64
      ∧ ((takeSyscall 1 0 s).sps[1]).pl = 2 ∧ (takeSyscall 1 0 s).spc[1] = pcB :=
  ⟨rfl, rfl, rfl, rfl, rfl⟩

/-- I7: a line that is not eligible sets WU0 only, and the core stays asleep. -/
theorem test_rise_not_eligible :
    ((envMove (.interruptRise 3) { start with idle := .inSleep }).ws.wu0 = true)
      ∧ (envMove (.interruptRise 3) { start with idle := .inSleep }).ws.wu1 = false
      ∧ (envMove (.interruptRise 3) { start with idle := .inSleep }).registered 3 = true
      ∧ (idleTurn (envMove (.interruptRise 3) { start with idle := .inSleep })).idle = .inSleep :=
  ⟨rfl, rfl, ((registerLine_cases 3 { start with idle := .inSleep } rfl).1 3).trans (by simp), rfl⟩

/-- R77, R78: what software writes to EV4 and to the levels is what it reads back; clearing bit 0 leaves bit 1 alone. -/
theorem test_write_reads_back :
    (∀ t, writeSfr .ev4 (Masks.whole 6#64) { start with ev4 := { base := 1#64, since := [5] } } = some t →
        t.ev4.image = 6#64)
      ∧ writeSfr .itLevel (Masks.low 1#64) { start with itLevel := 3#64 } = some { start with itLevel := 2#64 } := by
  refine ⟨fun t h => ?_, rfl⟩
  cases h
  exact (image_ev4 _ _).trans (whole_word _ _)

/-! ## Witnesses: for each obligation with hypotheses, terms that meet them all. -/

/-- The general registers read as they are set. -/
theorem withRegs_readReg (v : Word) (s : State) (r : Reg) : (withRegs v s).readReg r = v := by
  simp [withRegs, State.readReg]

/-- DecodeOfEncodedBundle: the shortest and the longest bundle. -/
theorem witness_DecodeOfEncodedBundle :
    ([Instr.nop] ≠ [] ∧ [Instr.nop].length ≤ maxBundle)
      ∧ (List.replicate 8 (Instr.make 0 (BitVec.allOnes 64)) ≠ []
        ∧ (List.replicate 8 (Instr.make 0 (BitVec.allOnes 64))).length ≤ maxBundle) := by decide

/-- EncodeOfDecodedBytes: bytes that decode, with more after them. -/
theorem witness_EncodeOfDecodedBytes : decodeBundle [0#8, 0#8, 0#8, 13#8, 7#8] = .ok ([.nop], 4) := by decide

/-- AloneInstructionsTakeFour. -/
theorem witness_AloneInstructionsTakeFour : (Instr.set .ps 0).alone = true ∧ (Instr.tlb 255).alone = true := by decide

/-- A state with PS.IE at 0 has no interrupt to take. -/
theorem pending_of_quiet (s : State) (h : s.ps.ie = false) : s.pending = [] := by
  rw [State.pending, List.filter_eq_nil_iff]
  intro k _
  simp [State.eligible, h]

/-- StepRunsTheDecodedInstruction. -/
theorem witness_StepRunsTheDecodedInstruction :
    start.script = [] ∧ start.idle = .running ∧ start.pending = []
      ∧ (fun _ _ => Fetched.bundle [.set .ps 0] 4 : Decoder) start.mem start.pc = .bundle [.set .ps 0] 4
      ∧ Bundle.WellFormed [.set .ps 0] 4 :=
  ⟨rfl, rfl, pending_of_quiet _ rfl, rfl, rfl⟩

/-- The four bytes of NOP at the top of the address space. -/
def topOfMemory : State :=
  { start with
    pc := BitVec.ofNat pcWidth (addressCount - 4)
    mem := memWriteBytes [] (addressCount - 4) (encode .nop) }

/-- Its program counter. -/
theorem topOfMemory_pc : topOfMemory.pc.toNat = addressCount - 4 := by
  have h := four_le_two_pow_pcWidth
  simp only [topOfMemory, addressCount, BitVec.toNat_ofNat]
  exact Nat.mod_eq_of_lt (by omega)

/-- StepRunsTheInstructionInMemory: at the last address an instruction fits. -/
theorem witness_StepRunsTheInstructionInMemory :
    topOfMemory.script = [] ∧ topOfMemory.idle = .running ∧ topOfMemory.pending = []
      ∧ (∀ (n : Nat) (h : n < (encode .nop).length),
          memRead topOfMemory.mem (topOfMemory.pc.toNat + n) = some (encode .nop)[n])
      ∧ topOfMemory.pc.toNat + (encode .nop).length ≤ addressCount := by
  have h4 : 4 ≤ addressCount := four_le_two_pow_pcWidth
  have hl : (encode .nop).length = 4 := rfl
  refine ⟨rfl, rfl, pending_of_quiet _ rfl, fun n hn => ?_, by rw [topOfMemory_pc, hl]; omega⟩
  rw [topOfMemory_pc]
  exact memRead_memWriteBytes_within _ _ _ rfl (by rw [hl]; omega) n hn

/-- NothingRunsWithoutAWellFormedBundle: no byte, no bundle, and an ill-formed bundle. -/
theorem witness_NothingRunsWithoutAWellFormedBundle :
    start.script = [] ∧ start.idle = .running ∧ start.pending = []
      ∧ (fun _ _ => Fetched.noByte 0 : Decoder) start.mem start.pc = .noByte 0
      ∧ (fun _ _ => Fetched.notBundle .badOpcode : Decoder) start.mem start.pc = .notBundle .badOpcode
      ∧ (fun _ _ => Fetched.bundle [] 0 : Decoder) start.mem start.pc = .bundle [] 0
      ∧ Bundle.problem [] 0 = some .empty :=
  ⟨rfl, rfl, pending_of_quiet _ rfl, rfl, rfl, rfl, rfl⟩

/-- An instruction that the level may execute and that only completes runs. -/
theorem runs_of_complete (s t : State) (i : Instr) (h : effectOf i s = .complete t) : s.Runs i := .inl ⟨t, h⟩

/-- A system call at PL0 runs. -/
theorem scall_runs (s : State) (n : BitVec 16) (h : s.ps.pl = 0) : s.Runs (.scall n) := by
  refine .inr ⟨s.owner .syo (syoSlot n), n, ?_⟩
  simp only [effectOf, scallEffect, guardOwned_of_mayExecute _ _ _ (mayExecute_of_pl0 s _ h)]

/-- SystemCallBundleExecutesFirst, the bundles that run: MAKE and NOP around a system call, and AWAIT as the NOP that a set
WU bit makes it beside one, at PL0. -/
theorem witness_SystemCallBundleExecutesFirst_runs :
    (Bundle.WellFormed ([.make 0 7#64] ++ .scall 0 :: [.nop]) 20
        ∧ (∀ j ∈ [Instr.make 0 7#64] ++ .scall 0 :: [.nop], start.Runs j)
        ∧ ∀ j ∈ [Instr.make 0 7#64] ++ [Instr.nop], start.decides j = false)
      ∧ (Bundle.WellFormed ([.await] ++ .scall 0 :: []) 8
        ∧ (∀ j ∈ [Instr.await] ++ .scall 0 :: [], (idling .running true).Runs j)
        ∧ ∀ j ∈ [Instr.await] ++ [], (idling .running true).decides j = false) := by
  refine ⟨⟨rfl, ?_, ?_⟩, rfl, ?_, ?_⟩
  · simp only [List.cons_append, List.nil_append, List.mem_cons, List.not_mem_nil, or_false, forall_eq_or_imp, forall_eq]
    exact ⟨runs_of_complete _ _ _ rfl, scall_runs _ _ rfl, runs_of_complete _ _ _ rfl⟩
  · decide
  · simp only [List.cons_append, List.nil_append, List.mem_cons, List.not_mem_nil, or_false, forall_eq_or_imp, forall_eq]
    exact ⟨runs_of_complete _ _ _ rfl, scall_runs _ _ rfl⟩
  · decide

/-- SystemCallBundleExecutesFirst, the bundles that do not: a GET that traps OPCODE beside NOP, a refused IGET, and two
instructions that decide what follows. -/
theorem witness_SystemCallBundleExecutesFirst_stops :
    (Bundle.WellFormed [.nop, .get 0 (.ownW .ito)] 8
        ∧ (∀ j ∈ [Instr.nop, .get 0 (.ownW .ito)], ∀ r, exec j start ≠ .refused r)
        ∧ ∃ j ∈ [Instr.nop, .get 0 (.ownW .ito)], ¬start.Runs j)
      ∧ (∃ w : Word, Bundle.WellFormed [.nop, .iget 0] 8
        ∧ ∃ j ∈ [Instr.nop, .iget 0], ∃ r, exec j (withRegs w start) = .refused r)
      ∧ (Bundle.WellFormed [.rfe, .await] 8 ∧ (∀ j ∈ [Instr.rfe, .await], start.Runs j)
        ∧ 1 < ([Instr.rfe, .await].filter start.decides).length) := by
  obtain ⟨w, hw⟩ := exists_unused_index
  have hg : effectOf (.get 0 (.ownW .ito)) start = .trap (start.trapOwner .opcode) .opcode := rfl
  refine ⟨⟨rfl, ?_, .get 0 (.ownW .ito), by simp, ?_⟩, ⟨w, rfl, .iget 0, by simp, .igetNamesNoSfr w, ?_⟩, rfl, ?_, by decide⟩
  · simp only [List.mem_cons, List.not_mem_nil, or_false, forall_eq_or_imp, forall_eq, exec_eq_commit, hg]
    exact ⟨fun r => by simp [effectOf, nopEffect, commit], fun r => by simp [commit]⟩
  · rintro (⟨t, h⟩ | ⟨o, n, h⟩) <;> rw [hg] at h <;> simp at h
  · have hr : (withRegs w start).readReg 0 = w := withRegs_readReg _ _ _
    simp only [exec, execIget, igetEffect, hr, sfrOfIndex_eq_none w hw, commit]
  · simp only [List.mem_cons, List.not_mem_nil, or_false, forall_eq_or_imp, forall_eq]
    exact ⟨runs_of_complete _ _ _ rfl, runs_of_complete _ _ _ rfl⟩

/-- Two instructions that decide what follows are refused; a system call beside AWAIT with WU0 at 1 is not (R100, R122). -/
theorem test_bundle_two_deciders :
    execBundle [.rfe, .await] start = .refused (.bundleIllFormed .orderOpen)
      ∧ ∃ t, execBundle [.scall 0, .await] (idling .running true) = .next t ∧ t.idle = .running :=
  ⟨rfl, _, rfl, rfl⟩

/-- SavedAddressByCategory: a debug turn of a running core, of one just woken with an interrupt to take, and of an idle
one. -/
theorem witness_SavedAddressByCategory :
    let s : State := { start with script := [.debug 0] }
    let w : State := { interrupted with script := [.debug 31], woken := true }
    let i : State := { idling .inSleep false with script := [.debug 0, .core] }
    (s.script = .debug 0 :: [] ∧ s.idle = .running ∧ s.woken = false)
      ∧ (w.script = .debug 31 :: [] ∧ w.idle = .running ∧ w.woken = true ∧ w.pending ≠ [])
      ∧ (i.script = .debug 0 :: [.core] ∧ i.idle ≠ .running) :=
  ⟨⟨rfl, rfl, rfl⟩, ⟨rfl, rfl, rfl, List.ne_nil_of_mem mem_pending_interrupted⟩, rfl, by decide⟩

/-- CategoriesHaveDistinctHandlers. -/
theorem witness_CategoriesHaveDistinctHandlers : Category.interrupt ≠ Category.debug := by decide

/-- ReturnUndoesEntry: from PL3 to PL1, and horizontally at PL3. -/
theorem witness_ReturnUndoesEntry :
    (takeException .syscall 1 (.syscall 0) pcB (delegated 3)).MayExecute .rfe
      ∧ (takeException .hwtrap 3 .opcode pcA (delegated 3)).MayExecute .rfe :=
  ⟨mayExecute_of_delegated (takeException .syscall 1 (.syscall 0) pcB (delegated 3)) 3 rfl _,
    mayExecute_of_delegated (takeException .hwtrap 3 .opcode pcA (delegated 3)) 3 rfl _⟩

/-- The cache enable is no FOE bit (R135). -/
theorem cachePos_not_foe : foeMask.getLsbD psLayout.cachePos = false := by
  have hb : ∀ h : psLayout.cachePos < 64, mayBeFoe ⟨psLayout.cachePos, h⟩ = false := by
    intro h
    simp [mayBeFoe]
  have F := psLayout_facts
  have hc : psLayout.cachePos < 64 := by omega
  rw [foeMask_false]
  simp only [foe0Mask, foe1Mask, BitVec.getLsbD_ofFnLE, hc, dite_true, hb hc, Bool.false_and, and_self]

/-- PL0 returns to level `l`. -/
def returning (l : Level) : State :=
  { start with sps := start.sps.set 0 { pl := l, ie := true, et := false, il := 0#64, other := 0#64 } }

/-- EntryRestoresWhatReturnBackedUp: from PL0 to PL1 and to PL3. -/
theorem witness_EntryRestoresWhatReturnBackedUp :
    (returning 1).ps.pl < 1 ∧ addLevels (returning 1).ps.pl ((returning 1).sps[(returning 1).ps.pl]).pl = some 1
      ∧ (returning 3).ps.pl < 3 ∧ addLevels (returning 3).ps.pl ((returning 3).sps[(returning 3).ps.pl]).pl = some 3
      ∧ foeMask.getLsbD psLayout.cachePos = false :=
  ⟨by decide, by decide, by decide, by decide, cachePos_not_foe⟩

/-- `delegated l` with relative level `r` in every saved status. -/
def saved (l r : Level) : State := { delegated l with sps := Vector.replicate 4 { Ps.zero with pl := r } }

/-- RfeReturns: the largest sum, vertical (F5) and horizontal (F4). -/
theorem witness_RfeReturns :
    ((saved 1 2).MayExecute .rfe ∧ (saved 1 2).ps.pl.val + ((saved 1 2).sps[(saved 1 2).ps.pl]).pl.val ≤ 3
        ∧ ((saved 1 2).sps[(saved 1 2).ps.pl]).pl ≠ 0)
      ∧ ((saved 3 0).MayExecute .rfe ∧ (saved 3 0).ps.pl.val + ((saved 3 0).sps[(saved 3 0).ps.pl]).pl.val ≤ 3
        ∧ ((saved 3 0).sps[(saved 3 0).ps.pl]).pl = 0) :=
  ⟨⟨mayExecute_of_delegated _ 1 rfl _, by decide, by decide⟩, mayExecute_of_delegated _ 3 rfl _, by decide, by decide⟩

/-- RfeOverflowTraps: the smallest sum that overflows. -/
theorem witness_RfeOverflowTraps :
    (saved 3 1).MayExecute .rfe ∧ 3 < (saved 3 1).ps.pl.val + ((saved 3 1).sps[(saved 3 1).ps.pl]).pl.val :=
  ⟨mayExecute_of_delegated _ 3 rfl _, by decide⟩

/-- `delegated l` with the fields of MO at PL0. -/
def ownedByMo (l : Level) : State :=
  { delegated l with owners := { (delegated l).owners with mo := Vector.replicate 32 0 } }

/-- OwnedInstructionTrapsToItsOwner: an instruction that may share a bundle, one that reads, and an SFR write whose fields
the level may write, at PL1 with MO at PL0. Whether an instruction has a field of MO is open (D25). -/
theorem witness_OwnedInstructionTrapsToItsOwner (k : Slot) :
    (Instr.stop ≠ .nop ∧ Instr.get 0 (.own .ito) ≠ .nop ∧ Instr.set (.ownW .ito) 0 ≠ .nop)
      ∧ (ownedByMo 1).owner .mo k < (ownedByMo 1).ps.pl
      ∧ (ownedByMo 1).OpcodePasses .stop ∧ (ownedByMo 1).OpcodePasses (.get 0 (.own .ito))
      ∧ (ownedByMo 1).OpcodePasses (.set (.ownW .ito) 0) ∧ Instr.stop.alone = false
      ∧ ∃ kind sfr m, (ownedByMo 1).sfrWrite (.set (.ownW .ito) 0) = some (kind, sfr, m) ∧ (ownedByMo 1).MayWrite sfr m := by
  have hk : (ownedByMo 1).owner .mo k = 0 := by simp [ownedByMo, State.owner, Owners.get]
  refine ⟨⟨by simp, by simp, by simp⟩, by rw [hk]; decide, trivial, rfl, ?_, rfl, _, _, _, rfl, ?_⟩
  · intro kind sfr m h
    simp only [State.sfrWrite, Option.some.injEq, Prod.mk.injEq] at h
    obtain ⟨rfl, rfl, rfl⟩ := h
    exact ⟨rfl, fun h => by simp at h⟩
  · rw [mayWrite_ownW]
    intro n _
    rw [show (ownedByMo 1).owner .ito n = 3 from delegated_owner 1 .ito n]
    decide

/-- GetReadsWhatIsReadable. -/
theorem witness_GetReadsWhatIsReadable : sfrAccess .get .ps = true ∧ sfrAccess .get (.sps 3) = true ∧ (delegated 3).MayExecute .get :=
  ⟨rfl, rfl, mayExecute_of_delegated _ 3 rfl _⟩

/-- IgetReadsTheNumberedSfr. -/
theorem witness_IgetReadsTheNumberedSfr :
    (withRegs (sfrIndex .ps) (delegated 3)).readReg 3 = sfrIndex .ps ∧ sfrAccess .iget .ps = true
      ∧ (withRegs (sfrIndex .ps) (delegated 3)).MayExecute .iget :=
  ⟨withRegs_readReg _ _ _, rfl, mayExecute_of_delegated _ 3 rfl _⟩

/-- IgetStopsOnOtherNumbers: a number that names no SFR, and the number of ITOW. -/
theorem witness_IgetStopsOnOtherNumbers :
    (∃ w : Word, ∀ sfr : Sfr, sfrIndex sfr ≠ (withRegs w start).readReg 0)
      ∧ (withRegs (sfrIndex (.ownW .ito)) start).readReg 0 = sfrIndex (.ownW .ito) := by
  obtain ⟨w, hw⟩ := exists_unused_index
  exact ⟨⟨w, fun sfr => by rw [withRegs_readReg]; exact hw sfr⟩, withRegs_readReg _ _ _⟩

/-- OwnersReadAbsoluteAtEveryLevel: the first and the last line that exist for certain, at PL3. -/
theorem witness_OwnersReadAbsoluteAtEveryLevel :
    (delegated 3).MayExecute .get ∧ ownField .ito 0 = true ∧ ownField .ito 12 = true :=
  ⟨mayExecute_of_delegated _ 3 rfl _, rfl, rfl⟩

/-- PsReadInFullAtEveryLevel, at PL3: the lowest bit of IL, and the cache enable as an unnamed field. -/
theorem witness_PsReadInFullAtEveryLevel :
    (delegated 3).MayExecute .get ∧ 0 < psLayout.ilWidth ∧ psLayout.ilWidth - 1 < psLayout.ilWidth
      ∧ ∃ b : BitNo, psFieldAt b = some (.other b) := by
  have F := psLayout_facts
  have A := psLayout_apart
  refine ⟨mayExecute_of_delegated _ 3 rfl _, by omega, by omega, ⟨psLayout.cachePos, by omega⟩, ?_⟩
  simp only [psFieldAt]
  rw [if_neg (by omega), if_neg (by omega), if_neg (by omega), if_neg (by omega), if_pos (.inl trivial)]

/-- PerLevelRegistersReadByLevel: at its own level, above, and below. -/
theorem witness_PerLevelRegistersReadByLevel :
    (delegated 2).MayExecute .get ∧ (delegated 2).ps.pl ≤ 2 ∧ (delegated 2).ps.pl ≤ 3 ∧ 1 < (delegated 2).ps.pl :=
  ⟨mayExecute_of_delegated _ 2 rfl _, by decide, by decide, by decide⟩

/-- SetOwnersIsRelative: at PL1, every field given the largest offset that fits. -/
theorem witness_SetOwnersIsRelative :
    (withRegs 0xAAAAAAAAAAAAAAAA#64 (delegated 1)).MayExecute .set
      ∧ (∀ k : Slot, ownField .ito k = true →
          (withRegs 0xAAAAAAAAAAAAAAAA#64 (delegated 1)).ps.pl ≤ (withRegs 0xAAAAAAAAAAAAAAAA#64 (delegated 1)).owner .ito k)
      ∧ (∀ k : Slot, ownField .ito k = true →
          (withRegs 0xAAAAAAAAAAAAAAAA#64 (delegated 1)).ps.pl.val
            + (levelOfBits (((withRegs 0xAAAAAAAAAAAAAAAA#64 (delegated 1)).readReg 2).getLsbD (2 * k.val))
                (((withRegs 0xAAAAAAAAAAAAAAAA#64 (delegated 1)).readReg 2).getLsbD (2 * k.val + 1))).val ≤ 3) := by
  have hk : ∀ k : Slot, (1 : Level).val + (levelOfBits ((0xAAAAAAAAAAAAAAAA#64).getLsbD (2 * k.val))
      ((0xAAAAAAAAAAAAAAAA#64).getLsbD (2 * k.val + 1))).val ≤ 3 := by decide
  refine ⟨mayExecute_of_delegated _ 1 rfl _, fun k _ => ?_, fun k _ => ?_⟩
  · rw [show (withRegs 0xAAAAAAAAAAAAAAAA#64 (delegated 1)).owner .ito k = 3 from delegated_owner 1 .ito k]
    decide
  · rw [withRegs_readReg]
    exact hk k

/-- WfxlFollowsTheTable: at PL1, the first and the last field of the half, with offsets 2 and 0. -/
theorem witness_WfxlFollowsTheTable :
    (withRegs 0x00000002C0000000#64 (delegated 1)).MayExecute .wfxl
      ∧ wfxMasksAt ((withRegs 0x00000002C0000000#64 (delegated 1)).readReg 0) 0 = (2, 0)
      ∧ wfxMasksAt ((withRegs 0x00000002C0000000#64 (delegated 1)).readReg 0) 30 = (0, 3)
      ∧ (∀ k : Slot, ownField .ito k = true → k.val < 16 →
          wfxMasksAt ((withRegs 0x00000002C0000000#64 (delegated 1)).readReg 0) (2 * k.val) ≠ (0, 0) →
          (withRegs 0x00000002C0000000#64 (delegated 1)).ps.pl ≤ (withRegs 0x00000002C0000000#64 (delegated 1)).owner .ito k
            ∧ (withRegs 0x00000002C0000000#64 (delegated 1)).ps.pl.val
              + (wfxMasksAt ((withRegs 0x00000002C0000000#64 (delegated 1)).readReg 0) (2 * k.val)).1.val ≤ 3) := by
  have hk : ∀ k : Slot, (1 : Level).val + (wfxMasksAt 0x00000002C0000000#64 (2 * k.val)).1.val ≤ 3 := by decide
  simp only [withRegs_readReg]
  refine ⟨mayExecute_of_delegated _ 1 rfl _, by decide, by decide, fun k _ _ _ => ⟨?_, hk k⟩⟩
  rw [show (withRegs 0x00000002C0000000#64 (delegated 1)).owner .ito k = 3 from delegated_owner 1 .ito k]
  decide

/-- WfxmFollowsTheTable: at PL1, the first and the last field of the half. -/
theorem witness_WfxmFollowsTheTable :
    (withRegs 0x00000002C0000000#64 (delegated 1)).MayExecute .wfxm
      ∧ wfxMasksAt ((withRegs 0x00000002C0000000#64 (delegated 1)).readReg 0) (2 * (16 : Slot).val - 32) = (2, 0)
      ∧ wfxMasksAt ((withRegs 0x00000002C0000000#64 (delegated 1)).readReg 0) (2 * (31 : Slot).val - 32) = (0, 3)
      ∧ (∀ k : Slot, ownField .mo k = true → 16 ≤ k.val →
          wfxMasksAt ((withRegs 0x00000002C0000000#64 (delegated 1)).readReg 0) (2 * k.val - 32) ≠ (0, 0) →
          (withRegs 0x00000002C0000000#64 (delegated 1)).ps.pl ≤ (withRegs 0x00000002C0000000#64 (delegated 1)).owner .mo k
            ∧ (withRegs 0x00000002C0000000#64 (delegated 1)).ps.pl.val
              + (wfxMasksAt ((withRegs 0x00000002C0000000#64 (delegated 1)).readReg 0) (2 * k.val - 32)).1.val ≤ 3) := by
  have hk : ∀ k : Slot, (1 : Level).val + (wfxMasksAt 0x00000002C0000000#64 (2 * k.val - 32)).1.val ≤ 3 := by decide
  simp only [withRegs_readReg]
  refine ⟨mayExecute_of_delegated _ 1 rfl _, by decide, by decide, fun k _ _ _ => ⟨?_, hk k⟩⟩
  rw [show (withRegs 0x00000002C0000000#64 (delegated 1)).owner .mo k = 3 from delegated_owner 1 .mo k]
  decide

/-- WorkedExampleDelegatesInterrupts, at PL2, the last level it does not overflow at. -/
theorem witness_WorkedExampleDelegatesInterrupts :
    (withRegs 0x0000000100000300#64 (delegated 2)).MayExecute .wfxl
      ∧ (withRegs 0x0000000100000300#64 (delegated 2)).readReg 0 = 0x0000000100000300#64
      ∧ (withRegs 0x0000000100000300#64 (delegated 2)).ps.pl ≤ (withRegs 0x0000000100000300#64 (delegated 2)).owner .ito 0
      ∧ (withRegs 0x0000000100000300#64 (delegated 2)).ps.pl ≤ (withRegs 0x0000000100000300#64 (delegated 2)).owner .ito 4
      ∧ (withRegs 0x0000000100000300#64 (delegated 2)).ps.pl.val + 1 ≤ 3 :=
  ⟨mayExecute_of_delegated _ 2 rfl _, withRegs_readReg _ _ _, by decide, by decide, by decide⟩

/-- A level may write the ownership fields that PL3 owns. -/
theorem mayWrite_ownW_of_delegated (s : State) (l : Level) (h : s.owners = (delegated l).owners) (r : OwnReg) (m : Masks) :
    s.MayWrite (.ownW r) m := by
  rw [mayWrite_ownW]
  intro k _
  have : s.owner r k = 3 := by
    have := delegated_owner l r k
    simpa only [State.owner, ← h] using this
  rw [this]
  generalize s.ps.pl = x
  revert x
  decide

/-- RelativeWriteOverflowTraps on an alias: offset 3 at PL1, of SET on IT12 (S5), of WFXL on IT12 (W7), and of WFXM on field
31 of MO where it exists. -/
theorem witness_RelativeWriteOverflowTraps_alias (x : Reg) :
    (∀ op, (withRegs (BitVec.allOnes 64) (delegated 1)).MayExecute op)
      ∧ (∀ r m, (withRegs (BitVec.allOnes 64) (delegated 1)).MayWrite (.ownW r) m)
      ∧ (Instr.wfxl (.ownW .ito) x, Masks.low (BitVec.allOnes 64), wfxlOffsetAt (BitVec.allOnes 64))
          ∈ [(Instr.set (.ownW .ito) x, Masks.whole (BitVec.allOnes 64), setOffsetAt (BitVec.allOnes 64)),
            (.wfxl (.ownW .ito) x, .low (BitVec.allOnes 64), wfxlOffsetAt (BitVec.allOnes 64)),
            (.wfxm (.ownW .ito) x, .high (BitVec.allOnes 64), wfxmOffsetAt (BitVec.allOnes 64))]
      ∧ ownField .ito 12 = true
      ∧ 3 < (1 : Level).val + (setOffsetAt (BitVec.allOnes 64) (2 * (12 : Slot).val)).val
      ∧ 3 < (1 : Level).val + (wfxlOffsetAt (BitVec.allOnes 64) (2 * (12 : Slot).val)).val
      ∧ 3 < (1 : Level).val + (wfxmOffsetAt (BitVec.allOnes 64) (2 * (31 : Slot).val)).val :=
  ⟨fun op => mayExecute_of_delegated _ 1 rfl op, fun r m => mayWrite_ownW_of_delegated _ 1 rfl r m, by simp, rfl, by decide,
    by decide, by decide⟩

/-- RelativeWriteOverflowTraps on PS: offset 3 at PL1, of SET and RSWAP, and of the one of WFXL and WFXM whose half PL lies
in (W16). -/
theorem witness_RelativeWriteOverflowTraps_ps :
    (∀ op, (withRegs (BitVec.allOnes 64) (delegated 1)).MayExecute op)
      ∧ (∀ m, (withRegs (BitVec.allOnes 64) (delegated 1)).MayWrite .ps m)
      ∧ 3 < (1 : Level).val + (setOffsetAt (BitVec.allOnes 64) psLayout.plLo).val
      ∧ (3 < (1 : Level).val + (wfxlOffsetAt (BitVec.allOnes 64) psLayout.plLo).val
        ∨ 3 < (1 : Level).val + (wfxmOffsetAt (BitVec.allOnes 64) psLayout.plLo).val) := by
  have F := psLayout_facts
  have ones : ∀ n : Nat, n < 64 → (BitVec.allOnes 64).getLsbD n = true := fun n h => by
    rw [BitVec.getLsbD_allOnes]
    exact decide_eq_true h
  refine ⟨fun op => mayExecute_of_delegated _ 1 rfl op, fun m => mayWrite_ps_of_delegated _ 1 rfl m, ?_, ?_⟩
  · rw [setOffsetAt, ones _ (by omega), ones _ (by omega)]
    decide
  · rcases F.1 with h | ⟨h, h2⟩
    · left
      rw [wfxlOffsetAt, if_pos (by omega), wfxMasksAt, ones (32 + _) (by omega), ones (33 + _) (by omega)]
      decide
    · right
      rw [wfxmOffsetAt, if_pos h, wfxMasksAt, ones (32 + _) (by omega), ones (33 + _) (by omega)]
      decide

/-- ForeignWriteTrapsPrivilege: SET (S3) and WFXL (W3) on ITOW, and WFXM on the cache enable or PL of SPS_PL[0], all at PL1
with every field at PL0. -/
theorem witness_ForeignWriteTrapsPrivilege :
    let s := withRegs (BitVec.allOnes 64) (confined 1)
    (s.sfrWrite (.set (.ownW .ito) 0) = some (.set, .ownW .ito, .whole (s.readReg 0))
        ∧ AccessPasses .set (.ownW .ito) (.whole (s.readReg 0)) ∧ (Masks.whole (s.readReg 0)).tries (.ownW .ito) 0 = true
        ∧ s.ownerAt (.ownW .ito) 0 < s.ps.pl)
      ∧ (s.sfrWrite (.wfxl (.ownW .ito) 0) = some (.wfx, .ownW .ito, .low (s.readReg 0))
        ∧ AccessPasses .wfx (.ownW .ito) (.low (s.readReg 0)) ∧ (Masks.low (s.readReg 0)).tries (.ownW .ito) 25 = true
        ∧ s.ownerAt (.ownW .ito) 25 < s.ps.pl)
      ∧ (s.sfrWrite (.wfxm (.sps 0) 0) = some (.wfx, .sps 0, .high (s.readReg 0))
        ∧ AccessPasses .wfx (.sps 0) (.high (s.readReg 0)) ∧ ∀ b, s.ownerAt (.sps 0) b < s.ps.pl) := by
  intro s
  have hr : s.readReg 0 = BitVec.allOnes 64 := withRegs_readReg _ _ _
  rw [hr]
  refine ⟨⟨by simp [State.sfrWrite, hr], ⟨rfl, fun h => by simp at h⟩, by decide, by decide⟩,
    ⟨by simp [State.sfrWrite, hr], ⟨rfl, fun _ _ _ => rfl⟩, by decide, by decide⟩,
    by simp [State.sfrWrite, hr], ⟨rfl, fun _ _ _ => rfl⟩, fun b => lt_of_le_of_lt (min_le_left _ _) (by decide)⟩

/-- ForeignWriteTrapsPrivilege and RegularUpdateClearsThenSets: the field of line 3 in ILR has a bit, and masks of zeros
leave it alone. -/
theorem witness_line_field :
    (∃ b : BitNo, (ilrFields.bits 3).getLsbD b.val = true) ∧ (Masks.low 0#64).LeavesAlone (ilrFields.bits 3) := by
  refine ⟨?_, fun n _ => ⟨by simp [Masks.low], by simp [Masks.low]⟩⟩
  by_contra h
  have h0 : ilrFields.bits 3 = 0#64 := by
    refine BitVec.eq_of_getLsbD_eq fun n hn => ?_
    rw [BitVec.getLsbD_zero]
    by_contra hb
    exact h ⟨⟨n, hn⟩, by simpa using hb⟩
  have hr := (ilrFields.ok_facts lineFields_ok.1).2 3 rfl
  have hc := lineFields_ok.2.1
  simp only [LineFields.clears, List.all_eq_true, Bool.or_eq_true, decide_eq_true_eq] at hc
  have hc := (hc 3 (List.mem_finRange 3)).resolve_right (by decide)
  simp only [LineFields.valueAt, h0, BitVec.and_zero] at hr hc
  exact hr hc

/-- SetTriesEveryField: S3 on ITOW. -/
theorem witness_SetTriesEveryField : ownField .ito 12 = true ∧ (confined 1).owner .ito 12 < (confined 1).ps.pl := by decide

/-- WrongOwnershipAccessTrapsOpcode: an access of each clause. -/
theorem witness_WrongOwnershipAccessTrapsOpcode (r : OwnReg) (x : Reg) :
    Instr.rswap (.ownW r) x ∈ [Instr.set (.own r) x, .wfxl (.own r) x, .wfxm (.own r) x, .get x (.ownW r),
        .rswap (.own r) x, .rswap (.ownW r) x]
      ∧ sfrAccess .get (.ownW r) = false
      ∧ ((withRegs (sfrIndex (.ownW r)) start).readReg x = sfrIndex (.ownW r) ∧ sfrAccess .iget (.ownW r) = false)
      ∧ start.sfrWrite (.wfxm (.ea 1) x) = some (.wfx, .ea 1, .high (start.readReg x))
      ∧ ¬AccessPasses .wfx (.ea 1) (.high (start.readReg x)) := by
  refine ⟨by simp, rfl, ⟨withRegs_readReg _ _ _, rfl⟩, rfl, fun h => ?_⟩
  have := h.1
  simp [sfrAccess] at this

/-- The largest offset of PS.PL, written at PL0. -/
theorem allOnes_offset_fits :
    (withRegs (BitVec.allOnes 64) start).ps.pl.val
        + (levelOfBits (((withRegs (BitVec.allOnes 64) start).readReg 0).getLsbD psLayout.plLo)
            (((withRegs (BitVec.allOnes 64) start).readReg 0).getLsbD (psLayout.plLo + 1))).val ≤ 3 := by
  have h : ∀ a b : Bool, (levelOfBits a b).val ≤ 3 := by decide
  have := h (((withRegs (BitVec.allOnes 64) start).readReg 0).getLsbD psLayout.plLo)
    (((withRegs (BitVec.allOnes 64) start).readReg 0).getLsbD (psLayout.plLo + 1))
  have e : (withRegs (BitVec.allOnes 64) start).ps.pl.val = 0 := rfl
  omega

/-- SetPsIsRelativeInItsLevel: at PL0 with offset 3. -/
theorem witness_SetPsIsRelativeInItsLevel :
    (withRegs (BitVec.allOnes 64) start).MayExecute .set
      ∧ (withRegs (BitVec.allOnes 64) start).MayWrite .ps (Masks.whole ((withRegs (BitVec.allOnes 64) start).readReg 0))
      ∧ (withRegs (BitVec.allOnes 64) start).ps.pl.val
          + (levelOfBits (((withRegs (BitVec.allOnes 64) start).readReg 0).getLsbD psLayout.plLo)
              (((withRegs (BitVec.allOnes 64) start).readReg 0).getLsbD (psLayout.plLo + 1))).val ≤ 3 :=
  ⟨mayExecute_of_pl0 _ _ rfl, mayWrite_of_pl0 _ rfl _ _, allOnes_offset_fits⟩

/-- SetSavedStatusStoresAsGiven: at PL2, on its own saved status. -/
theorem witness_SetSavedStatusStoresAsGiven :
    (delegated 2).MayExecute .set ∧ (delegated 2).MayWrite (.sps 2) (Masks.whole ((delegated 2).readReg 0)) := by
  refine ⟨mayExecute_of_delegated _ 2 rfl _, fun b _ => ?_⟩
  simp only [State.ownerAt, delegated_owner]
  decide

/-- ForgedSavedStatusTraps: S7 (PSO is 0) and S8 (PSO is 3), both at PL2 on SPS_PL[1]. -/
theorem witness_ForgedSavedStatusTraps :
    (∃ b : BitNo, psFieldAt b = some .pl)
      ∧ min 1 ((confined 2).owner .pso (psoSlot .pl)) < (confined 2).ps.pl
      ∧ min 1 ((delegated 2).owner .pso (psoSlot .pl)) < (delegated 2).ps.pl := by
  have F := psLayout_facts
  refine ⟨⟨⟨psLayout.plLo, by omega⟩, psFieldAt_pl _ (.inl rfl)⟩, ?_, ?_⟩
  · exact lt_of_le_of_lt (min_le_left _ _) (by decide)
  · exact lt_of_le_of_lt (min_le_left _ _) (by decide)

/-- No write of zeros overflows at PL0. -/
theorem writeSfr_zeros_at_pl0 (sfr : Sfr) (h : ∀ r, sfr ≠ .ownW r) :
    ∃ t, writeSfr sfr (Masks.whole 0#64) start = some t := by
  cases sfr with
  | ps =>
    have F := psLayout_facts
    simp only [writeSfr, writePs]
    rw [if_pos (whole_touchesPair _ _ (by omega)), whole_offsetAt]
    simp only [BitVec.getLsbD_zero]
    exact ⟨_, rfl⟩
  | ownW r => exact absurd rfl (h r)
  | _ => exact ⟨_, rfl⟩

/-- AcceptedWritesComplete: SET and WFX* of SPS_PL[0], and RSWAP of an SFR that it may access, at PL0. -/
theorem witness_AcceptedWritesComplete :
    (sfrAccess .set (.sps 0) = true ∧ start.MayExecute .set ∧ start.MayWrite (.sps 0) (Masks.whole (start.readReg 0))
        ∧ ∃ t, writeSfr (.sps 0) (Masks.whole (start.readReg 0)) start = some t)
      ∧ (sfrAccess .wfx (.sps 0) = true ∧ fieldsAccessible .wfx (.sps 0) (Masks.low (start.readReg 0)) = true
        ∧ start.MayExecute .wfxl ∧ start.MayWrite (.sps 0) (Masks.low (start.readReg 0))
        ∧ ∃ t, writeSfr (.sps 0) (Masks.low (start.readReg 0)) start = some t)
      ∧ (sfrAccess .wfx (.sps 0) = true ∧ fieldsAccessible .wfx (.sps 0) (Masks.high (start.readReg 0)) = true
        ∧ start.MayExecute .wfxm ∧ start.MayWrite (.sps 0) (Masks.high (start.readReg 0))
        ∧ ∃ t, writeSfr (.sps 0) (Masks.high (start.readReg 0)) start = some t)
      ∧ (sfrAccess .rswap rswapTarget = true ∧ start.MayExecute .rswap
        ∧ start.MayWrite rswapTarget (Masks.whole (start.readReg 0))
        ∧ ∃ t, writeSfr rswapTarget (Masks.whole (start.readReg 0)) start = some t) := by
  refine ⟨⟨rfl, mayExecute_of_pl0 _ _ rfl, mayWrite_of_pl0 _ rfl _ _, _, rfl⟩,
    ⟨rfl, by simp [fieldsAccessible, wfxField], mayExecute_of_pl0 _ _ rfl, mayWrite_of_pl0 _ rfl _ _, _, rfl⟩,
    ⟨rfl, by simp [fieldsAccessible, wfxField], mayExecute_of_pl0 _ _ rfl, mayWrite_of_pl0 _ rfl _ _, _, rfl⟩,
    sfrAccess_rswapTarget, mayExecute_of_pl0 _ _ rfl, mayWrite_of_pl0 _ rfl _ _, ?_⟩
  have hr : start.readReg 0 = 0#64 := by simp [start, State.reset, State.readReg]
  rw [hr]
  exact writeSfr_zeros_at_pl0 _ fun r => (rswapTarget_ne r).2

/-- RswapExchangesPs: at PL0 with offset 3. -/
theorem witness_RswapExchangesPs :
    (withRegs (BitVec.allOnes 64) start).MayExecute .rswap
      ∧ (withRegs (BitVec.allOnes 64) start).MayWrite .ps (Masks.whole ((withRegs (BitVec.allOnes 64) start).readReg 0))
      ∧ (withRegs (BitVec.allOnes 64) start).ps.pl.val
          + (setOffsetAt ((withRegs (BitVec.allOnes 64) start).readReg 0) psLayout.plLo).val ≤ 3 :=
  ⟨mayExecute_of_pl0 _ _ rfl, mayWrite_of_pl0 _ rfl _ _, allOnes_offset_fits⟩

/-- MakeLoadsTheImmediate, SystemCallEntersItsOwner and IdleInstructionsEnterTheirModes, at PL0 and PL3. -/
theorem witness_MakeScallIdle :
    (∀ op ∈ [Op.make, .scall, .await, .sleep, .stop], start.MayExecute op)
      ∧ ∀ op ∈ [Op.make, .scall, .await, .sleep, .stop], (delegated 3).MayExecute op :=
  ⟨fun _ _ => mayExecute_of_pl0 _ _ rfl, fun _ _ => mayExecute_of_delegated _ 3 rfl _⟩

/-- OnlyIdleInstructionsStopTheCore: each of the three. -/
theorem witness_OnlyIdleInstructionsStopTheCore :
    start.idle = .running ∧ (∃ t, exec .await start = .next t ∧ t.idle ≠ .running)
      ∧ (∃ t, exec .sleep start = .next t ∧ t.idle ≠ .running) ∧ ∃ t, exec .stop start = .next t ∧ t.idle ≠ .running :=
  ⟨rfl, ⟨_, rfl, by decide⟩, ⟨_, rfl, by decide⟩, ⟨_, rfl, by decide⟩⟩

/-- IdleCoreWakesOrWaits: each mode awake, and each waiting. -/
theorem witness_IdleCoreWakesOrWaits :
    ((idling .inAwait true).script = [] ∧ (idling .inAwait true).idle = .inAwait ∧ (idling .inAwait true).ws.wu0 = true)
      ∧ ((idling .inSleep true).idle = .inSleep ∧ (idling .inSleep true).ws.wu1 = true)
      ∧ ((idling .inStop true).idle = .inStop ∧ (idling .inStop true).ws.wu2 = true
        ∧ (idling .inStop true).resetOnWakeup = false)
      ∧ (idling .inAwait false).Waiting ∧ (idling .inSleep false).Waiting ∧ (idling .inStop false).Waiting :=
  ⟨⟨rfl, rfl, rfl⟩, ⟨rfl, rfl⟩, ⟨rfl, rfl, rfl⟩, .inl ⟨rfl, rfl⟩, .inr (.inl ⟨rfl, rfl⟩), .inr (.inr ⟨rfl, rfl⟩)⟩

/-- StopWakeResets. -/
theorem witness_StopWakeResets :
    let s : State := { idling .inStop true with resetOnWakeup := true }
    s.script = [] ∧ s.idle = .inStop ∧ s.ws.wu2 = true ∧ s.resetOnWakeup = true :=
  ⟨rfl, rfl, rfl, rfl⟩

/-- RisingEdgeRegisters: the first and the last line that exist for certain. -/
theorem witness_RisingEdgeRegisters :
    ({ start with script := [.env (.interruptRise 0)] } : State).script = .env (.interruptRise 0) :: []
      ∧ lineExists 0 = true ∧ lineExists 12 = true :=
  ⟨rfl, rfl, rfl⟩

/-- WakeupBitsAreNotLost: the bits at 1, an instruction that does not write WS, and a step that runs it. -/
theorem witness_WakeupBitsAreNotLost :
    (idling .running true).ws.wu0 = true ∧ (idling .running true).ws.wu1 = true ∧ (idling .running true).ws.wu2 = true
      ∧ exec .await (idling .running true) = .next (idling .running true).endBundle ∧ ¬Instr.await.WritesSfr .ws
      ∧ ∃ t, stepWith (fun _ _ => .bundle [.await] 4) (idling .running true) = .next t := by
  refine ⟨rfl, rfl, rfl, rfl, ?_, ?_⟩
  · rintro ⟨r, h | h | h | h⟩ <;> simp at h
  · rw [stepWith_running _ _ rfl rfl (pending_of_quiet _ rfl)]
    exact ⟨_, rfl⟩

/-- PendingMeansRegisteredAndEligible: a line that meets the conditions. -/
theorem witness_PendingMeansRegisteredAndEligible : (3 : Line) ∈ interrupted.pending := mem_pending_interrupted

/-- EligibleInterruptIsTaken: a core that has just woken, and one that has not. -/
theorem witness_EligibleInterruptIsTaken :
    (interrupted.script = [] ∧ interrupted.idle = .running ∧ interrupted.pending ≠ [] ∧ interrupted.woken = false)
      ∧ (({ interrupted with woken := true } : State).pending ≠ [] ∧ ({ interrupted with woken := true } : State).idle = .running) :=
  ⟨⟨rfl, rfl, List.ne_nil_of_mem mem_pending_interrupted, rfl⟩, List.ne_nil_of_mem mem_pending_interrupted, rfl⟩

/-- `start` holds what every step keeps. -/
theorem start_ok : start.Ok where
  mem := rfl
  ps := ⟨BitVec.zero_and, BitVec.zero_and⟩
  sps := fun j => by
    have : start.sps[j] = Ps.zero := by simp only [start, State.reset, Fin.getElem_fin, Vector.getElem_replicate]
    rw [this]
    exact ⟨BitVec.zero_and, BitVec.zero_and⟩
  ws := BitVec.zero_and
  owners := fun r k _ => by
    cases r <;> simp [start, State.owner, State.reset, Owners.reset, ownedByPl0, Owners.get]
  woken := fun e => by simp [start, State.reset] at e

/-- StepKeepsTheStateOk: a step of a core, and one of the environment. -/
theorem witness_StepKeepsTheStateOk :
    start.Ok ∧ (∃ t, stepWith (fun _ _ => .bundle [.nop] 4) start = .next t)
      ∧ ∃ t, stepWith (fun _ _ => .bundle [.nop] 4) { start with script := [.env .wakeupSignal] } = .next t := by
  refine ⟨start_ok, ?_, _, rfl⟩
  rw [stepWith_running _ _ rfl rfl (pending_of_quiet _ rfl)]
  exact ⟨_, rfl⟩

/-- ResetStateIsOk: a state with canonical memory. -/
theorem witness_ResetStateIsOk : memWf topOfMemory.mem = true := memWriteBytes_wf _ _ _ rfl

/-- ResetGivesEverythingToPl0: the reset state, and one after a hardware reset. -/
theorem witness_ResetGivesEverythingToPl0 :
    State.reset = State.reset ∧ AfterReset (State.resetFrom (Config.resetDraw 0) start) :=
  ⟨rfl, _, _, rfl⟩

/-- PrivilegeRisesOnlyByEntry: a debug event at PL1 that PL0 owns. -/
theorem witness_PrivilegeRisesOnlyByEntry :
    ∃ t, stepWith fetch { confined 1 with script := [.debug 0] } = .next t
      ∧ t.ps.pl < ({ confined 1 with script := [.debug 0] } : State).ps.pl := by
  refine ⟨_, rfl, ?_⟩
  have ho : ({ confined 1 with script := [] } : State).owner .dbo (doSlot 0) = 0 := by
    simp [confined, start, State.reset, State.owner, Owners.get, Owners.reset, ownedByPl0]
  show destLevel (({ confined 1 with script := [] } : State).owner .dbo (doSlot 0)) 1 < 1
  rw [ho]
  decide

/-- OwnershipMovesOnlyDown: the step that runs W1. -/
theorem witness_OwnershipMovesOnlyDown :
    ∃ t, stepWith (fun _ _ => .bundle [.wfxl (.ownW .ito) 0] 4) (withRegs 0x0000000100000300#64 start) = .next t
      ∧ t.owner .ito 0 ≠ (withRegs 0x0000000100000300#64 start).owner .ito 0 := by
  rw [stepWith_running _ _ rfl rfl (pending_of_quiet _ rfl)]
  exact ⟨_, rfl, by decide⟩

/-- SavedContextIsProtected: a step at PL3. -/
theorem witness_SavedContextIsProtected :
    (∃ t, stepWith (fun _ _ => .bundle [.nop] 4) (delegated 3) = .next t) ∧ (0 : Level) < (delegated 3).ps.pl := by
  rw [stepWith_running _ _ rfl rfl (pending_of_quiet _ rfl)]
  exact ⟨⟨_, rfl⟩, by decide⟩

/-- InstructionFrame and SpecialRegisterFrame: an instruction at PL3, and what it does not write. -/
theorem witness_Frames :
    (∃ t, exec .nop (delegated 3) = .next t) ∧ (∀ r, Instr.nop.writes ≠ some r) ∧ ∀ sfr, ¬Instr.nop.WritesSfr sfr := by
  refine ⟨⟨_, rfl⟩, fun r => by simp [Instr.writes], ?_⟩
  rintro sfr ⟨r, h | h | h | h⟩ <;> simp at h

/-- The placed word 0x0D000000 is NOP, and the very next step runs it, where its bytes fit below the top of the address
space. -/
theorem test_step_fetches (h : pcA.toNat + maxInstrBytes ≤ addressCount) :
    ∃ t, step (start.withFetchWord 32 0x0D000000) = .next t ∧ t.pc = nextAddress pcA 4 := by
  have hf : fetch (start.withFetchWord 32 0x0D000000).mem pcA = .bundle [.nop] 4 := by
    have hl : (tableBytes 32 0x0D000000).length = maxInstrBytes := rfl
    have hb := fetchBytes_of_memRead (start.withFetchWord 32 0x0D000000).mem (tableBytes 32 0x0D000000) pcA.toNat maxFetch
      (by decide) (by rw [hl]; exact h)
      (fun k hk => memRead_memWriteBytes_within _ _ _ rfl (by rw [hl]; exact h) k hk)
    simp only [fetch, hb]
    rfl
  refine ⟨{ start.withFetchWord 32 0x0D000000 with pc := nextAddress pcA 4, nextBundle := nextAddress pcA 4 }, ?_, rfl⟩
  show stepWith fetch _ = _
  rw [stepWith_running _ _ rfl rfl (pending_of_quiet _ rfl), runBundle]
  rw [show (start.withFetchWord 32 0x0D000000).pc = pcA from rfl, hf]
  rfl

end Sys2Proof.Tests
end

section
/-! SUPPORT. What a bundle of several instructions does as a whole (R3, R143, R122), and the statement about it. -/

namespace Sys2Proof.Machine

/-! The entry of an exception, in the words of the rules. -/

/-- An entry forces the FOE bits (R137). -/
theorem entryPs_forced (s : State) (j : Level) : Forced (entryPs s j) where
  ie := rfl
  et := rfl
  zero b hb := by
    have hd := foe_disjoint b
    rw [hb, Bool.true_and] at hd
    rw [getLsbD_entryPs_other, hb, hd]
    simp
  one b hb := by
    rw [getLsbD_entryPs_other, hb, Bool.or_true]

/-- Outside the FOE bits and PL, an entry leaves the PS that it starts from (R135, R136). -/
theorem entryPs_sameUnforced (s : State) (j : Level) :
    SameUnforced (if j = s.ps.pl then s.ps else s.sps[j]) (entryPs s j) where
  il := rfl
  other b hb := by
    obtain ⟨h0, h1⟩ := (foeMask_false b).1 hb
    rw [getLsbD_entryPs_other, h0, h1]
    simp

/-- An entry writes no general register and none of the registers that R134 does not name. -/
theorem takeException_sameOutsideEntry (cat : Category) (o : Level) (cause : Cause) (a : Pc) (s : State) :
    SameOutsideEntry s (takeException cat o cause a s) := by
  constructor <;> intros <;> rfl

/-- Taking an exception is the entry of R134. -/
theorem takeException_entered (cat : Category) (o : Level) (cause : Cause) (a : Pc) (s : State) :
    Entered cat o a s (takeException cat o cause a s) (min o s.ps.pl) := by
  rw [← destLevel_eq_min]
  have hle : destLevel o s.ps.pl ≤ s.ps.pl := destLevel_eq_min o s.ps.pl ▸ min_le_right _ _
  have hps := entryPs_sameUnforced s (destLevel o s.ps.pl)
  obtain ⟨hcat, hrpl⟩ := esInfo_reports s.draws cat cause s.ps.pl (destLevel o s.ps.pl) a
  constructor
  case dest => exact destLevel_eq_min o s.ps.pl
  case level => rfl
  case forced => exact entryPs_forced s _
  case vertical => exact fun hne => by rwa [if_neg hne] at hps
  case horizontal => exact fun he => by rwa [if_pos he] at hps
  case saved => rw [takeException_sps, level_set_self]
  case relative =>
    rw [takeException_sps, level_set_self]
    exact level_sub_val _ _ hle
  case savedPc => rw [takeException_spc, level_set_self]
  case handler => rfl
  case syndrome => rwa [takeException_es, level_set_self]
  case relativeLevels => rwa [takeException_es, level_set_self]
  case others =>
    intro m hm
    exact ⟨level_set_ne _ _ _ _ hm, level_set_ne _ _ _ _ hm, level_set_ne _ _ _ _ hm, level_set_ne _ _ _ _ hm⟩
  case frame => exact takeException_sameOutsideEntry _ _ _ _ _

/-! One instruction: what runs, what traps and what is refused. -/

/-- An instruction that runs and decides nothing completes. -/
theorem completes_of_runs (s : State) (j : Instr) (hr : s.Runs j) (hd : s.decides j = false) :
    ∃ t, effectOf j s = .complete t := by
  rcases hr with h | ⟨o, n, h⟩
  · exact h
  · rw [effectOf_syscall j s o n h] at hd
    simp [State.decides] at hd

/-- A system call that runs is owned by the SYO field that it selects (R122). -/
theorem scall_effect_of_runs (s : State) (n : BitVec 16) (hr : s.Runs (.scall n)) :
    effectOf (.scall n) s = .syscall (s.owner .syo (syoSlot n)) n := by
  rcases hr with ⟨t, h⟩ | ⟨o, m, h⟩ <;> exact h.trans (guardOwned_eq _ _ _ _ h (by simp)).symm

/-- A system call that runs in `s` enters its owner's level, with the next bundle saved, from any state that differs from
`s` in registers alone (R122). -/
theorem exec_scall_of_registers (s u : State) (n : BitVec 16) (hr : s.Runs (.scall n))
    (hu : u = { s with gpr := u.gpr }) :
    ∃ t, exec (.scall n) u = .next t
      ∧ Entered .syscall (s.owner .syo (syoSlot n)) s.nextBundle u t (min (s.owner .syo (syoSlot n)) s.ps.pl) := by
  have he : effectOf (.scall n) u = .syscall (s.owner .syo (syoSlot n)) n := by
    rw [hu, effectOf_gpr _ s u.gpr rfl (fun _ h => by simp [Instr.writes] at h), scall_effect_of_runs s n hr]
    rfl
  have hps : u.ps = s.ps := by rw [hu]
  have hnext : u.nextBundle = s.nextBundle := by rw [hu]
  refine ⟨takeSyscall (s.owner .syo (syoSlot n)) n u, by rw [exec_eq_commit, he]; rfl, ?_⟩
  rw [← hps, ← hnext]
  exact takeException_entered _ _ _ _ _

/-- An instruction is refused exactly when its effect is. -/
theorem exec_eq_refused (i : Instr) (s : State) (r : Refusal) : exec i s = .refused r ↔ effectOf i s = .refuse r := by
  rw [exec_eq_commit]
  cases effectOf i s <;> simp [commit]

/-- An instruction that neither runs nor is refused traps. -/
theorem traps_of_not_runs (s : State) (j : Instr) (hn : ¬s.Runs j) (hr : ∀ r, exec j s ≠ .refused r) :
    ∃ o cause, effectOf j s = .trap o cause := by
  cases he : effectOf j s with
  | complete t => exact absurd (.inl ⟨t, he⟩) hn
  | trap o cause => exact ⟨o, cause, rfl⟩
  | syscall o n => exact absurd (.inr ⟨o, n, he⟩) hn
  | refuse r => exact absurd ((exec_eq_refused j s r).2 he) (hr r)

/-! The order among instructions that decide nothing does not matter. -/

/-- Two states that differ from a third in registers alone are one state when their registers agree. -/
theorem eq_of_registers (s u v : State) (hu : u = { s with gpr := u.gpr }) (hv : v = { s with gpr := v.gpr })
    (h : ∀ r, u.readReg r = v.readReg r) : u = v := by
  have hg : u.gpr = v.gpr := Vector.ext fun n hn => h ⟨n, hn⟩
  rw [hu, hv, hg]

/-- Instructions that complete and decide nothing, no two of which write one register, come to the same in any order: each
register gets the value that its writer gives it alone. -/
theorem foldl_eq_of_perm (l l' : List Instr) (s : State) (hp : l.Perm l') (ha : ∀ j ∈ l, j.alone = false)
    (hd : ∀ j ∈ l, s.decides j = false) (hr : ∀ j ∈ l, s.Runs j) (hn : (l.filterMap Instr.writes).Nodup) :
    l.foldl applyEffect s = l'.foldl applyEffect s := by
  have ha' : ∀ j ∈ l', j.alone = false := fun j hj => ha j (hp.mem_iff.2 hj)
  have hd' : ∀ j ∈ l', s.decides j = false := fun j hj => hd j (hp.mem_iff.2 hj)
  have hn' : (l'.filterMap Instr.writes).Nodup := (hp.filterMap _).nodup_iff.1 hn
  obtain ⟨frame, kept⟩ := foldl_registers l s ha hd
  obtain ⟨frame', kept'⟩ := foldl_registers l' s ha' hd'
  refine eq_of_registers s _ _ frame frame' fun r => ?_
  by_cases hw : ∃ j ∈ l, j.writes = some r
  · obtain ⟨j, hj, hjr⟩ := hw
    obtain ⟨v, hv⟩ := completes_of_runs s j (hr j hj) (hd j hj)
    rw [foldl_values l s ha hd hn j hj r v hjr hv, foldl_values l' s ha' hd' hn' j (hp.mem_iff.1 hj) r v hjr hv]
  · rw [kept r fun j hj e => hw ⟨j, hj, e⟩, kept' r fun j hj e => hw ⟨j, hp.mem_iff.2 hj, e⟩]

/-! A bundle that runs: one instruction `i` and the others, `before` and `after` it, of which none decides what follows. -/

section
variable (before after : List Instr) (i : Instr) (size : Nat) (s : State)

/-- The others are instructions of the bundle. -/
theorem mem_bundle_of_mem_others : ∀ j ∈ before ++ after, j ∈ before ++ i :: after :=
  fun _ hj => List.perm_middle.mem_iff.2 (List.mem_cons_of_mem i hj)

/-- The others of a well-formed bundle are none of SET, WFX*, RSWAP and TLB* (R51). -/
theorem alone_of_mem_others (hwf : Bundle.WellFormed (before ++ i :: after) size) :
    ∀ j ∈ before ++ after, j.alone = false := by
  intro j hj
  refine alone_of_wellFormed _ size hwf ?_ j (mem_bundle_of_mem_others before after i j hj)
  have := List.length_pos_of_mem hj
  simp only [List.length_append, List.length_cons] at this ⊢
  omega

/-- No register is written twice, with `i` put first. -/
theorem nodup_writes_cons (hwf : Bundle.WellFormed (before ++ i :: after) size) :
    ((i :: (before ++ after)).filterMap Instr.writes).Nodup :=
  (List.perm_middle.filterMap _).nodup_iff.1 (nodup_of_wellFormed _ size hwf)

/-- No register is written twice by the others. -/
theorem nodup_writes_others (hwf : Bundle.WellFormed (before ++ i :: after) size) :
    ((before ++ after).filterMap Instr.writes).Nodup :=
  (nodup_writes_cons before after i size hwf).sublist ((List.sublist_cons_self i _).filterMap _)

/-- None of the others writes the register that `i` writes. -/
theorem others_write_ne (hwf : Bundle.WellFormed (before ++ i :: after) size) (r : Reg) (hr : i.writes = some r) :
    ∀ j ∈ before ++ after, j.writes ≠ some r := by
  intro j hj hjr
  have hn := nodup_writes_cons before after i size hwf
  rw [List.filterMap_cons, hr] at hn
  exact (List.nodup_cons.1 hn).1 (List.mem_filterMap.2 ⟨j, hj, hjr⟩)

/-- The instructions that decide what follows: `i`, or none. -/
theorem filter_decides (hd : ∀ j ∈ before ++ after, s.decides j = false) :
    (before ++ i :: after).filter s.decides = if s.decides i then [i] else [] := by
  have hb : before.filter s.decides = [] :=
    List.filter_eq_nil_iff.2 fun j hj => by simp [hd j (List.mem_append_left _ hj)]
  have hc : after.filter s.decides = [] :=
    List.filter_eq_nil_iff.2 fun j hj => by simp [hd j (List.mem_append_right _ hj)]
  rw [List.filter_append, List.filter_cons, hb, hc, List.nil_append]

/-- The instructions that decide nothing: all of them, or all but `i`. -/
theorem filter_not_decides (hd : ∀ j ∈ before ++ after, s.decides j = false) :
    (before ++ i :: after).filter (fun j => !s.decides j)
      = if s.decides i then before ++ after else before ++ i :: after := by
  have hb : before.filter (fun j => !s.decides j) = before :=
    List.filter_eq_self.2 fun j hj => by simp [hd j (List.mem_append_left _ hj)]
  have hc : after.filter (fun j => !s.decides j) = after :=
    List.filter_eq_self.2 fun j hj => by simp [hd j (List.mem_append_right _ hj)]
  rw [List.filter_append, List.filter_cons, hb, hc]
  cases s.decides i <;> rfl

/-- The writes of the bundle are those of the others and then those of `i`. -/
theorem applyAll_middle (hwf : Bundle.WellFormed (before ++ i :: after) size) (hl : (before ++ i :: after).length ≠ 1)
    (hr : ∀ j ∈ before ++ i :: after, s.Runs j) (hd : ∀ j ∈ before ++ after, s.decides j = false) :
    applyAll (before ++ i :: after) s = applyEffect ((before ++ after).foldl applyEffect s) i := by
  rw [applyAll, filter_decides before after i s hd, filter_not_decides before after i s hd]
  cases hi : s.decides i with
  | true => exact List.foldl_append
  | false =>
    have hperm : (before ++ i :: after).Perm (before ++ after ++ [i]) :=
      List.perm_middle.trans (List.perm_append_singleton i _).symm
    have hd' : ∀ j ∈ before ++ i :: after, s.decides j = false := fun j hj => by
      rcases List.mem_cons.1 (List.perm_middle.mem_iff.1 hj) with rfl | hj
      · exact hi
      · exact hd j hj
    have hfold := foldl_eq_of_perm _ _ s hperm (alone_of_wellFormed _ size hwf hl) hd' hr
      (nodup_of_wellFormed _ size hwf)
    simpa [List.foldl_append] using hfold

/-- The effect of `i` after the others have written is its effect in the state before the bundle, with their registers. -/
theorem effectOf_after_others (hwf : Bundle.WellFormed (before ++ i :: after) size)
    (hl : (before ++ i :: after).length ≠ 1) (hd : ∀ j ∈ before ++ after, s.decides j = false) :
    effectOf i ((before ++ after).foldl applyEffect s)
      = (effectOf i s).mapState (State.withOtherRegs i ((before ++ after).foldl applyEffect s).gpr) := by
  obtain ⟨frame, kept⟩ := foldl_registers (before ++ after) s (alone_of_mem_others before after i size hwf) hd
  have heff := effectOf_gpr i s ((before ++ after).foldl applyEffect s).gpr
    (alone_of_wellFormed _ size hwf hl i (by simp))
    fun r hir => kept r (others_write_ne before after i size hwf r hir)
  rwa [← frame] at heff

/-- The system call of the bundle is that of `i`. -/
theorem syscallOf_middle (hr : ∀ j ∈ before ++ after, s.Runs j) (hd : ∀ j ∈ before ++ after, s.decides j = false) :
    syscallOf ((before ++ i :: after).map fun j => effectOf j s) = syscallOf [effectOf i s] := by
  have none_of : ∀ l : List Instr, (∀ j ∈ l, j ∈ before ++ after) → syscallOf (l.map fun j => effectOf j s) = none := by
    intro l hl
    refine List.findSome?_eq_none_iff.2 fun e he => ?_
    obtain ⟨j, hj, rfl⟩ := List.mem_map.1 he
    obtain ⟨t, ht⟩ := completes_of_runs s j (hr j (hl j hj)) (hd j (hl j hj))
    simp only [ht]
  have hb := none_of before fun j hj => List.mem_append_left _ hj
  have hc := none_of after fun j hj => List.mem_append_right _ hj
  unfold syscallOf at hb hc ⊢
  rw [List.map_append, List.map_cons, List.findSome?_append, hb, List.findSome?_cons, hc, List.findSome?_cons,
    List.findSome?_nil]
  rfl

/-- A bundle that runs, of which at most `i` decides what follows, is `i` executed after the others have written. -/
theorem execBundle_middle (hwf : Bundle.WellFormed (before ++ i :: after) size)
    (hr : ∀ j ∈ before ++ i :: after, s.Runs j) (hd : ∀ j ∈ before ++ after, s.decides j = false) :
    execBundle (before ++ i :: after) s = exec i ((before ++ after).foldl applyEffect s) := by
  by_cases hl : (before ++ i :: after).length = 1
  · simp only [List.length_append, List.length_cons] at hl
    obtain rfl : before = [] := List.eq_nil_of_length_eq_zero (by omega)
    obtain rfl : after = [] := List.eq_nil_of_length_eq_zero (by omega)
    rfl
  · obtain ⟨hrefusal, htrap⟩ := no_trap_of_runs s _ hr
    have hone : ¬1 < ((before ++ i :: after).filter s.decides).length := by
      rw [filter_decides before after i s hd]
      cases s.decides i <;> simp
    have hcall := syscallOf_middle before after i s (fun j hj => hr j (mem_bundle_of_mem_others before after i j hj)) hd
    have heff := effectOf_after_others before after i size s hwf hl hd
    simp only [execBundle_several _ s hl, execSeveral, hrefusal, htrap, hone, hcall, if_false,
      applyAll_middle before after i size s hwf hl hr hd, exec_eq_commit, applyEffect]
    rcases hr i (by simp) with ⟨t, ht⟩ | ⟨o, n, ht⟩ <;> rw [ht] at heff <;> rw [heff, ht] <;> rfl

/-- The others write each register as each would alone and nothing else, and then `i` executes (R3, R122). -/
theorem execBundle_of_runs (hwf : Bundle.WellFormed (before ++ i :: after) size)
    (hr : ∀ j ∈ before ++ i :: after, s.Runs j) (hd : ∀ j ∈ before ++ after, s.decides j = false) :
    ∃ u, execBundle (before ++ i :: after) s = exec i u
      ∧ (∀ j ∈ before ++ after, ∀ d v, j.writes = some d → exec j s = .next v → u.readReg d = v.readReg d)
      ∧ (∀ r, (∀ j ∈ before ++ after, j.writes ≠ some r) → u.readReg r = s.readReg r)
      ∧ { u with gpr := s.gpr } = s
      ∧ ∀ n, i = .scall n → ∃ t, exec i u = .next t
        ∧ Entered .syscall (s.owner .syo (syoSlot n)) s.nextBundle u t (min (s.owner .syo (syoSlot n)) s.ps.pl) := by
  have ha := alone_of_mem_others before after i size hwf
  obtain ⟨frame, kept⟩ := foldl_registers (before ++ after) s ha hd
  have values := foldl_values (before ++ after) s ha hd (nodup_writes_others before after i size hwf)
  refine ⟨_, execBundle_middle before after i size s hwf hr hd, ?_, kept, by rw [frame], ?_⟩
  · intro j hj d v hw hv
    obtain ⟨t, ht⟩ := completes_of_runs s j (hr j (mem_bundle_of_mem_others before after i j hj)) (hd j hj)
    rw [exec_eq_commit, ht] at hv
    obtain rfl : t.endBundle = v := by simpa [commit] using hv
    exact values j hj d t hw ht
  · rintro n rfl
    exact exec_scall_of_registers s _ n (hr _ (by simp)) frame

end

/-! A bundle that does not run. -/

/-- A trap of one instruction is the trap of the whole bundle, from the state before it (R143). -/
theorem execBundle_of_trap (b : Bundle) (s : State) (hr : ∀ j ∈ b, ∀ r, exec j s ≠ .refused r)
    (ht : ∃ j ∈ b, ¬s.Runs j) :
    ∃ j ∈ b, ∃ o t, execBundle b s = .next t ∧ exec j s = .next t ∧ TrapEntered o s t := by
  obtain ⟨k, hk, hkr⟩ := ht
  obtain ⟨o, cause, he⟩ := traps_of_not_runs s k hkr (hr k hk)
  by_cases hl : b.length = 1
  · obtain ⟨i, rfl⟩ := List.length_eq_one_iff.1 hl
    obtain rfl := List.mem_singleton.1 hk
    have hx := exec_of_trap k s o cause he
    exact ⟨k, hk, o, _, hx, hx, takeException_entered _ _ _ _ _⟩
  · obtain ⟨p, c, hb, hpc⟩ := bundleTrap_of_mem (b.map fun j => effectOf j s) o cause (List.mem_map.2 ⟨k, hk, he⟩)
      (effectOf_trap_cause k s o cause he)
    obtain ⟨j, hj, hje⟩ := List.mem_map.1 hpc
    have hrefusal : refusalOf (b.map fun j => effectOf j s) = none := by
      refine List.findSome?_eq_none_iff.2 fun e he => ?_
      obtain ⟨m, hm, rfl⟩ := List.mem_map.1 he
      cases hme : effectOf m s with
      | refuse r => exact absurd ((exec_eq_refused m s r).2 hme) (hr m hm r)
      | complete | trap | syscall => rfl
    refine ⟨j, hj, p, _, ?_, exec_of_trap j s p c hje, takeException_entered _ _ _ _ _⟩
    simp only [execBundle_several b s hl, execSeveral, hrefusal, hb]

/-- A refusal of one instruction refuses the bundle. -/
theorem execBundle_of_refused (b : Bundle) (s : State) (hr : ∃ j ∈ b, ∃ r, exec j s = .refused r) :
    ∃ j ∈ b, ∃ r, exec j s = .refused r ∧ execBundle b s = .refused r := by
  obtain ⟨k, hk, r, hkr⟩ := hr
  by_cases hl : b.length = 1
  · obtain ⟨i, rfl⟩ := List.length_eq_one_iff.1 hl
    obtain rfl := List.mem_singleton.1 hk
    exact ⟨k, hk, r, hkr, hkr⟩
  · have hsome : (refusalOf (b.map fun j => effectOf j s)).isSome := by
      refine List.findSome?_isSome_iff.2 ⟨_, List.mem_map.2 ⟨k, hk, rfl⟩, ?_⟩
      simp only [(exec_eq_refused k s r).1 hkr, Option.isSome_some]
    obtain ⟨q, hq⟩ := Option.isSome_iff_exists.1 hsome
    obtain ⟨e, he, heq⟩ := List.exists_of_findSome?_eq_some hq
    obtain ⟨j, hj, rfl⟩ := List.mem_map.1 he
    refine ⟨j, hj, q, (exec_eq_refused j s q).2 ?_, ?_⟩
    · cases hje : effectOf j s with
      | refuse p => simpa [hje] using heq
      | complete | trap | syscall => simp [hje] at heq
    · simp only [execBundle_several b s hl, execSeveral, hq]

/-- Two instructions that decide what follows: the bundle is refused by name. -/
theorem execBundle_of_two_deciders (b : Bundle) (s : State) (hr : ∀ j ∈ b, s.Runs j)
    (h : 1 < (b.filter s.decides).length) : execBundle b s = .refused (.bundleIllFormed .orderOpen) := by
  have hle := List.length_filter_le s.decides b
  obtain ⟨hrefusal, htrap⟩ := no_trap_of_runs s b hr
  simp only [execBundle_several b s (by omega), execSeveral, hrefusal, htrap, if_pos h]

/-- Settles O8: the four cases of a well-formed bundle. -/
theorem systemCallBundleExecutesFirst : Obligations.SystemCallBundleExecutesFirst :=
  ⟨fun before after i size s hwf hr hd => execBundle_of_runs before after i size s hwf hr hd,
    fun b _ s _ hr ht => execBundle_of_trap b s hr ht,
    fun b _ s _ hr => execBundle_of_refused b s hr,
    fun b _ s _ hr h => execBundle_of_two_deciders b s hr h⟩

end Sys2Proof.Machine
end

section
/-! SUPPORT. Reset (R35, R171), the step that runs one instruction (R11, R52), and the instructions that stop the core
(R31). -/

namespace Sys2Proof.Machine

/-! Reset. -/

/-- Every field of every ownership register of the reset state is PL0 (R171). -/
theorem owner_reset (r : OwnReg) (k : Slot) : State.reset.owner r k = 0 := by
  cases r <;> simp [State.owner, State.reset, Owners.reset, ownedByPl0, Owners.get]

/-- The reset state has the invariant. -/
theorem reset_ok : State.reset.Ok where
  mem := reset_mem_wf
  ps := Ps.zero_ok
  sps j := by
    have hzero : State.reset.sps[j] = Ps.zero := by simp [State.reset]
    rw [hzero]
    exact Ps.zero_ok
  ws := BitVec.zero_and
  owners r k _ := owner_reset r k
  woken h := by simp [State.reset] at h

/-- A hardware reset of a machine with canonical memory gives a state that has the invariant, whatever the draw. -/
theorem resetFrom_ok (d : ResetDraw) (s : State) (hmem : memWf s.mem = true) : (State.resetFrom d s).Ok where
  mem := by rwa [resetFrom_mem]
  ps := by
    rw [resetFrom_ps]
    exact (Ps.ofDraw_ok d 64).withPl 0
  sps j := by
    have hdraw : (State.resetFrom d s).sps[j] = Ps.ofDraw d (72 + 8 * j.val) := by simp
    rw [hdraw]
    exact Ps.ofDraw_ok d _
  ws := by rw [resetFrom_ws, BitVec.and_assoc, BitVec.and_self]
  owners r k _ := owner_resetFrom r k d s
  woken h := by simp at h

/-- Settles O54: the reset state and every state after a hardware reset have the invariant. -/
theorem resetStateIsOk : Obligations.ResetStateIsOk := ⟨reset_ok, resetFrom_ok⟩

/-- Settles O55: the two kinds of reset state, field by field. -/
theorem resetGivesEverythingToPl0 : Obligations.ResetGivesEverythingToPl0 := by
  rintro s (rfl | ⟨d, before, rfl⟩)
  · exact ⟨rfl, rfl, rfl, owner_reset⟩
  · exact ⟨resetFrom_pc d before, resetFrom_idle d before, by rw [resetFrom_ps],
      fun r k => owner_resetFrom r k d before⟩

/-! The step that runs one instruction. -/

/-- A well-formed bundle of one instruction runs that instruction. -/
theorem runBundle_single (dec : Decoder) (s : State) (i : Instr) (size : Nat)
    (hdec : dec s.mem s.pc = .bundle [i] size) (hwf : Bundle.WellFormed [i] size) :
    runBundle dec s = exec i (s.atBundle size) := by
  simp only [runBundle, hdec, hwf, execBundle]

/-- Settles O5: the core's turn is the only one, and it runs the bundle at `pc`. -/
theorem stepRunsTheDecodedInstruction : Obligations.StepRunsTheDecodedInstruction := by
  intro dec s i size hscript hidle hpending hdec hwf
  rw [stepWith_running dec s hscript hidle hpending]
  exact runBundle_single dec s i size hdec hwf

/-! The instructions that stop the core. -/

/-- An instruction that completes leaves the idle status alone, or is one of the three idle instructions with its WU bit
at 0 and enters its mode (R100, R103, R106). -/
theorem completes_idle (i : Instr) (s t : State) (hc : Completes s i t) :
    t.idle = s.idle
      ∨ (i = .await ∧ t.idle = .inAwait ∧ s.ws.wu0 = false) ∨ (i = .sleep ∧ t.idle = .inSleep ∧ s.ws.wu1 = false)
        ∨ (i = .stop ∧ t.idle = .inStop ∧ s.ws.wu2 = false) := by
  cases hc with
  | register | returns | nothing => exact .inl rfl
  | idle _ _ hmode => exact .inr hmode
  | write _ _ _ _ _ _ _ hu => exact .inl (writeSfr_frame _ _ _ _ hu).idle
  | exchange _ _ _ _ _ _ hu => exact .inl (writeSfr_frame _ _ _ _ hu).idle

/-- Settles O45: an exception entry leaves the idle status alone, and so does a completion but for the three. -/
theorem onlyIdleInstructionsStopTheCore : Obligations.OnlyIdleInstructionsStopTheCore := by
  intro i s t h hrunning hstopped
  cases exec_does i s t h with
  | trap => exact absurd hrunning hstopped
  | syscall => exact absurd hrunning hstopped
  | completes _ u hc =>
    rcases completes_idle i s u hc with hsame | hmode
    · exact absurd (hsame.trans hrunning) hstopped
    · exact hmode

end Sys2Proof.Machine
end

section
/-! SUPPORT. What a step does to the state that privilege protects: PS, the registers of each level and the owners; and
the two statements about the level and about the registers of a more privileged level. -/

namespace Sys2Proof.Machine

/-! What a step can do. -/

/-- PS, the registers of every level and the owners are the same: all that an exception entry, an RFE and a checked write
may change and the other moves of the machine may not. -/
structure SameProtected (s t : State) : Prop where
  ps : t.ps = s.ps
  sps : t.sps = s.sps
  spc : t.spc = s.spc
  ev : t.ev = s.ev
  es : t.es = s.es
  ea : t.ea = s.ea
  owners : t.owners = s.owners

/-- `u` is the state in which the step from `s` does what it does: `s` but for the model's own fields and for general
registers that instructions of the bundle at `pc` write. -/
structure Prepared (dec : Decoder) (s u : State) : Prop where
  frame : { u with gpr := s.gpr, nextBundle := s.nextBundle, woken := s.woken, script := s.script, draws := s.draws } = s
  registers : ∀ r, u.readReg r ≠ s.readReg r → ∃ i, s.Fetches dec i ∧ i.writes = some r

/-- What a step from `s` makes of the state `u` prepared for it. -/
inductive StepResult (dec : Decoder) (s u : State) : State → Prop where
  /-- An instruction of the bundle at `pc` completes, and the bundle ends. -/
  | completes (i : Instr) (v : State) (hf : s.Fetches dec i) (hc : Completes u i v) : StepResult dec s u v.endBundle
  /-- An exception is entered. -/
  | enters (cat : Category) (o : Level) (cause : Cause) (savedPc : Pc) :
      StepResult dec s u (takeException cat o cause savedPc u)
  /-- Nothing happens to what privilege protects. -/
  | keeps (t : State) (h : SameProtected u t) : StepResult dec s u t
  /-- A stopped core wakes into a reset (R107). -/
  | resets (t : State) (hi : s.idle = .inStop) (ht : AfterReset t) : StepResult dec s u t

/-- A prepared state has the same protected state. -/
theorem Prepared.sameProtected {dec : Decoder} {s u : State} (h : Prepared dec s u) : SameProtected s u where
  ps := (congrArg State.ps h.frame :)
  sps := (congrArg State.sps h.frame :)
  spc := (congrArg State.spc h.frame :)
  ev := (congrArg State.ev h.frame :)
  es := (congrArg State.es h.frame :)
  ea := (congrArg State.ea h.frame :)
  owners := (congrArg State.owners h.frame :)

/-- A change of the script and the draws prepares a state. -/
theorem prepared_of_script (dec : Decoder) (s : State) (rest : List Turn) (n : Nat) :
    Prepared dec s { s with script := rest, draws := n } where
  frame := rfl
  registers _ hr := absurd rfl hr

/-- The state in which the bundle at `pc` has written registers, and nothing else, is prepared. -/
theorem prepared_of_bundle (dec : Decoder) (s u : State) (rest : List Turn) (n : Nat) (b : Bundle) (size : Nat)
    (hdec : dec s.mem s.pc = .bundle b size)
    (hu : u = { State.atBundle { s with script := rest, draws := n } size with gpr := u.gpr })
    (hreg : ∀ r, u.readReg r ≠ s.readReg r → ∃ i ∈ b, i.writes = some r) : Prepared dec s u where
  frame := by rw [hu]; rfl
  registers r hr := by
    obtain ⟨i, hi, hw⟩ := hreg r hr
    exact ⟨i, ⟨b, size, hdec, hi⟩, hw⟩

/-- A move of the environment reaches nothing that privilege protects. -/
theorem envMove_sameProtected (m : EnvMove) (s : State) : SameProtected s (envMove m s) := by
  cases m with
  | interruptRise k =>
    simp only [envMove]
    split <;> exact ⟨rfl, rfl, rfl, rfl, rfl, rfl, rfl⟩
  | pe2peEvent | wakeupSignal | setResetOnWakeup => exact ⟨rfl, rfl, rfl, rfl, rfl, rfl, rfl⟩

/-- An idle core's step reaches nothing that privilege protects, unless it is the wake of a stopped core into a reset
(R107). -/
theorem idleTurn_cases (s : State) : SameProtected s (idleTurn s) ∨ (s.idle = .inStop ∧ AfterReset (idleTurn s)) := by
  have same : ∀ idle woken, SameProtected s { s with idle := idle, woken := woken } :=
    fun _ _ => ⟨rfl, rfl, rfl, rfl, rfl, rfl, rfl⟩
  cases hi : s.idle with
  | running =>
    simp only [idleTurn, hi]
    exact .inl (same _ _)
  | inAwait | inSleep =>
    simp only [idleTurn, hi]
    exact .inl (by split <;> exact same _ _)
  | inStop =>
    simp only [idleTurn, hi]
    split
    · split
      · exact .inr ⟨trivial, _, _, rfl⟩
      · exact .inl (same _ _)
    · exact .inl (same _ _)

/-- What instruction `i` of the bundle at `pc` does is a completion or an exception entry. -/
theorem Does.stepResult {dec : Decoder} {s u t : State} {i : Instr} (hf : s.Fetches dec i) (h : Does u i t) :
    StepResult dec s u t := by
  cases h with
  | trap => exact .enters _ _ _ _
  | syscall => exact .enters _ _ _ _
  | completes _ v hc => exact .completes i v hf hc

/-- What a step can do, for every decoder and every turn. -/
theorem stepWith_result (dec : Decoder) (s t : State) (h : stepWith dec s = .next t) :
    ∃ u, Prepared dec s u ∧ StepResult dec s u t := by
  obtain ⟨rest, n, h⟩ := stepWith_cases dec s t h
  rcases h with ⟨b, size, hdec, hwf, h⟩ | ⟨cat, o, cause, rfl⟩ | ⟨m, rfl⟩ | ⟨-, rfl⟩ | rfl
  · obtain ⟨u, hu, hreg, h⟩ := execBundle_cases b size _ t hwf h
    refine ⟨u, prepared_of_bundle dec s u rest n b size hdec hu hreg, ?_⟩
    rcases h with ⟨i, hi, hdoes⟩ | ⟨cat, o, cause, a, rfl⟩ | rfl
    · exact hdoes.stepResult ⟨b, size, hdec, hi⟩
    · exact .enters cat o cause a
    · exact .keeps _ ⟨rfl, rfl, rfl, rfl, rfl, rfl, rfl⟩
  · exact ⟨_, prepared_of_script dec s rest n, .enters cat o cause s.pc⟩
  · exact ⟨_, prepared_of_script dec s rest n, .keeps _ (envMove_sameProtected m _)⟩
  · refine ⟨_, prepared_of_script dec s rest n, ?_⟩
    rcases idleTurn_cases { s with script := rest, draws := n } with hsame | ⟨hi, hreset⟩
    · exact .keeps _ hsame
    · exact .resets _ hi hreset
  · exact ⟨_, prepared_of_script dec s rest n, .keeps _ ⟨rfl, rfl, rfl, rfl, rfl, rfl, rfl⟩⟩

/-! The level (R13). -/

/-- A relative level that is read is no more privileged than its reference level. -/
theorem le_of_addLevels (i k d : Level) (h : addLevels i k = some d) : i ≤ d := by
  have hsum := (addLevels_eq_some i k d).1 h
  exact Fin.le_def.2 (by omega)

/-- A write of an SFR makes the core no more privileged: it gives PL relative to the running level (R84). -/
theorem writeSfr_level_le (sfr : Sfr) (m : Masks) (s t : State) (hu : writeSfr sfr m s = some t) :
    s.ps.pl ≤ t.ps.pl := by
  by_cases hps : t.ps = s.ps
  · exact (congrArg Ps.pl hps).ge
  · obtain rfl := (writeSfr_target sfr m s t hu).ps hps
    simp only [writeSfr, writePs] at hu
    split at hu
    · split at hu
      · simp at hu
      · rename_i d hd
        obtain rfl := Option.some.inj hu
        exact le_of_addLevels _ _ _ hd
    · obtain rfl := Option.some.inj hu
      exact le_refl _

/-- An instruction that completes makes the core no more privileged: RFE and a write of PS add to the level (R62, R84), and
no other changes it. -/
theorem completes_level_le (i : Instr) (s t : State) (hc : Completes s i t) : s.ps.pl ≤ t.ps.pl := by
  cases hc with
  | register | nothing | idle => exact le_refl _
  | returns d hd => exact le_of_addLevels _ _ _ hd
  | write _ sfr m _ _ _ _ hu => exact writeSfr_level_le sfr m s t hu
  | exchange sfr m _ _ u _ hu => exact writeSfr_level_le sfr m s u hu

/-- Settles O56: of what a step can do, only an exception entry and a reset make the core more privileged. -/
theorem privilegeRisesOnlyByEntry : Obligations.PrivilegeRisesOnlyByEntry := by
  intro dec s t h hrise
  obtain ⟨u, hu, hresult⟩ := stepWith_result dec s t h
  rw [← hu.sameProtected.ps] at hrise
  cases hresult with
  | completes i v _ hc => exact absurd (completes_level_le i u v hc) (not_le_of_gt hrise)
  | enters cat o cause savedPc => exact .inl ⟨cat, o, cause, savedPc, u, rfl, hu.frame, hu.registers⟩
  | keeps _ hsame => exact absurd (congrArg Ps.pl hsame.ps).ge (not_le_of_gt hrise)
  | resets _ hi ht => exact .inr ⟨hi, ht⟩

/-! The registers of a level (R33). -/

/-- The registers of level `j` are the same. -/
structure SameContext (j : Level) (s t : State) : Prop where
  sps : t.sps[j] = s.sps[j]
  spc : t.spc[j] = s.spc[j]
  ev : t.ev[j] = s.ev[j]
  es : t.es[j] = s.es[j]
  ea : t.ea[j] = s.ea[j]

/-- Where everything protected is the same, so are the registers of every level. -/
theorem SameProtected.context {s t : State} (h : SameProtected s t) (j : Level) : SameContext j s t where
  sps := by rw [h.sps]
  spc := by rw [h.spc]
  ev := by rw [h.ev]
  es := by rw [h.es]
  ea := by rw [h.ea]

/-- One step after another. -/
theorem SameContext.trans {j : Level} {s u t : State} (h : SameContext j s u) (h' : SameContext j u t) :
    SameContext j s t where
  sps := h'.sps.trans h.sps
  spc := h'.spc.trans h.spc
  ev := h'.ev.trans h.ev
  es := h'.es.trans h.es
  ea := h'.ea.trans h.ea

/-- A write that passes the ownership check tries no field of an SFR whose every owner is more privileged (R79). -/
theorem untried_of_mayWrite (s : State) (sfr : Sfr) (m : Masks) (hw : s.MayWrite sfr m)
    (ho : ∀ b, s.ownerAt sfr b < s.ps.pl) (b : BitNo) : m.tries sfr b = false := by
  by_contra hb
  exact absurd (hw b (by simpa using hb)) (not_le_of_gt (ho b))

/-- An SFR of `PC_W` bits of which no bit is tried keeps its value. -/
theorem pcWord_of_untried (m : Masks) (old : Pc)
    (h : ∀ b : BitNo, (decide (b.val < pcWidth) && m.touches b.val) = false) : m.pcWord old = old := by
  refine pcWord_of_untouched m old fun b hb => ?_
  have hb64 : b < 64 := by have := pcWidth_bounds; omega
  simpa [hb] using h ⟨b, hb64⟩

/-- The level whose register an SFR is (R33). -/
def registerLevel : Sfr → Option Level
  | .sps j | .spc j | .ev j | .es j | .ea j => some j
  | .ps | .pcr | .ws | .ilr | .ev4 | .itEnable | .itLevel | .own _ | .ownW _ => none

/-- A register of a level is owned by the level, and SPS by a more privileged one where PSO says so (R71). -/
theorem ownerAt_le_of_registerLevel (s : State) (sfr : Sfr) (j : Level) (h : registerLevel sfr = some j) (b : BitNo) :
    s.ownerAt sfr b ≤ j := by
  cases sfr with
  | sps k =>
    obtain rfl := Option.some.inj h
    exact min_le_left _ _
  | spc k | ev k | es k | ea k => exact (Option.some.inj h).le
  | ps | pcr | ws | ilr | ev4 | itEnable | itLevel | own | ownW => simp [registerLevel] at h

/-- A vector of one register per level, set to what it holds. -/
theorem level_set_getElem {α : Type} (v : Vector α 4) (j : Level) : v.set j.val v[j] = v := by
  simp

/-- A write that tries no field of a register of a level writes nothing. -/
theorem writeSfr_of_untried (sfr : Sfr) (m : Masks) (s : State) (j : Level) (h : registerLevel sfr = some j)
    (untried : ∀ b, m.tries sfr b = false) : writeSfr sfr m s = some s := by
  cases sfr with
  | sps k => simp only [writeSfr, sps_of_untried m s.sps[k] k untried, level_set_getElem]
  | spc k => simp only [writeSfr, pcWord_of_untried m s.spc[k] untried, level_set_getElem]
  | ev k => simp only [writeSfr, pcWord_of_untried m s.ev[k] untried, level_set_getElem]
  | es k => simp only [writeSfr, word_of_untouched m s.es[k] untried, level_set_getElem]
  | ea k => simp only [writeSfr, pcWord_of_untried m s.ea[k] untried, level_set_getElem]
  | ps | pcr | ws | ilr | ev4 | itEnable | itLevel | own | ownW => simp [registerLevel] at h

/-- A write that passes the ownership check leaves the registers of every more privileged level alone: it names another
register, or it tries no field of the one that it names. -/
theorem writeSfr_sameContext (sfr : Sfr) (m : Masks) (s t : State) (j : Level) (hw : s.MayWrite sfr m)
    (hu : writeSfr sfr m s = some t) (hj : j < s.ps.pl) : SameContext j s t := by
  by_cases hl : registerLevel sfr = some j
  · have untried := untried_of_mayWrite s sfr m hw fun b => (ownerAt_le_of_registerLevel s sfr j hl b).trans_lt hj
    rw [writeSfr_of_untried sfr m s j hl untried] at hu
    obtain rfl := Option.some.inj hu
    exact ⟨rfl, rfl, rfl, rfl, rfl⟩
  · have target := writeSfr_target sfr m s t hu
    have unnamed : ∀ f, registerLevel f = some j → sfr ≠ f := fun f hf e => hl (e ▸ hf)
    exact ⟨not_not.1 fun hne => unnamed (.sps j) rfl (target.sps j hne),
      not_not.1 fun hne => unnamed (.spc j) rfl (target.spc j hne),
      not_not.1 fun hne => unnamed (.ev j) rfl (target.ev j hne),
      not_not.1 fun hne => unnamed (.es j) rfl (target.es j hne),
      not_not.1 fun hne => unnamed (.ea j) rfl (target.ea j hne)⟩

/-- RFE writes the saved status of the level it runs at, and no other register of a level (R61). -/
theorem returnFromException_sameContext (d : Level) (s : State) (j : Level) (hj : j ≠ s.ps.pl) :
    SameContext j s (returnFromException d s) := by
  refine ⟨?_, rfl, rfl, rfl, rfl⟩
  rw [returnFromException_sps]
  split
  · rfl
  · exact level_set_ne _ _ _ _ hj

/-- An instruction that completes leaves the registers of every more privileged level alone. -/
theorem completes_sameContext (i : Instr) (s t : State) (j : Level) (hc : Completes s i t) (hj : j < s.ps.pl) :
    SameContext j s t := by
  cases hc with
  | register | nothing | idle => exact ⟨rfl, rfl, rfl, rfl, rfl⟩
  | returns d _ => exact returnFromException_sameContext d s j hj.ne
  | write _ sfr m _ _ _ hw hu => exact writeSfr_sameContext sfr m s t j hw hu hj
  | exchange sfr m r v u hw hu =>
    have hsame := writeSfr_sameContext sfr m s u j hw hu hj
    exact ⟨hsame.sps, hsame.spc, hsame.ev, hsame.es, hsame.ea⟩

/-- An exception entry leaves the registers of every level but its destination alone (R134). -/
theorem Entered.sameContext {cat : Category} {o : Level} {savedPc : Pc} {s t : State} {d j : Level}
    (h : Entered cat o savedPc s t d) (hj : j ≠ d) : SameContext j s t := by
  obtain ⟨hsps, hspc, hes, hea⟩ := h.others j hj
  exact ⟨hsps, hspc, by rw [h.frame.ev], hes, hea⟩

/-- Settles O58: of what a step can do, only an entry to the level and a reset reach the registers of a more privileged
level. -/
theorem savedContextIsProtected : Obligations.SavedContextIsProtected := by
  intro dec s t j h hj
  obtain ⟨u, hu, hresult⟩ := stepWith_result dec s t h
  have hsu := hu.sameProtected
  have kept : SameContext j u t → t.sps[j] = s.sps[j] ∧ t.spc[j] = s.spc[j] ∧ t.ev[j] = s.ev[j] ∧ t.es[j] = s.es[j]
      ∧ t.ea[j] = s.ea[j] := fun hut =>
    have hst := (hsu.context j).trans hut
    ⟨hst.sps, hst.spc, hst.ev, hst.es, hst.ea⟩
  cases hresult with
  | completes i v _ hc =>
    have huv := completes_sameContext i u v j hc (hsu.ps ▸ hj)
    exact .inl (kept ⟨huv.sps, huv.spc, huv.ev, huv.es, huv.ea⟩)
  | enters cat o cause savedPc =>
    have hentered := takeException_entered cat o cause savedPc u
    by_cases hd : j = min o u.ps.pl
    · rw [← hd] at hentered
      exact .inr (.inl ⟨cat, o, savedPc, u, hentered, hsu.ps, hsu.sps, hsu.spc, hsu.ev, hsu.es, hsu.ea⟩)
    · exact .inl (kept (hentered.sameContext hd))
  | keeps _ hsame => exact .inl (kept (hsame.context j))
  | resets _ hi ht => exact .inr (.inr ⟨hi, ht⟩)

end Sys2Proof.Machine
end

section
/-! SUPPORT. The statements of instruction memory (20_memory.md): every step keeps the model's invariant, no instruction
stores (R41), and the fetch runs what stands at `pc` or stops by name (R44). -/

namespace Sys2Proof.Machine

/-! What every step keeps. -/

/-- The invariant speaks of no general register, no bookkeeping of the model's but the wake mark, and no address. -/
theorem State.Ok.congr {s t : State} (h : s.Ok) (hmem : t.mem = s.mem) (hps : t.ps = s.ps) (hsps : t.sps = s.sps)
    (hws : t.ws.other = s.ws.other) (howners : t.owners = s.owners) (hwoken : t.woken = true → t.idle = .running) : t.Ok where
  mem := hmem ▸ h.mem
  ps := hps ▸ h.ps
  sps := hsps ▸ h.sps
  ws := hws ▸ h.ws
  owners r k hk := by
    simp only [State.owner, howners]
    exact h.owners r k hk
  woken := hwoken

/-- A move of the environment keeps the invariant: of what it speaks of, only the WU bits of WS may change. -/
theorem State.Ok.envMove {s : State} (h : s.Ok) (m : EnvMove) : (envMove m s).Ok := by
  cases m with
  | interruptRise k =>
    simp only [Machine.envMove]
    split
    · exact h.congr rfl rfl rfl rfl rfl h.woken
    · exact h
  | pe2peEvent | wakeupSignal | setResetOnWakeup => exact h.congr rfl rfl rfl rfl rfl h.woken

/-- An idle core's step keeps the invariant: a wake makes the core run, and a reset starts it afresh (R101, R104, R107). -/
theorem State.Ok.idleTurn {s : State} (h : s.Ok) : (idleTurn s).Ok := by
  have wakes : ∀ woken, ({ s with idle := .running, woken := woken } : State).Ok :=
    fun _ => h.congr rfl rfl rfl rfl rfl fun _ => rfl
  cases hi : s.idle with
  | running =>
    simp only [Machine.idleTurn, hi]
    exact h
  | inAwait | inSleep =>
    simp only [Machine.idleTurn, hi]
    split
    · exact wakes true
    · exact h
  | inStop =>
    simp only [Machine.idleTurn, hi]
    split
    · split
      · exact resetFrom_ok _ s h.mem
      · exact wakes s.woken
    · exact h

/-- An instruction keeps the invariant in a core that runs bundles already: the mark of a wake is gone. -/
theorem State.Ok.does {i : Instr} {s t : State} (h : s.Ok) (hw : s.woken = false) (hd : Does s i t) : t.Ok := by
  cases hd with
  | trap => exact h.takeException _ _ _ _
  | syscall => exact h.takeException _ _ _ _
  | completes _ u hc => exact (h.completes hw hc).endBundle

/-- A well-formed bundle keeps the invariant. -/
theorem State.Ok.execBundle {s t : State} (h : s.Ok) (hw : s.woken = false) (b : Bundle) (size : Nat)
    (hwf : Bundle.WellFormed b size) (he : execBundle b s = .next t) : t.Ok := by
  obtain ⟨u, hu, -, he⟩ := execBundle_cases b size s t hwf he
  have hok : u.Ok := by
    rw [hu]
    exact h.congr rfl rfl rfl rfl rfl h.woken
  have huw : u.woken = false := (congrArg State.woken hu).trans hw
  rcases he with ⟨i, -, hd⟩ | ⟨cat, o, cause, a, rfl⟩ | rfl
  · exact hok.does huw hd
  · exact hok.takeException cat o cause a
  · exact hok.endBundle

/-- Settles O53: each of the things that a step can do keeps the invariant. -/
theorem stepKeepsTheStateOk : Obligations.StepKeepsTheStateOk := by
  intro dec s t h hstep
  obtain ⟨rest, n, hcases⟩ := stepWith_cases dec s t hstep
  have hready : ({ s with script := rest, draws := n } : State).Ok := h.congr rfl rfl rfl rfl rfl h.woken
  rcases hcases with ⟨b, size, -, hwf, he⟩ | ⟨cat, o, cause, rfl⟩ | ⟨m, rfl⟩ | ⟨-, rfl⟩ | rfl
  · have hat : (State.atBundle { s with script := rest, draws := n } size).Ok :=
      hready.congr rfl rfl rfl rfl rfl fun e => by simp at e
    exact hat.execBundle rfl b size hwf he
  · exact hready.takeException cat o cause s.pc
  · exact hready.envMove m
  · exact hready.idleTurn
  · exact hready

/-! What no instruction reaches (R41, R183). -/

/-- Memory, the environment's bit, the coming turns and every general register but the destination of `i` are the same. -/
structure InstrFrame (i : Instr) (s t : State) : Prop where
  mem : t.mem = s.mem
  resetOnWakeup : t.resetOnWakeup = s.resetOnWakeup
  script : t.script = s.script
  registers : ∀ r : Reg, i.writes ≠ some r → t.readReg r = s.readReg r

/-- The write of an SFR is in the frame of every instruction: it reaches no general register. -/
theorem WriteFrame.instrFrame {s t : State} (h : WriteFrame s t) (i : Instr) : InstrFrame i s t where
  mem := h.mem
  resetOnWakeup := h.resetOnWakeup
  script := h.script
  registers r _ := by simp only [State.readReg, h.gpr]

/-- A write of the destination register keeps the frame. -/
theorem InstrFrame.writeReg {i : Instr} {s t : State} (h : InstrFrame i s t) (d : Reg) (v : Word)
    (hd : i.writes = some d) : InstrFrame i s (t.writeReg d v) where
  mem := h.mem
  resetOnWakeup := h.resetOnWakeup
  script := h.script
  registers r hr := (readReg_writeReg_ne t d r v fun e => hr (e ▸ hd)).trans (h.registers r hr)

/-- An instruction that completes stays in its frame. -/
theorem completes_instrFrame (i : Instr) (s t : State) (hc : Completes s i t) : InstrFrame i s t := by
  have same : ∀ j, InstrFrame j s s := fun _ => ⟨rfl, rfl, rfl, fun _ _ => rfl⟩
  cases hc with
  | register _ d v hd => exact (same i).writeReg d v hd
  | returns => exact ⟨rfl, rfl, rfl, fun _ _ => rfl⟩
  | nothing => exact same i
  | idle => exact ⟨rfl, rfl, rfl, fun _ _ => rfl⟩
  | write _ _ _ _ _ _ _ hu => exact (writeSfr_frame _ _ _ _ hu).instrFrame i
  | exchange sfr _ r v _ _ hu => exact ((writeSfr_frame _ _ _ _ hu).instrFrame (.rswap sfr r)).writeReg r v rfl

/-- An exception entry stays in the frame of every instruction (R134). -/
theorem takeException_instrFrame (i : Instr) (cat : Category) (o : Level) (cause : Cause) (a : Pc) (s : State) :
    InstrFrame i s (takeException cat o cause a s) :=
  ⟨rfl, rfl, rfl, fun _ _ => rfl⟩

/-- Whatever an instruction does, it stays in its frame. -/
theorem Does.instrFrame {i : Instr} {s t : State} (h : Does s i t) : InstrFrame i s t := by
  cases h with
  | trap => exact takeException_instrFrame _ _ _ _ _ _
  | syscall => exact takeException_instrFrame _ _ _ _ _ _
  | completes _ u hc =>
    have hframe := completes_instrFrame i s u hc
    exact ⟨hframe.mem, hframe.resetOnWakeup, hframe.script, hframe.registers⟩

/-- Settles O59: a trap, a system call and a completion all stay in the instruction's frame. -/
theorem instructionFrame : Obligations.InstructionFrame := by
  intro i s t h
  have hframe := (exec_does i s t h).instrFrame
  exact ⟨fun a => by rw [hframe.mem], hframe.resetOnWakeup, hframe.script, hframe.registers⟩

/-! The fetch of an encoded instruction (R52). -/

/-- An encoded instruction takes the bytes that its size says. -/
theorem length_encodeInstr (more : Bool) (i : Instr) : (encodeInstr more i).length = instrSize i := by
  cases i <;> rfl

/-- The decoder reads an encoded instruction back, whatever follows its bytes. -/
theorem decodeInstr_encodeInstr (more : Bool) (i : Instr) (rest : List Byte) :
    decodeInstr (encodeInstr more i ++ rest) = .ok (i, more, rest) := by
  refine decodeInstr_of_operands more i rest ?_
  cases i with
  | rfe => exact Laws.OperandsReadBack.rfe rest
  | get d sfr => exact Laws.OperandsReadBack.get d sfr rest
  | iget z => exact Laws.OperandsReadBack.iget z rest
  | set sfr r => exact Laws.OperandsReadBack.set sfr r rest
  | wfxl sfr r => exact Laws.OperandsReadBack.wfxl sfr r rest
  | wfxm sfr r => exact Laws.OperandsReadBack.wfxm sfr r rest
  | rswap sfr r => exact Laws.OperandsReadBack.rswap sfr r rest
  | tlb m => exact Laws.OperandsReadBack.tlb m rest
  | await => exact Laws.OperandsReadBack.await rest
  | sleep => exact Laws.OperandsReadBack.sleep rest
  | stop => exact Laws.OperandsReadBack.stop rest
  | make d imm => exact Laws.OperandsReadBack.make d imm rest
  | nop => exact Laws.OperandsReadBack.nop rest
  | scall n => exact Laws.OperandsReadBack.scall n rest

/-- The bytes of an instruction without the mark of a successor are a bundle of that instruction, whatever follows. -/
theorem decodeBundle_encode (i : Instr) (rest : List Byte) :
    decodeBundle (encode i ++ rest) = .ok ([i], instrSize i) := by
  simp only [decodeBundle, maxBundle, decodeUpTo, encode, decodeInstr_encodeInstr]

/-- No instruction is longer than what the fetch takes from memory. -/
theorem instrSize_le_maxFetch (i : Instr) : instrSize i ≤ maxFetch := by
  cases i <;> simp [instrSize, maxFetch, maxBundle, maxInstrBytes]

/-- The fetch at the bytes of an instruction gives the bundle of that instruction. -/
theorem fetch_of_memRead_encode (m : List Host.Cell) (a : Pc) (i : Instr)
    (hbytes : ∀ (n : Nat) (h : n < (encode i).length), memRead m (a.toNat + n) = some (encode i)[n])
    (htop : a.toNat + (encode i).length ≤ addressCount) : fetch m a = .bundle [i] (instrSize i) := by
  have hlen : (encode i).length ≤ maxFetch := (length_encodeInstr false i).trans_le (instrSize_le_maxFetch i)
  simp only [fetch, fetchBytes_of_memRead m (encode i) a.toNat maxFetch hlen htop hbytes, decodeBundle_encode]

/-- An instruction by itself is a well-formed bundle: one that must be alone takes four bytes (R50), and one instruction
writes no register twice. -/
theorem wellFormed_single (i : Instr) : Bundle.WellFormed [i] (instrSize i) := by
  have hsize : i.alone = true → instrSize i = 4 := by cases i <;> simp [Instr.alone, instrSize]
  have hindependent : Bundle.independent [i] = true := by
    cases hw : i.writes <;> simp [Bundle.independent, hw]
  cases ha : i.alone with
  | false => simp [Bundle.WellFormed, Bundle.problem, ha, hindependent]
  | true => simp [Bundle.WellFormed, Bundle.problem, hsize ha, hindependent]

/-- Settles O6: the fetch gives the instruction in memory as a well-formed bundle, and the step runs it. -/
theorem stepRunsTheInstructionInMemory : Obligations.StepRunsTheInstructionInMemory := by
  intro s i hscript hidle hpending hbytes htop
  exact stepRunsTheDecodedInstruction fetch s i (instrSize i) hscript hidle hpending
    (fetch_of_memRead_encode s.mem s.pc i hbytes htop) (wellFormed_single i)

/-! Where there is no bundle to run (R44, R51, R57). -/

/-- A byte without a value stops the machine with a fault. -/
theorem runBundle_of_noByte (dec : Decoder) (s : State) (a : Nat) (hdec : dec s.mem s.pc = .noByte a) :
    runBundle dec s = .fault (.fetchNoByte a) := by
  simp only [runBundle, hdec]

/-- Bytes that are no bundle stop the machine with a refusal. -/
theorem runBundle_of_notBundle (dec : Decoder) (s : State) (r : Reject) (hdec : dec s.mem s.pc = .notBundle r) :
    runBundle dec s = .refused (.undecodable r) := by
  simp only [runBundle, hdec]

/-- A bundle that is not well-formed stops the machine with a refusal that says why. -/
theorem runBundle_of_problem (dec : Decoder) (s : State) (b : Bundle) (size : Nat) (p : BundleProblem)
    (hdec : dec s.mem s.pc = .bundle b size) (hp : Bundle.problem b size = some p) :
    runBundle dec s = .refused (.bundleIllFormed p) := by
  simp only [runBundle, hdec, hp]

/-- Settles O7: the step is the run of the bundle at `pc`, which stops in each of the three cases. -/
theorem nothingRunsWithoutAWellFormedBundle : Obligations.NothingRunsWithoutAWellFormedBundle := by
  intro dec s hscript hidle hpending
  have hrun := stepWith_running dec s hscript hidle hpending
  split
  case h_1 a hdec => exact hrun.trans (runBundle_of_noByte dec s a hdec)
  case h_2 r hdec => exact hrun.trans (runBundle_of_notBundle dec s r hdec)
  case h_3 b size hdec => exact fun p hp => hrun.trans (runBundle_of_problem dec s b size p hdec hp)

end Sys2Proof.Machine
end

section
/-! SUPPORT. The statements of the encoding (30_encoding.md), all about the model's stand-in (notes/assumptions/1.md):
decode and encode agree on every bundle, in both directions. -/

namespace Sys2Proof.Machine

/-! The size of what is encoded (R50). -/

/-- A bundle takes the bytes that its size says. -/
theorem length_encodeBundle (b : Bundle) : (encodeBundle b).length = bundleSize b := by
  induction b with
  | nil => rfl
  | cons i b ih =>
    cases b with
    | nil => exact length_encodeInstr false i
    | cons j b =>
      rw [encodeBundle, List.length_append, length_encodeInstr, ih]
      rfl

/-- What must be alone in its bundle has no immediate. -/
theorem instrSize_of_alone (i : Instr) (h : i.alone = true) : instrSize i = 4 := by
  cases i with
  | make d imm => exact nomatch h
  | _ => rfl

/-- Settles O4: the bytes of an instruction are as many as its size, which for these five is that of the header. -/
theorem aloneInstructionsTakeFour : Obligations.AloneInstructionsTakeFour := by
  intro i more h
  have hsize := instrSize_of_alone i h
  exact ⟨(length_encodeInstr more i).trans hsize, hsize⟩

/-! Decoding what was encoded (R52). -/

/-- A bundle that fits is read back, whatever follows its bytes: each mark says whether another instruction comes. -/
theorem decodeUpTo_encodeBundle (n : Nat) (b : Bundle) (rest : List Byte) (hb : b ≠ []) (hlen : b.length ≤ n) :
    decodeUpTo n (encodeBundle b ++ rest) = .ok (b, bundleSize b) := by
  induction n generalizing b with
  | zero => exact absurd (List.length_eq_zero_iff.mp (Nat.le_zero.mp hlen)) hb
  | succ n ih =>
    match b, hb with
    | [i], _ => simp only [encodeBundle, decodeUpTo, decodeInstr_encodeInstr, bundleSize, List.map, List.sum_singleton]
    | i :: j :: b, _ =>
      have htail := ih (j :: b) (List.cons_ne_nil j b) (Nat.le_of_succ_le_succ hlen)
      simp only [encodeBundle, List.append_assoc, decodeUpTo, decodeInstr_encodeInstr, htail, bundleSize, List.map,
        List.sum_cons]

/-- Settles O1: eight instructions are what the decoder reads. -/
theorem decodeOfEncodedBundle : Obligations.DecodeOfEncodedBundle :=
  fun b rest hb hlen => decodeUpTo_encodeBundle maxBundle b rest hb hlen

/-- A table word whose bytes begin with those of an instruction decodes to the instruction. -/
theorem decodeTableWord_of_take {nbits w : Nat} {i : Instr} (h : (tableBytes nbits w).take (instrSize i) = encode i) :
    decodeTableWord nbits w = some i := by
  rw [decodeTableWord, ← List.take_append_drop (instrSize i) (tableBytes nbits w), h, decodeBundle_encode]

/-- Settles O3: each word begins with the bytes of its instruction, and opcode 0 is assigned to none. -/
theorem writtenOutWordsDecode : Obligations.WrittenOutWordsDecode := by
  refine ⟨decodeTableWord_of_take ?_, decodeTableWord_of_take ?_, decodeTableWord_of_take ?_,
    decodeTableWord_of_take ?_, decodeTableWord_of_take ?_, decodeTableWord_of_take ?_, ?_⟩ <;> decide

/-! Encoding what was decoded (R52). -/

/-- A header with opcode `op` and operand bytes `lo`, `hi` and `sfr`, with `rest` after it, is the encoding of `i` with
`rest'` after it, up to the mark of a successor. -/
structure HeaderEncodes (op : Nat) (lo hi sfr : Byte) (rest : List Byte) (i : Instr) (rest' : List Byte) : Prop where
  opcode : op = opcodeOf i
  operands : (lo, hi) = operandBytes i
  sfr : sfr = sfrByte i
  tail : rest = tailBytes i ++ rest'

section Shapes

variable {op : Nat} {lo hi sfr : Byte} {rest rest' : List Byte} {i : Instr}

/-- The header of an instruction without operands. -/
theorem headerEncodes_of_noOperand {j : Instr} (hop : op = opcodeOf j) (hoperands : operandBytes j = (0#8, 0#8))
    (hsfr : sfrByte j = 0#8) (htail : tailBytes j = [])
    (h : headerOnly rest (noOperand j lo hi sfr) = .ok (i, rest')) : HeaderEncodes op lo hi sfr rest i rest' := by
  obtain ⟨hok, rfl⟩ := headerOnly_ok _ _ _ _ h
  obtain ⟨rfl, rfl, rfl, rfl⟩ := noOperand_ok _ _ _ _ _ hok
  exact ⟨hop, hoperands.symm, hsfr.symm, by rw [htail, List.nil_append]⟩

/-- The header of an instruction with an SFR and a register operand. -/
theorem headerEncodes_of_sfrAndReg {g : Sfr → Reg → Instr} (hop : ∀ f r, op = opcodeOf (g f r))
    (hoperands : ∀ f r, operandBytes (g f r) = (BitVec.ofNat 8 r.val, BitVec.ofNat 8 (r.val / 256)))
    (hsfr : ∀ f r, sfrByte (g f r) = BitVec.ofNat 8 (sfrOrdinal f)) (htail : ∀ f r, tailBytes (g f r) = [])
    (h : headerOnly rest (sfrAndReg g lo hi sfr) = .ok (i, rest')) : HeaderEncodes op lo hi sfr rest i rest' := by
  obtain ⟨hok, rfl⟩ := headerOnly_ok _ _ _ _ h
  obtain ⟨f, r, rfl, rfl, rfl, rfl⟩ := sfrAndReg_ok _ _ _ _ _ hok
  exact ⟨hop f r, (hoperands f r).symm, (hsfr f r).symm, by rw [htail, List.nil_append]⟩

/-- The header of IGET, which has a register operand alone. -/
theorem headerEncodes_iget (h : headerOnly rest (oneReg .iget lo hi sfr) = .ok (i, rest')) :
    HeaderEncodes 3 lo hi sfr rest i rest' := by
  obtain ⟨hok, rfl⟩ := headerOnly_ok _ _ _ _ h
  obtain ⟨r, rfl, -, rfl, rfl, rfl⟩ := oneReg_ok _ _ _ _ _ hok
  exact ⟨rfl, rfl, rfl, rfl⟩

/-- The header of TLB*, whose member is the low operand byte. -/
theorem headerEncodes_tlb
    (h : headerOnly rest (if hi = 0#8 ∧ sfr = 0#8 then .ok (.tlb lo) else .error .badOperand) = .ok (i, rest')) :
    HeaderEncodes 8 lo hi sfr rest i rest' := by
  obtain ⟨hok, rfl⟩ := headerOnly_ok _ _ _ _ h
  split at hok
  case isTrue hzero =>
    obtain ⟨rfl, rfl⟩ := hzero
    cases hok
    exact ⟨rfl, rfl, rfl, rfl⟩
  case isFalse => exact nomatch hok

/-- The header of the system call, whose selector is both operand bytes. -/
theorem headerEncodes_scall
    (h : headerOnly rest (if sfr = 0#8 then .ok (.scall (hi ++ lo)) else .error .badOperand) = .ok (i, rest')) :
    HeaderEncodes 14 lo hi sfr rest i rest' := by
  obtain ⟨hok, rfl⟩ := headerOnly_ok _ _ _ _ h
  split at hok
  case isTrue hzero =>
    cases hok
    exact ⟨rfl, (selector_extract hi lo).symm, hzero, rfl⟩
  case isFalse => exact nomatch hok

/-- The header of MAKE and the immediate after it (R53). -/
theorem headerEncodes_make (h : decodeOperands 12 lo hi sfr rest = .ok (i, rest')) :
    HeaderEncodes 12 lo hi sfr rest i rest' := by
  simp only [decodeOperands] at h
  split at h
  case h_1 => exact nomatch h
  case h_2 hone =>
    obtain ⟨d, -, hd, rfl, rfl, rfl⟩ := oneReg_ok _ _ _ _ _ hone
    cases himm : immediate rest with
    | none =>
      rw [hd, himm] at h
      exact nomatch h
    | some p =>
      rw [hd, himm] at h
      cases h
      exact ⟨rfl, rfl, rfl, immediate_eq_some _ _ d _ himm⟩

end Shapes

/-- A header that decodes is the encoding of what it decodes to, and so is what the instruction takes after it. -/
theorem headerEncodes_of_decodeOperands {op : Nat} {lo hi sfr : Byte} {rest rest' : List Byte} {i : Instr}
    (h : decodeOperands op lo hi sfr rest = .ok (i, rest')) : HeaderEncodes op lo hi sfr rest i rest' := by
  match op, h with
  | 1, h | 9, h | 10, h | 11, h | 13, h => exact headerEncodes_of_noOperand rfl rfl rfl rfl h
  | 2, h | 4, h | 5, h | 6, h | 7, h =>
    exact headerEncodes_of_sfrAndReg (fun _ _ => rfl) (fun _ _ => rfl) (fun _ _ => rfl) (fun _ _ => rfl) h
  | 3, h => exact headerEncodes_iget h
  | 8, h => exact headerEncodes_tlb h
  | 12, h => exact headerEncodes_make h
  | 14, h => exact headerEncodes_scall h
  | 0, h | _ + 15, h => exact nomatch h

/-- A byte is the opcode in its low seven bits and the mark in its top bit. -/
theorem opcode_add_mark (top : Byte) :
    BitVec.ofNat 8 (top.toNat % 128 + if decide (128 ≤ top.toNat) then 128 else 0) = top := by
  have hlt := top.isLt
  refine BitVec.eq_of_toNat_eq ?_
  rw [BitVec.toNat_ofNat]
  by_cases hmark : 128 ≤ top.toNat
  · rw [decide_eq_true hmark, if_pos rfl]
    omega
  · rw [decide_eq_false hmark, if_neg Bool.false_ne_true]
    omega

/-- Bytes that decode to an instruction begin with its encoding. -/
theorem eq_encodeInstr_of_decodeInstr {bytes rest : List Byte} {i : Instr} {more : Bool}
    (h : decodeInstr bytes = .ok (i, more, rest)) : bytes = encodeInstr more i ++ rest := by
  match bytes, h with
  | lo :: hi :: sfr :: top :: after, h =>
    simp only [decodeInstr] at h
    split at h
    case h_1 hoperands =>
      cases h
      obtain ⟨hop, hlohi, hsfr, htail⟩ := headerEncodes_of_decodeOperands hoperands
      rw [encodeInstr, ← hop, ← hlohi, ← hsfr, opcode_add_mark, htail]
      rfl
    case h_2 => exact nomatch h

/-- Bytes that decode to a bundle of at most `n` instructions begin with its encoding. -/
theorem eq_encodeBundle_of_decodeUpTo {n : Nat} {bytes : List Byte} {b : Bundle} {size : Nat}
    (h : decodeUpTo n bytes = .ok (b, size)) :
    b ≠ [] ∧ b.length ≤ n ∧ size = bundleSize b ∧ ∃ rest, bytes = encodeBundle b ++ rest := by
  induction n generalizing bytes b size with
  | zero => exact nomatch h
  | succ n ih =>
    simp only [decodeUpTo] at h
    split at h
    case h_1 => exact nomatch h
    case h_2 i rest hinstr =>
      cases h
      exact ⟨List.cons_ne_nil i [], Nat.succ_le_succ (Nat.zero_le n), rfl, rest,
        eq_encodeInstr_of_decodeInstr hinstr⟩
    case h_3 i rest hinstr =>
      split at h
      case h_1 => exact nomatch h
      case h_2 b' size' htail =>
        cases h
        obtain ⟨hne, hlen, rfl, rest', rfl⟩ := ih htail
        obtain ⟨j, b'', rfl⟩ := List.exists_cons_of_ne_nil hne
        refine ⟨List.cons_ne_nil i (j :: b''), Nat.succ_le_succ hlen, rfl, rest', ?_⟩
        rw [eq_encodeInstr_of_decodeInstr hinstr, encodeBundle, List.append_assoc]

/-- Settles O2: the encoding at the head of the bytes is as long as the size that the decoder gives. -/
theorem encodeOfDecodedBytes : Obligations.EncodeOfDecodedBytes := by
  intro bytes b size h
  obtain ⟨hne, hlen, rfl, rest, rfl⟩ := eq_encodeBundle_of_decodeUpTo h
  exact ⟨hne, hlen, rfl, List.take_left' (length_encodeBundle b)⟩

end Sys2Proof.Machine
end

section
/-! SUPPORT. The return from an exception (40_rfe.md): RFE that fits, RFE that overflows, and the entry that restores
what RFE backed up; and the special registers, which neither RFE nor an entry writes (R65, R134). -/

namespace Sys2Proof.Machine

/-! The two outcomes of an RFE that the level may execute (R60, R62). -/

/-- RFE to a level that fits completes with the return. -/
theorem effectOf_rfe_of_fits (s : State) (d : Level) (hm : s.MayExecute .rfe)
    (hd : addLevels s.ps.pl (s.sps[s.ps.pl]).pl = some d) :
    effectOf .rfe s = .complete (returnFromException d s) := by
  simp only [effectOf, rfeEffect, guardOwned_of_mayExecute .rfe s _ hm, hd]

/-- RFE to a level that does not fit raises PL Overflow. -/
theorem effectOf_rfe_of_overflow (s : State) (hm : s.MayExecute .rfe)
    (hd : addLevels s.ps.pl (s.sps[s.ps.pl]).pl = none) : effectOf .rfe s = .trap (s.trapOwner .plo) .plo := by
  simp only [effectOf, rfeEffect, guardOwned_of_mayExecute .rfe s _ hm, hd]

/-- An instruction whose effect is to complete ends its bundle. -/
theorem exec_of_complete (i : Instr) (s t : State) (h : effectOf i s = .complete t) : exec i s = .next t.endBundle := by
  rw [exec_eq_commit, h]
  rfl

/-- A hardware trap is the whole entry, with the address of the trapping bundle saved (R139). -/
theorem takeTrap_entered (o : Level) (cause : Cause) (s : State) : TrapEntered o s (takeTrap o cause s) :=
  takeException_entered .hwtrap o cause s.pc s

/-- Settles O15: the sum does not fit, so the effect of RFE is the trap, taken from the unchanged state. -/
theorem rfeOverflowTraps : Obligations.RfeOverflowTraps := by
  intro s hm hover
  have heffect := effectOf_rfe_of_overflow s hm ((addLevels_eq_none _ _).2 hover)
  exact ⟨takeTrap (s.trapOwner .plo) .plo s, exec_of_trap .rfe s _ _ heffect, takeTrap_entered _ _ _⟩

/-! The saved status after the return (R61). -/

/-- A relative level leads to another level exactly when it is not 0. -/
theorem ne_iff_of_addLevels {i k d : Level} (h : addLevels i k = some d) : d ≠ i ↔ k ≠ 0 := by
  rw [addLevels_eq_some] at h
  rw [ne_eq, ne_eq, Fin.ext_iff, Fin.ext_iff, Fin.val_zero]
  omega

/-- A horizontal return leaves every saved status alone. -/
theorem returnFromException_sps_horizontal (s : State) : (returnFromException s.ps.pl s).sps = s.sps := by
  rw [returnFromException_sps, if_pos rfl]

/-- A vertical return backs up the remnant state into the saved status of the level that it leaves. -/
theorem returnFromException_sps_vertical (s : State) (d : Level) (hd : d ≠ s.ps.pl) :
    (returnFromException d s).sps[s.ps.pl] = Ps.backUp s.sps[s.ps.pl] s.ps := by
  rw [returnFromException_sps, if_neg hd, level_set_self]

/-- Settles O14: RFE completes with the return to the sum of the levels, and the parts of the return are read off. -/
theorem rfeReturns : Obligations.RfeReturns := by
  intro s hm hfits
  obtain ⟨d, hd⟩ : ∃ d, addLevels s.ps.pl (s.sps[s.ps.pl]).pl = some d :=
    ⟨⟨_, Nat.lt_succ_of_le hfits⟩, (addLevels_eq_some _ _ _).2 rfl⟩
  refine ⟨(returnFromException d s).endBundle, exec_of_complete .rfe s _ (effectOf_rfe_of_fits s d hm hd),
    rfl, ((addLevels_eq_some _ _ _).1 hd).symm, rfl, ?horizontal, ?vertical, ?otherLevels, fun _ => rfl, rfl⟩
  case horizontal =>
    intro hzero
    obtain rfl : d = s.ps.pl := by_contra fun hne => (ne_iff_of_addLevels hd).1 hne hzero
    exact returnFromException_sps_horizontal s
  case vertical =>
    intro hnonzero
    rw [endBundle_sps, returnFromException_sps_vertical s d ((ne_iff_of_addLevels hd).2 hnonzero)]
    exact ⟨rfl, getLsbD_backUp_other _ _⟩
  case otherLevels => exact fun m hne => (returnFromException_sameContext d s m hne).sps

/-- Settles O13: the entry to the level left is vertical, so it restores what the saved status holds of the unforced
fields, and there the return has put those of the PS that it left. -/
theorem entryRestoresWhatReturnBackedUp : Obligations.EntryRestoresWhatReturnBackedUp := by
  intro cat cause savedPc s d hlt _ b hb
  have hentered := takeException_entered cat s.ps.pl cause savedPc (returnFromException d s)
  rw [show min s.ps.pl (returnFromException d s).ps.pl = s.ps.pl from min_eq_left hlt.le] at hentered
  rw [(hentered.vertical hlt.ne).other b hb, returnFromException_sps_vertical s d hlt.ne', getLsbD_backUp_other, hb]
  rfl

/-! The special registers. -/

/-- The special registers that no exception entry and no RFE writes are the same. -/
structure SameSpecial (s t : State) : Prop where
  pcr : t.pcr = s.pcr
  ilr : t.ilr = s.ilr
  ev4 : t.ev4 = s.ev4
  itEnable : t.itEnable = s.itEnable
  itLevel : t.itLevel = s.itLevel
  ev : t.ev = s.ev
  owners : t.owners = s.owners

/-- Each special register is the same unless `i` is an SFR write that names it. -/
structure SpecialFrame (i : Instr) (s t : State) : Prop where
  pcr : ¬ i.WritesSfr .pcr → t.pcr = s.pcr
  ilr : ¬ i.WritesSfr .ilr → t.ilr = s.ilr
  ev4 : ¬ i.WritesSfr .ev4 → t.ev4 = s.ev4
  itEnable : ¬ i.WritesSfr .itEnable → t.itEnable = s.itEnable
  itLevel : ¬ i.WritesSfr .itLevel → t.itLevel = s.itLevel
  ev : ∀ j : Level, ¬ i.WritesSfr (.ev j) → t.ev[j] = s.ev[j]
  owners : ∀ r : OwnReg, ¬ i.WritesSfr (.ownW r) → t.owners.get r = s.owners.get r

/-- What changes no special register stays in the frame of every instruction. -/
theorem SameSpecial.frame {s t : State} (h : SameSpecial s t) (i : Instr) : SpecialFrame i s t where
  pcr _ := h.pcr
  ilr _ := h.ilr
  ev4 _ := h.ev4
  itEnable _ := h.itEnable
  itLevel _ := h.itLevel
  ev j _ := by rw [h.ev]
  owners r _ := by rw [h.owners]

/-- The write of an SFR changes only the register that the instruction names. -/
theorem WriteTarget.specialFrame {sfr : Sfr} {s t : State} (h : WriteTarget sfr s t) {i : Instr}
    (hi : i.WritesSfr sfr) : SpecialFrame i s t where
  pcr hn := not_not.1 fun hne => hn (h.pcr hne ▸ hi)
  ilr hn := not_not.1 fun hne => hn (h.ilr hne ▸ hi)
  ev4 hn := not_not.1 fun hne => hn (h.ev4 hne ▸ hi)
  itEnable hn := not_not.1 fun hne => hn (h.itEnable hne ▸ hi)
  itLevel hn := not_not.1 fun hne => hn (h.itLevel hne ▸ hi)
  ev j hn := not_not.1 fun hne => hn (h.ev j hne ▸ hi)
  owners r hn := not_not.1 fun hne => hn (h.owners r hne ▸ hi)

/-- An instruction that completes stays in its frame: RFE writes no special register (R65), and an SFR write only its
own. -/
theorem completes_specialFrame (i : Instr) (s t : State) (hc : Completes s i t) : SpecialFrame i s t := by
  cases hc with
  | register | returns | nothing | idle =>
    refine SameSpecial.frame ?_ _
    exact ⟨rfl, rfl, rfl, rfl, rfl, rfl, rfl⟩
  | write _ sfr m r _ hi _ hu =>
    exact (writeSfr_target sfr m s t hu).specialFrame ⟨r, hi.imp_right (Or.imp_right .inl)⟩
  | exchange sfr m r v u _ hu =>
    obtain ⟨hpcr, hilr, hev4, henable, hlevel, hev, howners⟩ :=
      (writeSfr_target sfr m s u hu).specialFrame (i := .rswap sfr r) ⟨r, .inr (.inr (.inr rfl))⟩
    exact ⟨hpcr, hilr, hev4, henable, hlevel, hev, howners⟩

/-- What an exception entry does not write includes every special register (R134). -/
theorem SameOutsideEntry.sameSpecial {s t : State} (h : SameOutsideEntry s t) : SameSpecial s t :=
  ⟨h.pcr, h.ilr, h.ev4, h.itEnable, h.itLevel, h.ev, h.owners⟩

/-- Whatever an instruction does, it stays in its frame. -/
theorem Does.specialFrame {i : Instr} {s t : State} (h : Does s i t) : SpecialFrame i s t := by
  cases h with
  | trap => exact (takeException_sameOutsideEntry _ _ _ _ _).sameSpecial.frame _
  | syscall => exact (takeException_sameOutsideEntry _ _ _ _ _).sameSpecial.frame _
  | completes _ u hc =>
    obtain ⟨hpcr, hilr, hev4, henable, hlevel, hev, howners⟩ := completes_specialFrame i s u hc
    exact ⟨hpcr, hilr, hev4, henable, hlevel, hev, howners⟩

/-- Settles O60: a trap, a system call and a completion all leave alone each special register that the instruction does
not name. -/
theorem specialRegisterFrame : Obligations.SpecialRegisterFrame := by
  intro i s t h
  have hframe := (exec_does i s t h).specialFrame
  exact ⟨hframe.pcr, hframe.ilr, hframe.ev4, hframe.itEnable, hframe.itLevel, hframe.ev, hframe.owners⟩

end Sys2Proof.Machine
end

section
/-! SUPPORT. The checks of an SFR instruction in R70's order, OPCODE and then PRIVILEGE, and the statements about these two
traps. -/

namespace Sys2Proof.Machine

/-! The owners that an instruction violates (R79, R90, R91). -/

/-- The owners, more privileged than the executing level, of what an instruction writes. -/
def State.targetOwners (s : State) (i : Instr) : List Level :=
  match i with
  | .tlb m => s.tlbViolated m
  | .set _ _ | .wfxl _ _ | .wfxm _ _ | .rswap _ _ => (s.sfrWrite i).elim [] fun w => s.violated w.2.1 w.2.2
  | .rfe | .get _ _ | .iget _ | .await | .sleep | .stop | .make _ _ | .nop | .scall _ => []

/-- All the owners that an instruction violates: its own, and those of what it writes. -/
def State.violatedOwners (s : State) (i : Instr) : List Level := s.instrOwners i.op ++ s.targetOwners i

/-- The owner of an instruction, where it is violated. -/
theorem mem_instrOwners (s : State) (op : Op) (o : Level) :
    o ∈ s.instrOwners op ↔ ∃ k, instrSlot op = some k ∧ s.owner .mo k = o ∧ o < s.ps.pl := by
  cases hk : instrSlot op with
  | none => simp [instrOwners_of_unowned s op hk]
  | some k =>
    simp only [instrOwners_eq s op k hk, List.mem_ite_nil_right, List.mem_singleton, Option.some.injEq, exists_eq_left']
    exact ⟨fun ⟨hlt, ho⟩ => ⟨ho.symm, ho ▸ hlt⟩, fun ⟨ho, hlt⟩ => ⟨ho ▸ hlt, ho.symm⟩⟩

/-- The owners of what a TLB* member writes, where they are violated. -/
theorem mem_tlbViolated (s : State) (m : BitVec 8) (o : Level) :
    o ∈ s.tlbViolated m ↔ ∃ k ∈ tlbSlots m, s.owner .mo k = o ∧ o < s.ps.pl := by
  unfold State.tlbViolated
  split
  · rename_i h
    simp [h]
  · simp only [List.mem_filter, List.mem_map, decide_eq_true_eq]
    exact ⟨fun ⟨⟨k, hk, ho⟩, hlt⟩ => ⟨k, hk, ho, hlt⟩, fun ⟨k, hk, ho, hlt⟩ => ⟨⟨k, hk, ho⟩, hlt⟩⟩

/-- What an SFR write violates beside its own owner is what its masks violate. -/
theorem targetOwners_of_sfrWrite (s : State) (i : Instr) (kind : AccessKind) (sfr : Sfr) (m : Masks)
    (hi : s.sfrWrite i = some (kind, sfr, m)) : s.targetOwners i = s.violated sfr m := by
  cases i <;> simp only [State.sfrWrite, Option.some.injEq, Prod.mk.injEq, reduceCtorEq] at hi
  all_goals
    obtain ⟨rfl, rfl, rfl⟩ := hi
    rfl

/-- An instruction that may share its bundle writes nothing that has an owner. -/
theorem targetOwners_of_shares (s : State) (i : Instr) (hi : i.alone = false) : s.targetOwners i = [] := by
  cases i with
  | set | wfxl | wfxm | rswap | tlb => simp [Instr.alone] at hi
  | rfe | get | iget | await | sleep | stop | make | nop | scall => rfl

/-- A violated owner is more privileged than the executing level. -/
theorem lt_of_mem_violatedOwners (s : State) (i : Instr) (o : Level) (h : o ∈ s.violatedOwners i) : o < s.ps.pl := by
  rcases List.mem_append.1 h with h | h
  · exact lt_of_mem_instrOwners s i.op o h
  · cases i with
    | tlb m =>
      obtain ⟨k, -, -, hlt⟩ := (mem_tlbViolated s m o).1 h
      exact hlt
    | set | wfxl | wfxm | rswap =>
      obtain ⟨b, -, -, hlt⟩ := (mem_violated s _ _ o).1 h
      exact hlt
    | rfe | get | iget | await | sleep | stop | make | nop | scall => simp [State.targetOwners] at h

/-! The OPCODE check (R72, R74, R78, R90). -/

/-- An instruction whose effect is the OPCODE trap takes it (R145). -/
theorem trapsOpcode_of_effect (s : State) (i : Instr) (h : effectOf i s = .trap (s.trapOwner .opcode) .opcode) :
    s.TrapsOpcode i :=
  ⟨_, exec_of_trap i s _ _ h, takeTrap_entered _ _ _⟩

/-- An SFR read that the table refuses raises OPCODE. -/
theorem readEffect_of_refused (op : Op) (kind : AccessKind) (sfr : Sfr) (d : Reg) (s : State)
    (h : sfrAccess kind sfr = false) : readEffect op kind sfr d s = .trap (s.trapOwner .opcode) .opcode := by
  simp [readEffect, h]

/-- IGET of a number that an SFR has is the read of that SFR (R74). -/
theorem effectOf_iget (s : State) (z : Reg) (sfr : Sfr) (h : s.readReg z = sfrIndex sfr) :
    effectOf (.iget z) s = readEffect .iget .iget sfr z s := by
  simp only [effectOf, igetEffect, h, sfrOfIndex_sfrIndex]

/-- GET of an SFR whose row the table refuses traps OPCODE. -/
theorem get_trapsOpcode (s : State) (d : Reg) (sfr : Sfr) (h : sfrAccess .get sfr = false) :
    s.TrapsOpcode (.get d sfr) :=
  trapsOpcode_of_effect s _ (readEffect_of_refused _ _ _ _ _ h)

/-- IGET of an SFR whose row the table refuses traps OPCODE. -/
theorem iget_trapsOpcode (s : State) (z : Reg) (sfr : Sfr) (hz : s.readReg z = sfrIndex sfr)
    (h : sfrAccess .iget sfr = false) : s.TrapsOpcode (.iget z) :=
  trapsOpcode_of_effect s _ ((effectOf_iget s z sfr hz).trans (readEffect_of_refused _ _ _ _ _ h))

/-- An SFR write that the table refuses traps OPCODE. -/
theorem sfrWrite_trapsOpcode (s : State) (i : Instr) (kind : AccessKind) (sfr : Sfr) (m : Masks)
    (hi : s.sfrWrite i = some (kind, sfr, m)) (hp : ¬AccessPasses kind sfr m) : s.TrapsOpcode i := by
  obtain ⟨f, heffect, -⟩ := effectOf_sfrWrite i s kind sfr m hi
  have hrefused : (sfrAccess kind sfr && fieldsAccessible kind sfr m) = false := by
    rwa [← accessPasses_iff, Bool.not_eq_true] at hp
  refine trapsOpcode_of_effect s i (heffect.trans ?_)
  simp only [writeEffect, hrefused, Bool.not_false, if_true]

/-- Settles O31: every form is an SFR write or a read whose row the table refuses. -/
theorem wrongOwnershipAccessTrapsOpcode : Obligations.WrongOwnershipAccessTrapsOpcode := by
  intro x s
  refine ⟨fun r i hi => ?names, get_trapsOpcode s x, iget_trapsOpcode s x, sfrWrite_trapsOpcode s⟩
  case names =>
    have write : ∀ kind sfr m, s.sfrWrite i = some (kind, sfr, m) → sfrAccess kind sfr = false → s.TrapsOpcode i :=
      fun kind sfr m hi hrow => sfrWrite_trapsOpcode s i kind sfr m hi fun hp =>
        Bool.false_ne_true (hrow.symm.trans hp.1)
    simp only [List.mem_cons, List.not_mem_nil, or_false] at hi
    rcases hi with rfl | rfl | rfl | rfl | rfl | rfl
    · exact write _ _ _ rfl rfl
    · exact write _ _ _ rfl rfl
    · exact write _ _ _ rfl rfl
    · exact get_trapsOpcode s x (.ownW r) rfl
    · exact write _ _ _ rfl rfl
    · exact write _ _ _ rfl rfl

/-- Settles O19: no SFR is found for the number, or the one found is a write name. -/
theorem igetStopsOnOtherNumbers : Obligations.IgetStopsOnOtherNumbers := by
  intro z s
  refine ⟨fun hnone => ?_, fun r hr => iget_trapsOpcode s z (.ownW r) hr rfl⟩
  rw [exec_eq_refused]
  simp only [effectOf, igetEffect, sfrOfIndex_eq_none _ hnone]

/-! The PRIVILEGE check (R79, R90, R91). -/

/-- An instruction that its own owner alone guards raises PRIVILEGE to that owner. -/
theorem guardOwned_of_worstOwner (op : Op) (s : State) (e : Effect) (o : Level)
    (h : worstOwner (s.instrOwners op) = some o) : guardOwned op s e = .trap o .privilege := by
  simp only [guardOwned, h]

/-- An SFR read that the table allows is the read, guarded by the owner of the instruction. -/
theorem readEffect_of_row (op : Op) (kind : AccessKind) (sfr : Sfr) (d : Reg) (s : State)
    (h : sfrAccess kind sfr = true) :
    readEffect op kind sfr d s = guardOwned op s (.complete (s.writeReg d (s.readSfr sfr))) := by
  simp [readEffect, h]

/-- Step 2 of R70: an instruction that passes the OPCODE check and violates an owner raises PRIVILEGE, to the most
privileged owner that it violates. -/
theorem effectOf_of_violates (s : State) (i : Instr) (o : Level) (hi : i ≠ .nop) (hp : s.OpcodePasses i)
    (ho : worstOwner (s.violatedOwners i) = some o) : effectOf i s = .trap o .privilege := by
  have guarded : i.alone = false → ∀ e, guardOwned i.op s e = .trap o .privilege := fun ha e => by
    rw [State.violatedOwners, targetOwners_of_shares s i ha, List.append_nil] at ho
    exact guardOwned_of_worstOwner _ s e o ho
  have written : ∀ kind sfr m, s.sfrWrite i = some (kind, sfr, m) → s.OpcodePasses i = AccessPasses kind sfr m →
      effectOf i s = .trap o .privilege := fun kind sfr m hw heq => by
    obtain ⟨f, heffect, -⟩ := effectOf_sfrWrite i s kind sfr m hw
    rw [State.violatedOwners, targetOwners_of_sfrWrite s i kind sfr m hw] at ho
    rw [heffect]
    simp only [writeEffect, (accessPasses_iff kind sfr m).2 (heq ▸ hp), Bool.not_true, Bool.false_eq_true, if_false, ho]
  cases i with
  | nop => exact absurd rfl hi
  | rfe | await | sleep | stop | make | scall => exact guarded rfl _
  | get d sfr => exact (readEffect_of_row _ _ _ _ _ hp).trans (guarded rfl _)
  | iget z =>
    obtain ⟨sfr, hz, hrow⟩ := hp
    exact (effectOf_iget s z sfr hz).trans ((readEffect_of_row _ _ _ _ _ hrow).trans (guarded rfl _))
  | set | wfxl | wfxm | rswap => exact written _ _ _ rfl (by simp [State.OpcodePasses, State.sfrWrite])
  | tlb m =>
    have hpass : Config.tlbAccess m = true := hp
    have hworst : worstOwner (s.instrOwners (.tlb m) ++ s.tlbViolated m) = some o := ho
    simp only [effectOf, tlbEffect, hpass, Bool.not_true, Bool.false_eq_true, if_false, hworst]

/-- An instruction that passes the OPCODE check and violates an owner enters the level of the most privileged owner that
it violates (R133, R147). -/
theorem trapsPrivilege (s : State) (i : Instr) (p : Level) (hi : i ≠ .nop) (hp : s.OpcodePasses i)
    (hv : p ∈ s.violatedOwners i) :
    ∃ o t, exec i s = .next t ∧ TrapEntered o s t ∧ t.ps.pl = o ∧ o ∈ s.violatedOwners i
      ∧ ∀ q ∈ s.violatedOwners i, o ≤ q := by
  obtain ⟨o, ho⟩ : ∃ o, worstOwner (s.violatedOwners i) = some o := by
    rw [← Option.ne_none_iff_exists', ne_eq, worstOwner_eq_none]
    exact List.ne_nil_of_mem hv
  obtain ⟨hmem, hworst⟩ := worstOwner_eq_some _ o ho
  have hentered := takeTrap_entered o .privilege s
  have hlevel := hentered.level.trans (min_eq_left (lt_of_mem_violatedOwners s i o hmem).le)
  exact ⟨o, _, exec_of_trap i s o _ (effectOf_of_violates s i o hi hp ho), hentered, hlevel, hmem, hworst⟩

/-- An owned instruction may be executed exactly where its owner is no more privileged (R91). -/
theorem mayExecute_iff (s : State) (op : Op) (k : Slot) (hk : instrSlot op = some k) :
    s.MayExecute op ↔ s.ps.pl ≤ s.owner .mo k := by
  rw [State.MayExecute, instrOwners_eq s op k hk, ← not_lt, ite_eq_right_iff]
  exact ⟨fun h hlt => List.cons_ne_nil _ _ (h hlt), fun h hlt => absurd hlt h⟩

/-- Settles O16: the owner is among those violated, and alone there where nothing written has a violated owner. -/
theorem ownedInstructionTrapsToItsOwner : Obligations.OwnedInstructionTrapsToItsOwner := by
  intro s i hi
  split
  · rename_i hk
    exact instrOwners_of_unowned s i.op hk
  · rename_i k hk
    refine ⟨mayExecute_iff s i.op k hk, fun hlt hp => ?_⟩
    have hown : s.instrOwners i.op = [s.owner .mo k] := by rw [instrOwners_eq s i.op k hk, if_pos hlt]
    obtain ⟨o, t, hexec, hentered, hlevel, hmem, hworst⟩ :=
      trapsPrivilege s i (s.owner .mo k) hi hp (by simp [State.violatedOwners, hown])
    have only : s.targetOwners i = [] → o = s.owner .mo k := fun hnone => by
      simpa [State.violatedOwners, hown, hnone] using hmem
    refine ⟨o, t, hexec, hentered, hlevel, hworst _ (by simp [State.violatedOwners, hown]),
      fun ha => only (targetOwners_of_shares s i ha), fun kind sfr m hw hmay => only ?_⟩
    rw [targetOwners_of_sfrWrite s i kind sfr m hw, violated_eq_nil]
    exact hmay

/-- An SFR write is not a NOP, and passes the OPCODE check where the table allows it. -/
theorem sfrWrite_passes (s : State) (i : Instr) (kind : AccessKind) (sfr : Sfr) (m : Masks)
    (hi : s.sfrWrite i = some (kind, sfr, m)) (hp : AccessPasses kind sfr m) : i ≠ .nop ∧ s.OpcodePasses i := by
  cases i <;> simp only [State.sfrWrite, Option.some.injEq, Prod.mk.injEq, reduceCtorEq] at hi
  all_goals
    obtain ⟨rfl, rfl, rfl⟩ := hi
    simpa [State.OpcodePasses, State.sfrWrite] using hp

/-- The owners that an SFR write violates: its own, and those of the fields that it tries. -/
theorem mem_violatedOwners_of_sfrWrite (s : State) (i : Instr) (kind : AccessKind) (sfr : Sfr) (m : Masks)
    (hi : s.sfrWrite i = some (kind, sfr, m)) (o : Level) :
    o ∈ s.violatedOwners i ↔ o < s.ps.pl
      ∧ ((∃ k, instrSlot i.op = some k ∧ s.owner .mo k = o) ∨ ∃ b, m.tries sfr b = true ∧ s.ownerAt sfr b = o) := by
  rw [State.violatedOwners, List.mem_append, targetOwners_of_sfrWrite s i kind sfr m hi, mem_instrOwners, mem_violated]
  grind

/-- The owner to which a write traps is at least as privileged as any owner it is compared with, violated or not. -/
theorem le_of_worst {l : List Level} {i o p : Level} (ho : o < i) (hworst : ∀ q ∈ l, o ≤ q) (hp : p < i → p ∈ l) :
    o ≤ p := by
  by_cases hlt : p < i
  · exact hworst p (hp hlt)
  · exact ho.le.trans (not_lt.1 hlt)

/-- An SFR write of a field of a more privileged level traps PRIVILEGE, to the most privileged of the owners violated
(R79). -/
theorem foreignWrite_traps (s : State) (i : Instr) (kind : AccessKind) (sfr : Sfr) (m : Masks) (b : BitNo)
    (hi : s.sfrWrite i = some (kind, sfr, m)) (hp : AccessPasses kind sfr m) (hb : m.tries sfr b = true)
    (hlt : s.ownerAt sfr b < s.ps.pl) :
    ∃ o t, exec i s = .next t ∧ TrapEntered o s t ∧ t.ps.pl = o
      ∧ (∀ c : BitNo, m.tries sfr c = true → o ≤ s.ownerAt sfr c)
      ∧ (∀ k, instrSlot i.op = some k → o ≤ s.owner .mo k)
      ∧ ((∃ k, instrSlot i.op = some k ∧ s.owner .mo k = o)
        ∨ ∃ c : BitNo, m.tries sfr c = true ∧ s.ownerAt sfr c = o) := by
  have mem := mem_violatedOwners_of_sfrWrite s i kind sfr m hi
  obtain ⟨hnop, hpass⟩ := sfrWrite_passes s i kind sfr m hi hp
  obtain ⟨o, t, hexec, hentered, hlevel, hmem, hworst⟩ :=
    trapsPrivilege s i (s.ownerAt sfr b) hnop hpass ((mem _).2 ⟨hlt, .inr ⟨b, hb, rfl⟩⟩)
  obtain ⟨ho, hsource⟩ := (mem o).1 hmem
  exact ⟨o, t, hexec, hentered, hlevel, fun c hc => le_of_worst ho hworst fun h => (mem _).2 ⟨h, .inr ⟨c, hc, rfl⟩⟩,
    fun k hk => le_of_worst ho hworst fun h => (mem _).2 ⟨h, .inl ⟨k, hk, rfl⟩⟩, hsource⟩

/-- The bits of one line's field have one owner (R71). -/
theorem moSlot_of_lineField (l : LineFields) (sfr : Sfr) (k : Line) (b c : BitNo)
    (hl : (l, sfr) ∈ [(ilrFields, Sfr.ilr), (enableFields, .itEnable), (levelFields, .itLevel)])
    (hb : (l.bits k).getLsbD b.val = true) (hc : (l.bits k).getLsbD c.val = true) : moSlot sfr b = moSlot sfr c := by
  obtain ⟨hilr, -, henable, hlevel⟩ := lineFields_ok
  simp only [List.mem_cons, Prod.mk.injEq, List.not_mem_nil, or_false] at hl
  rcases hl with ⟨rfl, rfl⟩ | ⟨rfl, rfl⟩ | ⟨rfl, rfl⟩
  · simp only [moSlot, ownedBit, fieldBit, ilrFields.firstBit_eq hilr k b c hb hc]
  · simp only [moSlot, ownedBit, fieldBit, enableFields.firstBit_eq henable k b c hb hc]
  · simp only [moSlot, ownedBit, fieldBit, levelFields.firstBit_eq hlevel k b c hb hc]

/-- Settles O28: the write traps to the worst owner violated; PCR and the field of a line have one owner each. -/
theorem foreignWriteTrapsPrivilege : Obligations.ForeignWriteTrapsPrivilege := by
  refine ⟨foreignWrite_traps, fun s => ⟨⟨moSlot .pcr 0, ownField_moSlot _ _, fun _ => rfl⟩, ?lineFields⟩⟩
  case lineFields =>
    intro l sfr k b c hl hb hc
    have hslot := moSlot_of_lineField l sfr k b c hl hb hc
    simp only [List.mem_cons, Prod.mk.injEq, List.not_mem_nil, or_false] at hl
    rcases hl with ⟨-, rfl⟩ | ⟨-, rfl⟩ | ⟨-, rfl⟩ <;> exact congrArg (s.owner .mo) hslot

/-- The first bit of an owner field belongs to the field. -/
theorem slotOfBit_two_mul (k : Slot) (h : 2 * k.val < 64) : slotOfBit ⟨2 * k.val, h⟩ = k := by
  simp [slotOfBit]

/-- The second bit of an owner field belongs to the field. -/
theorem slotOfBit_two_mul_add_one (k : Slot) (h : 2 * k.val + 1 < 64) : slotOfBit ⟨2 * k.val + 1, h⟩ = k := by
  apply Fin.ext
  simp only [slotOfBit]
  omega

/-- Settles O29: SET tries every field, so the write tries the foreign one. -/
theorem setTriesEveryField : Obligations.SetTriesEveryField := by
  intro r x s k hk hlt
  have hslot := slotOfBit_two_mul k (by omega)
  have tried : (Masks.whole (s.readReg x)).tries (.ownW r) ⟨2 * k.val, by omega⟩ = true := by
    simp only [Masks.tries, hslot, hk, Bool.and_true]
    exact whole_touchesPair _ _ (by simp only [slotLo]; omega)
  obtain ⟨o, t, hexec, hentered, -, hle, -⟩ :=
    foreignWrite_traps s (.set (.ownW r) x) .set (.ownW r) _ _ rfl ⟨rfl, by simp⟩ tried
      (by simpa only [State.ownerAt, hslot] using hlt)
  refine ⟨o, t, hexec, hentered, ?_⟩
  simpa only [State.ownerAt, hslot] using hle _ tried

/-- SET touches every bit. -/
theorem whole_touches (v : Word) (b : BitNo) : (Masks.whole v).touches b.val = true := by
  have hones : (BitVec.allOnes 64).getLsbD b.val = true := by rw [BitVec.getLsbD_allOnes, decide_eq_true b.isLt]
  simp only [Masks.touches, Masks.whole, hones, Bool.or_true]

/-- SET of a saved status tries every field of it. -/
theorem whole_tries_sps (v : Word) (j : Level) (b : BitNo) (f : PsField) (hf : psFieldAt b = some f) :
    (Masks.whole v).tries (.sps j) b = true := by
  cases f with
  | pl =>
    have := psLayout_facts
    simp only [Masks.tries, hf]
    exact whole_touchesPair _ _ (by omega)
  | ie | et | il | other => simp only [Masks.tries, hf, whole_touches]

/-- Settles O34: the field is tried, and its owner is the more privileged of the level and the owner in PSO. -/
theorem forgedSavedStatusTraps : Obligations.ForgedSavedStatusTraps := by
  intro j x s b f hf hlt
  have tried := whole_tries_sps (s.readReg x) j b f hf
  have howner : s.ownerAt (.sps j) b = min j (s.owner .pso (psoSlot f)) := by
    simp only [State.ownerAt, psOwnerSlot, hf, Option.getD_some]
  obtain ⟨o, t, hexec, hentered, -, hle, -⟩ :=
    foreignWrite_traps s (.set (.sps j) x) .set (.sps j) _ b rfl ⟨rfl, by simp⟩ tried (howner ▸ hlt)
  exact ⟨o, t, hexec, hentered, howner ▸ hle b tried⟩

/-- The owners that a TLB* member violates (R90, R91). -/
theorem mem_violatedOwners_tlb (s : State) (m : BitVec 8) (o : Level) :
    o ∈ s.violatedOwners (.tlb m) ↔ o < s.ps.pl ∧ ∃ k, TlbOwnedBy m k ∧ s.owner .mo k = o := by
  rw [State.violatedOwners, List.mem_append, mem_instrOwners, State.targetOwners, mem_tlbViolated]
  simp only [TlbOwnedBy, Instr.op]
  grind

/-- A TLB* member that passes its checks is refused by name (R90). -/
theorem tlb_refused (s : State) (m : BitVec 8) (hp : Config.tlbAccess m = true) (hv : s.violatedOwners (.tlb m) = []) :
    exec (.tlb m) s = .refused (.tlbEffectNotGiven m) := by
  have hworst : worstOwner (s.instrOwners (.tlb m) ++ s.tlbViolated m) = none := (worstOwner_eq_none _).2 hv
  rw [exec_eq_refused]
  simp only [effectOf, tlbEffect, hp, Bool.not_true, Bool.false_eq_true, if_false, hworst]

/-- Settles O40: the OPCODE check fails, or no owner is violated, or the trap goes to the worst of those that are. -/
theorem tlbChecksThenIsRefused : Obligations.TlbChecksThenIsRefused := by
  intro m s
  have mem := mem_violatedOwners_tlb s m
  cases hp : Config.tlbAccess m with
  | false => exact .inl ⟨rfl, trapsOpcode_of_effect s _ (by simp [effectOf, tlbEffect, hp])⟩
  | true =>
    right
    cases hv : s.violatedOwners (.tlb m) with
    | nil =>
      refine .inl ⟨rfl, fun k hk => not_lt.1 fun hlt => ?_, tlb_refused s m hp hv⟩
      simpa [hv] using (mem _).2 ⟨hlt, k, hk, rfl⟩
    | cons p ps =>
      obtain ⟨o, t, hexec, hentered, hlevel, hmem, hworst⟩ :=
        trapsPrivilege s (.tlb m) p (by simp) hp (by simp [hv])
      obtain ⟨ho, n, hn, rfl⟩ := (mem o).1 hmem
      exact .inr ⟨rfl, n, t, hn, ho,
        fun k hk => le_of_worst ho hworst fun h => (mem _).2 ⟨h, k, hk, rfl⟩, hexec, hentered, hlevel⟩

end Sys2Proof.Machine
end

section
/-! SUPPORT. The reads GET and IGET, and the statements about what a level reads (R73 to R76, R92). -/

namespace Sys2Proof.Machine

/-! A read that completes. -/

/-- What `t` is when a read of `sfr` into register `d` has completed. -/
structure ReadDone (s t : State) (d : Reg) (sfr : Sfr) : Prop where
  value : t.readReg d = s.readSfr sfr
  registers : ∀ r, r ≠ d → t.readReg r = s.readReg r
  pc : t.pc = s.nextBundle
  mem : ∀ a : Nat, memRead t.mem a = memRead s.mem a
  frame : { t with gpr := s.gpr, pc := s.pc } = s

/-- An instruction whose effect is the read of an SFR completes with it. -/
theorem exec_readDone (i : Instr) (s : State) (d : Reg) (sfr : Sfr)
    (h : effectOf i s = .complete (s.writeReg d (s.readSfr sfr))) : ∃ t, exec i s = .next t ∧ ReadDone s t d sfr :=
  ⟨_, exec_of_complete i s _ h, readReg_writeReg_self _ _ _, fun _ hr => readReg_writeReg_ne _ _ _ _ hr, rfl,
    fun _ => rfl, rfl⟩

/-- GET that the table and the owner of the instruction let pass is the read. -/
theorem get_readDone (s : State) (d : Reg) (sfr : Sfr) (hrow : sfrAccess .get sfr = true) (hm : s.MayExecute .get) :
    ∃ t, exec (.get d sfr) s = .next t ∧ ReadDone s t d sfr :=
  exec_readDone _ _ _ _ ((readEffect_of_row _ _ _ _ _ hrow).trans (guardOwned_of_mayExecute _ _ _ hm))

/-- IGET that the table and the owner of the instruction let pass is the read. -/
theorem iget_readDone (s : State) (z : Reg) (sfr : Sfr) (hz : s.readReg z = sfrIndex sfr)
    (hrow : sfrAccess .iget sfr = true) (hm : s.MayExecute .iget) :
    ∃ t, exec (.iget z) s = .next t ∧ ReadDone s t z sfr :=
  exec_readDone _ _ _ _ ((effectOf_iget s z sfr hz).trans
    ((readEffect_of_row _ _ _ _ _ hrow).trans (guardOwned_of_mayExecute _ _ _ hm)))

/-- What a read leaves in its register, bit by bit (R73, R75). -/
theorem ReadDone.bits {s t : State} {d : Reg} {sfr : Sfr} (h : ReadDone s t d sfr) (b : BitNo) :
    (t.readReg d).getLsbD b.val = (s.readable sfr b && s.imageBit sfr b) := by
  rw [h.value, getLsbD_readSfr]

/-- Settles O17: GET is the read of the SFR that it names. -/
theorem getReadsWhatIsReadable : Obligations.GetReadsWhatIsReadable := by
  intro d sfr s hrow hm
  obtain ⟨t, hexec, hread⟩ := get_readDone s d sfr hrow hm
  exact ⟨t, hexec, hread.bits, hread.registers, hread.pc, hread.mem, hread.frame⟩

/-- Settles O18: IGET is the read of the SFR whose number its register holds. -/
theorem igetReadsTheNumberedSfr : Obligations.IgetReadsTheNumberedSfr := by
  intro z sfr s hz hrow hm
  obtain ⟨t, hexec, hread⟩ := iget_readDone s z sfr hz hrow hm
  exact ⟨t, hexec, hread.bits, hread.registers, hread.pc, hread.mem, hread.frame⟩

/-! The ownership registers (R92). -/

/-- The image of an ownership register holds the absolute owner in each field. -/
theorem ownerBit_field (s : State) (r : OwnReg) (k : Slot) (hk : ownField r k = true) (h0 : 2 * k.val < 64)
    (h1 : 2 * k.val + 1 < 64) :
    levelOfBits (s.ownerBit r ⟨2 * k.val, h0⟩) (s.ownerBit r ⟨2 * k.val + 1, h1⟩) = s.owner r k := by
  have hodd : (2 * k.val + 1) % 2 = 1 := by omega
  simp only [State.ownerBit, slotOfBit_two_mul, slotOfBit_two_mul_add_one, hk, if_true, Nat.mul_mod_right, hodd,
    levelOfBits_levelBit]

/-- Settles O20: an ownership register is readable in every bit, and every resource's owner field exists. -/
theorem ownersReadAbsoluteAtEveryLevel : Obligations.OwnersReadAbsoluteAtEveryLevel := by
  refine ⟨fun d r s hm => ?reads, ?resources, ?moFields⟩
  case reads =>
    obtain ⟨t, hexec, hread⟩ := get_readDone s d (.own r) rfl hm
    have bits : ∀ b : BitNo, (t.readReg d).getLsbD b.val = s.ownerBit r b := hread.bits
    refine ⟨t, hexec, fun k hk => ?_⟩
    rw [← ownerBit_field s r k hk (by omega) (by omega), ← bits, ← bits]
  case resources => exact fun n c e k => ⟨ownField_syoSlot n, ownField_htoSlot c, ownField_doSlot e, rfl⟩
  case moFields =>
    exact fun f sfr b op m k => ⟨ownField_psoSlot f, ownField_moSlot sfr b, ownField_instrSlot op k,
      ownField_tlbSlots m k⟩

/-! PS and the saved statuses (R12, R15). -/

/-- The word `v` holds every field of `p` at its place. -/
structure HoldsPs (p : Ps) (v : Word) : Prop where
  pl : levelOfBits (v.getLsbD psLayout.plLo) (v.getLsbD (psLayout.plLo + 1)) = p.pl
  ie : v.getLsbD psLayout.iePos = p.ie
  et : v.getLsbD psLayout.etPos = p.et
  il : ∀ n : Nat, n < psLayout.ilWidth → v.getLsbD (psLayout.ilLo + n) = p.il.getLsbD n
  other : ∀ b : BitNo, psFieldAt b = some (.other b) → v.getLsbD b.val = p.other.getLsbD b.val

/-- The image of a PS holds its fields. -/
theorem holdsPs_of_image (sfr : Sfr) (p : Ps) (v : Word) (h : ∀ b : BitNo, v.getLsbD b.val = p.imageBit sfr b) :
    HoldsPs p v := by
  obtain ⟨hpl, hie, het, -, hil, -⟩ := psLayout_facts
  have hpl0 : psLayout.plLo < 64 := by omega
  have hpl1 : psLayout.plLo + 1 < 64 := by omega
  constructor
  case pl => rw [← imageBit_pl sfr p hpl0 hpl1, ← h, ← h]
  case ie => exact (h ⟨_, hie⟩).trans (imageBit_ie sfr p hie)
  case et => exact (h ⟨_, het⟩).trans (imageBit_et sfr p het)
  case il =>
    intro n hn
    have hlt : psLayout.ilLo + n < 64 := by omega
    exact (h ⟨_, hlt⟩).trans (imageBit_il sfr p n hlt hn)
  case other => exact fun b hb => (h b).trans (imageBit_other sfr p b hb)

/-- A read of PS holds its fields at every level (R76, D10). -/
theorem readSfr_ps (s : State) : HoldsPs s.ps (s.readSfr .ps) :=
  holdsPs_of_image .ps _ _ fun b => getLsbD_readSfr s .ps b

/-- Settles O21: what GET reads of PS holds its fields. -/
theorem psReadInFullAtEveryLevel : Obligations.PsReadInFullAtEveryLevel := by
  intro d s hm
  obtain ⟨t, hexec, hread⟩ := get_readDone s d .ps rfl hm
  have hps := hread.value ▸ readSfr_ps s
  exact ⟨t, hexec, hps.pl, hps.ie, hps.et, hps.il, hps.other⟩

/-- An SFR of which no bit is readable reads as 0 (R75). -/
theorem readSfr_of_unreadable (s : State) (sfr : Sfr) (h : ∀ b, s.readable sfr b = false) : s.readSfr sfr = 0#64 := by
  refine BitVec.eq_of_getLsbD_eq fun n hn => ?_
  rw [getLsbD_readSfr s sfr ⟨n, hn⟩, h, Bool.false_and, BitVec.getLsbD_zero]

/-- A saved status reads in full at its level and above, and as 0 below (D10). -/
theorem readSfr_sps (s : State) (j : Level) :
    (s.ps.pl ≤ j → HoldsPs s.sps[j] (s.readSfr (.sps j))) ∧ (j < s.ps.pl → s.readSfr (.sps j) = 0#64) := by
  refine ⟨fun hle => holdsPs_of_image (.sps j) _ _ fun b => ?_, fun hlt => ?_⟩
  · rw [getLsbD_readSfr]
    simp only [State.readable, hle, decide_true, Bool.true_and, State.imageBit]
  · exact readSfr_of_unreadable s _ fun b => decide_eq_false (not_le_of_gt hlt)

/-! The other SFRs. -/

/-- GET gives what the read gives, or traps OPCODE where the table refuses it. -/
theorem getYields_of_readSfr (s : State) (d : Reg) (sfr : Sfr) (P : Word → Prop) (hm : s.MayExecute .get)
    (hP : P (s.readSfr sfr)) : s.GetYields d sfr P := by
  unfold State.GetYields
  split
  · next hrow =>
    obtain ⟨t, hexec, hread⟩ := get_readDone s d sfr hrow hm
    exact ⟨t, hexec, hread.value ▸ hP⟩
  · next hrow => exact get_trapsOpcode s d sfr (by simpa using hrow)

/-- An SFR of `PC_W` bits that belongs to level `j` is read by level (R71, R75). -/
theorem readsByLevel_of_image (s : State) (j : Level) (sfr : Sfr) (held : Pc)
    (hread : ∀ b, s.readable sfr b = decide (s.ps.pl ≤ j)) (himage : ∀ b, s.imageBit sfr b = pcBit sfr held b) :
    s.ReadsByLevel j held (s.readSfr sfr) := by
  unfold State.ReadsByLevel
  split
  · next hle =>
    intro n hn
    have hn64 : n < 64 := hn.trans_le pcWidth_bounds.2
    rw [getLsbD_readSfr s sfr ⟨n, hn64⟩, hread, himage, decide_eq_true hle, Bool.true_and, pcBit, if_pos hn]
  · next hlt => exact readSfr_of_unreadable s sfr fun b => (hread b).trans (decide_eq_false hlt)

/-- ES of level `j` reads in full at its level and above, and as 0 below (R71, R75). -/
theorem readSfr_es (s : State) (j : Level) : s.readSfr (.es j) = if s.ps.pl ≤ j then s.es[j] else 0#64 := by
  split
  · next hle =>
    refine BitVec.eq_of_getLsbD_eq fun n hn => ?_
    have hmay : s.readable (.es j) ⟨n, hn⟩ = true := decide_eq_true hle
    rw [getLsbD_readSfr s (.es j) ⟨n, hn⟩, hmay, Bool.true_and]
    rfl
  · next hlt => exact readSfr_of_unreadable s _ fun b => decide_eq_false hlt

/-- PCR reads in full at every level (D10). -/
theorem readSfr_pcr (s : State) : s.readSfr .pcr = s.pcr :=
  BitVec.eq_of_getLsbD_eq fun n hn => getLsbD_readSfr s .pcr ⟨n, hn⟩

/-- What the WS layout's constraint says: the three WU bits have places of their own. -/
theorem wsLayout_apart : wsLayout.wu0Pos ≠ wsLayout.wu1Pos ∧ wsLayout.wu0Pos ≠ wsLayout.wu2Pos
    ∧ wsLayout.wu1Pos ≠ wsLayout.wu2Pos := by
  have h := wsLayout_ok
  simp only [WsLayout.ok, Bool.and_eq_true, decide_eq_true_eq] at h
  obtain ⟨⟨⟨-, h01⟩, h02⟩, h12⟩ := h
  exact ⟨h01, h02, h12⟩

/-- A bit of WS beside the three WU bits is none of them. -/
theorem not_isWuBit (b : BitNo) (h : wsOtherMask.getLsbD b.val = true) :
    b.val ≠ wsLayout.wu0Pos ∧ b.val ≠ wsLayout.wu1Pos ∧ b.val ≠ wsLayout.wu2Pos := by
  have hnot : isWuBit b = false := by
    simp only [wsOtherMask, BitVec.getLsbD_ofFnLE, b.isLt, dite_true, Bool.and_eq_true, Bool.not_eq_true'] at h
    exact h.1
  simpa [isWuBit, and_assoc] using hnot

/-- The image of WS holds its fields (R29). -/
theorem imageBit_ws (w : Ws) (b : BitNo) :
    (b.val = wsLayout.wu0Pos → w.imageBit b = w.wu0) ∧ (b.val = wsLayout.wu1Pos → w.imageBit b = w.wu1)
      ∧ (b.val = wsLayout.wu2Pos → w.imageBit b = w.wu2)
      ∧ (wsOtherMask.getLsbD b.val = true → w.imageBit b = w.other.getLsbD b.val) := by
  obtain ⟨h01, h02, h12⟩ := wsLayout_apart
  refine ⟨fun h => ?_, fun h => ?_, fun h => ?_, fun h => ?_⟩
  · rw [Ws.imageBit, if_pos h]
  · rw [Ws.imageBit, if_neg (h ▸ h01.symm), if_pos h]
  · rw [Ws.imageBit, if_neg (h ▸ h02.symm), if_neg (h ▸ h12.symm), if_pos h]
  · obtain ⟨h0, h1, h2⟩ := not_isWuBit b h
    rw [Ws.imageBit, if_neg h0, if_neg h1, if_neg h2, if_pos h]

/-- Settles O22: each SFR by what a read of it gives. -/
theorem perLevelRegistersReadByLevel : Obligations.PerLevelRegistersReadByLevel := by
  intro d j s hm
  have yields := fun sfr P => getYields_of_readSfr s d sfr P hm
  have byOwner : ∀ sfr held, (∀ b, s.readable sfr b = decide (s.ps.pl ≤ s.owner .mo (moSlot sfr b))) →
      (∀ b : BitNo, s.imageBit sfr b = held.getLsbD b.val) → s.GetYields d sfr (s.ReadsByOwner sfr held) :=
    fun sfr held hread himage => yields _ _ fun b => by rw [getLsbD_readSfr, hread, himage]
  refine ⟨?sps, ?pcr, ?spc, ?ev, ?ea, ?es, ?ws, ?ilr, ?ev4, ?itEnable, ?itLevel⟩
  case sps =>
    obtain ⟨t, hexec, hread⟩ := get_readDone s d (.sps j) rfl hm
    obtain ⟨habove, hbelow⟩ := hread.value ▸ readSfr_sps s j
    refine ⟨t, hexec, fun hle => ?_, hbelow⟩
    obtain ⟨hpl, hie, het, hil, hother⟩ := habove hle
    exact ⟨hpl, hie, het, hil, hother⟩
  case pcr =>
    obtain ⟨t, hexec, hread⟩ := get_readDone s d .pcr rfl hm
    exact ⟨t, hexec, hread.value.trans (readSfr_pcr s)⟩
  case spc => exact yields _ _ (readsByLevel_of_image s j _ _ (fun _ => rfl) fun _ => rfl)
  case ev => exact yields _ _ (readsByLevel_of_image s j _ _ (fun _ => rfl) fun _ => rfl)
  case ea => exact yields _ _ (readsByLevel_of_image s j _ _ (fun _ => rfl) fun _ => rfl)
  case es => exact yields _ _ (readSfr_es s j)
  case ws =>
    refine yields _ _ fun b => ?_
    have hbit : (s.readSfr .ws).getLsbD b.val = (decide (s.ps.pl ≤ s.owner .mo (moSlot .ws b)) && s.ws.imageBit b) :=
      getLsbD_readSfr s .ws b
    obtain ⟨h0, h1, h2, hother⟩ := imageBit_ws s.ws b
    exact ⟨fun h => h0 h ▸ hbit, fun h => h1 h ▸ hbit, fun h => h2 h ▸ hbit, fun h => hother h ▸ hbit⟩
  case ilr => exact byOwner _ _ (fun _ => rfl) fun _ => rfl
  case ev4 => exact byOwner _ _ (fun _ => rfl) fun _ => rfl
  case itEnable => exact byOwner _ _ (fun _ => rfl) fun _ => rfl
  case itLevel => exact byOwner _ _ (fun _ => rfl) fun _ => rfl

end Sys2Proof.Machine
end

section
/-! SUPPORT. The writes SET, WFXL, WFXM and RSWAP once their checks pass: completion and PL Overflow; and the statements
about the ownership registers (R83 to R86) and about who may give a resource away (R93). -/

namespace Sys2Proof.Machine

/-! A write that passes its checks (R70). -/

section
variable {s : State} {i : Instr} {kind : AccessKind} {sfr : Sfr} {m : Masks}

/-- A write that passes both checks is the write, over what the instruction does to the general registers, or PL
Overflow. -/
theorem writeEffect_of_checked {op : Op} (f : State → State) (hp : AccessPasses kind sfr m) (hm : s.MayExecute op)
    (hw : s.MayWrite sfr m) :
    writeEffect op kind sfr m f s = (writeSfr sfr m (f s)).elim (.trap (s.trapOwner .plo) .plo) .complete := by
  obtain ⟨hrow, hfields⟩ := Bool.and_eq_true_iff.1 ((accessPasses_iff kind sfr m).2 hp)
  exact writeEffect_of_allowed op kind sfr m f s hrow hfields hm hw

/-- A write that passes both checks and overflows takes PL Overflow, whichever of the four it is (R84). -/
theorem write_overflows (hi : s.sfrWrite i = some (kind, sfr, m)) (hp : AccessPasses kind sfr m)
    (hm : s.MayExecute i.op) (hw : s.MayWrite sfr m) (hover : writeSfr sfr m s = none) :
    ∃ t, exec i s = .next t ∧ TrapEntered (s.owner .hto (htoSlot .plo)) s t := by
  obtain ⟨f, heffect, hf⟩ := effectOf_sfrWrite i s kind sfr m hi
  have hnone : writeSfr sfr m (f s) = none := by
    rcases hf with rfl | ⟨r, v, rfl⟩
    · exact hover
    · rw [writeSfr_writeReg, hover, Option.map_none]
  rw [writeEffect_of_checked f hp hm hw, hnone] at heffect
  exact ⟨_, exec_of_trap i s _ _ heffect, takeTrap_entered _ _ _⟩

/-- SET, WFXL or WFXM that passes both checks and does not overflow completes with the write. -/
theorem write_completes {t : State} (hi : s.sfrWrite i = some (kind, sfr, m)) (hkind : kind ≠ .rswap)
    (hp : AccessPasses kind sfr m) (hm : s.MayExecute i.op) (hw : s.MayWrite sfr m) (ht : writeSfr sfr m s = some t) :
    exec i s = .next t.endBundle := by
  have heffect : effectOf i s = writeEffect i.op kind sfr m id s := by
    cases i <;> simp only [State.sfrWrite, Option.some.injEq, Prod.mk.injEq, reduceCtorEq] at hi
    all_goals obtain ⟨rfl, rfl, rfl⟩ := hi
    case rswap => exact absurd rfl hkind
    all_goals rfl
  rw [writeEffect_of_checked id hp hm hw, id, ht] at heffect
  exact exec_of_complete i s t heffect

end

/-- RSWAP that passes both checks and does not overflow completes with the write and the value read (R89). -/
theorem rswap_completes {s t : State} {sfr : Sfr} {x : Reg} (hrow : sfrAccess .rswap sfr = true)
    (hm : s.MayExecute .rswap) (hw : s.MayWrite sfr (Masks.whole (s.readReg x)))
    (ht : writeSfr sfr (Masks.whole (s.readReg x)) s = some t) :
    exec (.rswap sfr x) s = .next (t.writeReg x (s.readSfr sfr)).endBundle := by
  have heffect : effectOf (.rswap sfr x) s
      = writeEffect .rswap .rswap sfr (Masks.whole (s.readReg x)) (fun t => t.writeReg x (s.readSfr sfr)) s := rfl
  rw [writeEffect_of_checked _ ⟨hrow, by simp⟩ hm hw, writeSfr_writeReg, ht] at heffect
  exact exec_of_complete _ s _ heffect

/-- The end of a bundle after a write goes to the next bundle: the write leaves that alone. -/
theorem endBundle_of_writeSfr {sfr : Sfr} {m : Masks} {s t : State} (h : writeSfr sfr m s = some t) :
    t.endBundle = { t with pc := s.nextBundle } := by
  rw [State.endBundle, (writeSfr_frame sfr m s t h).nextBundle]

/-- Settles O35: each form completes with the write, and RSWAP with the value read in its register too. -/
theorem acceptedWritesComplete : Obligations.AcceptedWritesComplete := by
  intro sfr x s t
  refine ⟨fun hrow hm hw ht => ?set, fun hrow hf hm hw ht => ?wfxl, fun hrow hf hm hw ht => ?wfxm,
    fun hrow hm hw ht => ?rswap⟩
  case set =>
    rw [← endBundle_of_writeSfr ht]
    exact write_completes (i := .set sfr x) rfl (by simp) ⟨hrow, by simp⟩ hm hw ht
  case wfxl =>
    rw [← endBundle_of_writeSfr ht]
    exact write_completes (i := .wfxl sfr x) rfl (by simp) ((accessPasses_iff _ _ _).1 (by rw [hrow, hf]; rfl)) hm hw ht
  case wfxm =>
    rw [← endBundle_of_writeSfr ht]
    exact write_completes (i := .wfxm sfr x) rfl (by simp) ((accessPasses_iff _ _ _).1 (by rw [hrow, hf]; rfl)) hm hw ht
  case rswap =>
    have hframe := writeSfr_frame sfr _ s t ht
    rw [rswap_completes hrow hm hw ht, State.endBundle, writeReg_nextBundle, hframe.nextBundle, State.writeReg,
      hframe.gpr]

/-! The ownership registers (R83, R86). -/

/-- Every field of PS and of a write name is one that WFX* may access, so SET and WFX* of them pass the OPCODE check. -/
theorem accessPasses_relative (kind : AccessKind) (sfr : Sfr) (m : Masks) (hkind : kind = .set ∨ kind = .wfx)
    (hsfr : sfr = .ps ∨ ∃ r, sfr = .ownW r) : AccessPasses kind sfr m := by
  rcases hkind with rfl | rfl <;> rcases hsfr with rfl | ⟨r, rfl⟩ <;> exact ⟨rfl, fun _ _ _ => rfl⟩

/-- SET, WFXL or WFXM of a write name that tries the fields `Tried`, may access each, and overflows in none with the offsets
`offset`, gives each the running level plus its offset, and changes nothing else. -/
theorem ownerWrite_completes {s : State} {i : Instr} {kind : AccessKind} {r : OwnReg} {m : Masks} {Tried : Slot → Prop}
    [DecidablePred Tried] {offset : Slot → Level} (hi : s.sfrWrite i = some (kind, .ownW r, m))
    (hkind : kind = .set ∨ kind = .wfx) (hm : s.MayExecute i.op)
    (tried : ∀ k : Slot, m.triesOwner r k = true ↔ Tried k)
    (hoffset : ∀ k : Slot, Tried k → m.offsetAt (2 * k.val) = offset k)
    (hall : ∀ k : Slot, Tried k → s.ps.pl ≤ s.owner r k ∧ s.ps.pl.val + (offset k).val ≤ 3) :
    ∃ t, exec i s = .next t
      ∧ (∀ k : Slot, (t.owner r k).val = if Tried k then s.ps.pl.val + (offset k).val else (s.owner r k).val)
      ∧ (∀ q : OwnReg, q ≠ r → t.owners.get q = s.owners.get q)
      ∧ t.pc = s.nextBundle
      ∧ (∀ a : Nat, memRead t.mem a = memRead s.mem a)
      ∧ { t with owners := s.owners, pc := s.pc } = s := by
  have hp := accessPasses_relative kind (.ownW r) m hkind (.inr ⟨r, rfl⟩)
  have hnot : kind ≠ .rswap := by rcases hkind with rfl | rfl <;> simp
  have hmay : s.MayWrite (.ownW r) m := (mayWrite_ownW r m s).2 fun k hk => (hall k ((tried k).1 hk)).1
  obtain ⟨t, ht, howner, hothers, hframe⟩ := writeSfr_ownW r m s fun k hk => by
    rw [hoffset k ((tried k).1 hk)]
    exact (hall k ((tried k).1 hk)).2
  have hwrite := writeSfr_frame _ m s t ht
  refine ⟨t.endBundle, write_completes hi hnot hp hm hmay ht, fun k => (howner k).trans ?value, hothers,
    hwrite.nextBundle, fun a => congrArg (memRead · a) hwrite.mem, ?frame⟩
  case value =>
    rw [if_congr (tried k) rfl rfl]
    split
    · next hk => rw [hoffset k hk]
    · rfl
  case frame =>
    calc { t.endBundle with owners := s.owners, pc := s.pc }
        = { ({ t with owners := s.owners } : State) with pc := s.pc } := rfl
      _ = { s with pc := s.pc } := by rw [hframe]
      _ = s := rfl

/-- SET tries every owner field that the register has (R86). -/
theorem whole_triesOwner (v : Word) (r : OwnReg) (k : Slot) : (Masks.whole v).triesOwner r k = ownField r k := by
  rw [Masks.triesOwner, whole_touchesPair v _ (by simp only [slotLo]; omega), Bool.true_and]

/-- The owner fields that WFXL tries (R78). -/
theorem low_triesOwner (v : Word) (r : OwnReg) (k : Slot) :
    (Masks.low v).triesOwner r k = true ↔ ownField r k = true ∧ k.val < 16 ∧ wfxMasksAt v (2 * k.val) ≠ (0, 0) := by
  rw [Masks.triesOwner, slotLo, low_touchesPair]
  simp only [Bool.and_eq_true, decide_eq_true_eq, and_comm]

/-- The owner fields that WFXM tries (R81). -/
theorem high_triesOwner (v : Word) (r : OwnReg) (k : Slot) :
    (Masks.high v).triesOwner r k = true
      ↔ ownField r k = true ∧ 16 ≤ k.val ∧ wfxMasksAt v (2 * k.val - 32) ≠ (0, 0) := by
  rw [Masks.triesOwner, slotLo, high_touchesPair]
  simp only [Bool.and_eq_true, decide_eq_true_eq, and_comm]

/-- Settles O23: SET tries the fields that the register has. -/
theorem setOwnersIsRelative : Obligations.SetOwnersIsRelative := by
  intro r x s hm hw hfits
  obtain ⟨t, hexec, howner, hrest⟩ := ownerWrite_completes (s := s) (i := .set (.ownW r) x) rfl (.inl rfl) hm
    (fun k => by rw [whole_triesOwner]) (fun k _ => whole_offsetAt _ _) fun k hk => ⟨hw k hk, hfits k hk⟩
  exact ⟨t, hexec, fun k hk => (howner k).trans (if_pos hk),
    fun k hk => Fin.ext ((howner k).trans (if_neg (by simp [hk]))), hrest⟩

/-- Settles O24: WFXL tries the fields in bits 31:0 that the operand touches. -/
theorem wfxlFollowsTheTable : Obligations.WfxlFollowsTheTable := by
  intro r x s hm hall
  exact ownerWrite_completes rfl (.inr rfl) hm (low_triesOwner _ r) (fun k ⟨_, hlow, _⟩ => low_offsetAt _ k hlow)
    fun k ⟨hfield, hlow, hmasks⟩ => hall k hfield hlow hmasks

/-- Settles O25: WFXM tries the fields in bits 63:32 that the operand touches. -/
theorem wfxmFollowsTheTable : Obligations.WfxmFollowsTheTable := by
  intro r x s hm hall
  exact ownerWrite_completes rfl (.inr rfl) hm (high_triesOwner _ r) (fun k ⟨_, hhigh, _⟩ => high_offsetAt _ k hhigh)
    fun k ⟨hfield, hhigh, hmasks⟩ => hall k hfield hhigh hmasks

/-- The masks of the worked example (R78): write "01" at IT0, read "11" at IT4, and nothing at the other fields of the
half. -/
theorem wfxMasksAt_workedExample : ∀ k : Slot, k.val < 16 → wfxMasksAt 0x0000000100000300#64 (2 * k.val)
    = if k = 0 then (1, 0) else if k = 4 then (0, 3) else (0, 0) := by
  decide

/-- Settles O26: the table of R83 at the masks of the worked example. -/
theorem workedExampleDelegatesInterrupts : Obligations.WorkedExampleDelegatesInterrupts := by
  intro x s hm hx h0 h4 hlt
  have masks := wfxMasksAt_workedExample
  rw [← hx] at masks
  have allowed : ∀ k : Slot, k.val < 16 → wfxMasksAt (s.readReg x) (2 * k.val) ≠ (0, 0) →
      s.ps.pl ≤ s.owner .ito k ∧ s.ps.pl.val + (wfxMasksAt (s.readReg x) (2 * k.val)).1.val ≤ 3 := by
    intro k hk htouched
    rw [masks k hk] at htouched ⊢
    by_cases hk0 : k = 0
    · subst hk0
      exact ⟨h0, hlt⟩
    · by_cases hk4 : k = 4
      · subst hk4
        exact ⟨h4, Nat.le_of_lt_succ s.ps.pl.isLt⟩
      · simp [hk0, hk4] at htouched
  obtain ⟨t, hexec, howner, -⟩ := wfxlFollowsTheTable .ito x s hm fun k _ => allowed k
  have m0 : wfxMasksAt (s.readReg x) 0 = (1, 0) := masks 0 (by decide)
  have m4 : wfxMasksAt (s.readReg x) 8 = (0, 3) := masks 4 (by decide)
  refine ⟨t, hexec, ?it0, ?it4, fun k hk0 hk4 => ?rest⟩
  case it0 => simpa [m0, ownField, lineExists] using howner 0
  case it4 => exact Fin.ext (by simpa [m4, ownField, lineExists] using howner 4)
  case rest =>
    refine Fin.ext ((howner k).trans (if_neg fun ⟨_, hk, htouched⟩ => htouched ?_))
    rw [masks k hk, if_neg hk0, if_neg hk4]

/-! PL Overflow (R84, R85). -/

/-- A write whose offset leads past PL3, at PL of PS or at an owner field, is not made. -/
theorem writeSfr_overflow (sfr : Sfr) (m : Masks) (offsetAt : Nat → Level) (s : State)
    (hoffset : ∀ lo, lo + 2 ≤ 32 ∨ 32 ≤ lo ∧ lo + 2 ≤ 64 → m.offsetAt lo = offsetAt lo)
    (h : (sfr = .ps ∧ 3 < s.ps.pl.val + (offsetAt psLayout.plLo).val)
      ∨ ∃ r k, sfr = .ownW r ∧ ownField r k = true ∧ 3 < s.ps.pl.val + (offsetAt (2 * k.val)).val) :
    writeSfr sfr m s = none := by
  rcases h with ⟨rfl, hover⟩ | ⟨r, k, rfl, hk, hover⟩
  · rw [← hoffset _ psLayout_facts.1] at hover
    exact writeSfr_ps_overflow m s hover
  · rw [← hoffset (2 * k.val) (by omega)] at hover
    have tried : m.triesOwner r k = true := by
      rw [Masks.triesOwner, slotLo, touched_of_overflow m _ _ hover, hk, Bool.and_self]
    exact writeSfr_ownW_overflow r m s k tried hover

/-- Settles O27: the write is not made, so each form that its checks let pass takes PL Overflow. -/
theorem relativeWriteOverflowTraps : Obligations.RelativeWriteOverflowTraps := by
  refine ⟨fun i m offsetAt sfr x s hi hm hw hover => ?forms, fun x s hm hw hover => ?rswap⟩
  case forms =>
    have relative : sfr = .ps ∨ ∃ r, sfr = .ownW r := hover.imp And.left fun ⟨r, _, h, _⟩ => ⟨r, h⟩
    have traps : ∀ kind, s.sfrWrite i = some (kind, sfr, m) → kind = .set ∨ kind = .wfx →
        (∀ lo, lo + 2 ≤ 32 ∨ 32 ≤ lo ∧ lo + 2 ≤ 64 → m.offsetAt lo = offsetAt lo) →
        ∃ t, exec i s = .next t ∧ TrapEntered (s.owner .hto (htoSlot .plo)) s t := fun kind hwrite hkind hoffset =>
      write_overflows hwrite (accessPasses_relative kind sfr m hkind relative) hm hw
        (writeSfr_overflow sfr m offsetAt s hoffset hover)
    simp only [List.mem_cons, Prod.mk.injEq, List.not_mem_nil, or_false] at hi
    rcases hi with ⟨rfl, rfl, rfl⟩ | ⟨rfl, rfl, rfl⟩ | ⟨rfl, rfl, rfl⟩
    · exact traps .set rfl (.inl rfl) fun _ _ => rfl
    · exact traps .wfx rfl (.inr rfl) (low_offsetAt_eq _)
    · exact traps .wfx rfl (.inr rfl) (high_offsetAt_eq _)
  case rswap =>
    split
    · next hrow =>
      exact write_overflows (i := .rswap .ps x) rfl ⟨hrow, by simp⟩ hm hw (writeSfr_ps_overflow _ s hover)
    · next hrow => exact sfrWrite_trapsOpcode s (.rswap .ps x) _ _ _ rfl fun hp => hrow hp.1

/-! Who may give a resource away (R71, R93). -/

/-- An owner field that a write changes, once its checks pass, was held by a level that the executing one may act for,
and goes to the executing level or to a less privileged one. -/
theorem writeSfr_owner_moves_down (sfr : Sfr) (m : Masks) (s t : State) (r : OwnReg) (k : Slot) (hw : s.MayWrite sfr m)
    (hu : writeSfr sfr m s = some t) (hne : t.owner r k ≠ s.owner r k) :
    s.ps.pl ≤ s.owner r k ∧ s.ps.pl ≤ t.owner r k := by
  obtain rfl : sfr = .ownW r :=
    (writeSfr_target sfr m s t hu).owners r fun h => hne (by rw [State.owner, h, State.owner])
  have hfits : ∀ k : Slot, m.triesOwner r k = true → s.ps.pl.val + (m.offsetAt (2 * k.val)).val ≤ 3 := fun k hk => by
    by_contra hover
    rw [writeSfr_ownW_overflow r m s k hk (not_le.1 hover)] at hu
    simp at hu
  obtain ⟨u, hu', howner, -⟩ := writeSfr_ownW r m s hfits
  obtain rfl : u = t := Option.some.inj (hu'.symm.trans hu)
  by_cases hk : m.triesOwner r k = true
  · refine ⟨(mayWrite_ownW r m s).1 hw k hk, Fin.le_def.2 ?_⟩
    rw [howner k, if_pos hk]
    exact Nat.le_add_right _ _
  · exact absurd (Fin.ext ((howner k).trans (if_neg hk))) hne

/-- So it is with an owner field that an instruction changes when it completes: only the writes change one. -/
theorem completes_owner_moves_down (i : Instr) (s t : State) (r : OwnReg) (k : Slot) (hc : Completes s i t)
    (hne : t.owner r k ≠ s.owner r k) : s.ps.pl ≤ s.owner r k ∧ s.ps.pl ≤ t.owner r k := by
  cases hc with
  | register | returns | nothing | idle => exact absurd rfl hne
  | write _ sfr m _ _ _ hw hu => exact writeSfr_owner_moves_down sfr m s t r k hw hu hne
  | exchange sfr m _ _ u hw hu => exact writeSfr_owner_moves_down sfr m s u r k hw hu hne

/-- Settles O57: of what a step can do, only a write that passed its checks and a reset change an owner. -/
theorem ownershipMovesOnlyDown : Obligations.OwnershipMovesOnlyDown := by
  intro dec s t r k h hne
  obtain ⟨u, hu, hresult⟩ := stepWith_result dec s t h
  have hsu := hu.sameProtected
  have howner : u.owner r k = s.owner r k := by rw [State.owner, hsu.owners, State.owner]
  rw [← howner] at hne ⊢
  rw [← hsu.ps]
  cases hresult with
  | completes i v _ hc => exact .inl (completes_owner_moves_down i u v r k hc hne)
  | enters => exact absurd rfl hne
  | keeps _ hsame => exact absurd (by rw [State.owner, hsame.owners, State.owner]) hne
  | resets _ hi ht => exact .inr ⟨hi, ht⟩

end Sys2Proof.Machine
end

section
/-! SUPPORT. The regular update of every SFR but the ownership registers (R82, R85, R87), and the statements about it,
about SET of PS and of a saved status, and about RSWAP of PS. -/

namespace Sys2Proof.Machine

/-! SET of PS and of a saved status (R77, R85, R87). -/

/-- A write to PS whose offset fits gives PL the running level plus the offset where it is touched, and every other
field its regular update. -/
theorem writeSfr_ps (m : Masks) (s : State)
    (h : m.touchesPair psLayout.plLo = true → s.ps.pl.val + (m.offsetAt psLayout.plLo).val ≤ 3) :
    ∃ d : Level, writeSfr .ps m s = some { s with ps := { m.psFields s.ps with pl := d } }
      ∧ d.val = if m.touchesPair psLayout.plLo = true then s.ps.pl.val + (m.offsetAt psLayout.plLo).val
          else s.ps.pl.val := by
  by_cases ht : m.touchesPair psLayout.plLo = true
  · have hlt := Nat.lt_succ_of_le (h ht)
    have hd : addLevels s.ps.pl (m.offsetAt psLayout.plLo) = some ⟨_, hlt⟩ := (addLevels_eq_some _ _ _).2 rfl
    exact ⟨⟨_, hlt⟩, by simp only [writeSfr, writePs, ht, if_true, hd], (if_pos ht).symm⟩
  · exact ⟨s.ps.pl, by simp only [writeSfr, writePs, if_neg ht, Masks.psFields], (if_neg ht).symm⟩

/-- SET and RSWAP touch PL of PS. -/
theorem whole_touches_pl (v : Word) : (Masks.whole v).touchesPair psLayout.plLo = true :=
  whole_touchesPair v _ (by have := psLayout_facts; omega)

/-- The write of SET and RSWAP to PS, where the offset fits: PL is the sum, and the other fields are the value's. -/
theorem writeSfr_ps_whole (v : Word) (s : State) (h : s.ps.pl.val + (setOffsetAt v psLayout.plLo).val ≤ 3) :
    ∃ d : Level, writeSfr .ps (Masks.whole v) s = some { s with ps := { (Masks.whole v).psFields s.ps with pl := d } }
      ∧ d.val = s.ps.pl.val + (setOffsetAt v psLayout.plLo).val := by
  obtain ⟨d, hwrite, hd⟩ := writeSfr_ps (Masks.whole v) s fun _ => h
  exact ⟨d, hwrite, hd.trans (if_pos (whole_touches_pl v))⟩

/-- Settles O32: SET of PS completes with the write. -/
theorem setPsIsRelativeInItsLevel : Obligations.SetPsIsRelativeInItsLevel := by
  intro x s hm hw hfits
  obtain ⟨d, hwrite, hd⟩ := writeSfr_ps_whole (s.readReg x) s hfits
  obtain ⟨hie, het, hil, hother⟩ := whole_psFields (s.readReg x) s.ps
  have hexec := write_completes (i := .set .ps x) rfl (by simp)
    (accessPasses_relative _ _ _ (.inl rfl) (.inl rfl)) hm hw hwrite
  exact ⟨_, hexec, hd, hie, het, hil, hother, rfl, fun _ => rfl, rfl⟩

/-- A saved status after a write: every field, PL too, has its regular update (R82, R87). -/
def Masks.savedStatus (m : Masks) (p : Ps) : Ps := { m.psFields p with pl := m.pair psLayout.plLo p.pl }

/-- A write of a saved status replaces that of its level alone, and never overflows (R87). -/
theorem writeSfr_sps (m : Masks) (j : Level) (s : State) :
    writeSfr (.sps j) m s = some { s with sps := s.sps.set j.val (m.savedStatus s.sps[j]) } := rfl

/-- SET gives a saved status the operand's bits in every field. -/
theorem whole_savedStatus (v : Word) (p : Ps) : HoldsPs ((Masks.whole v).savedStatus p) v := by
  have hlo : psLayout.plLo < 64 ∧ psLayout.plLo + 1 < 64 := by have := psLayout_facts; omega
  obtain ⟨hie, het, hil, hother⟩ := whole_psFields v p
  refine ⟨?_, hie.symm, het.symm, fun n hn => (hil n hn).symm, fun b hb => (hother b hb).symm⟩
  simp only [Masks.savedStatus, Masks.pair, whole_bit v _ hlo.1, whole_bit v _ hlo.2]

/-- Settles O33: SET of a saved status completes with the write, which checks no sum. -/
theorem setSavedStatusStoresAsGiven : Obligations.SetSavedStatusStoresAsGiven := by
  intro j x s hm hw
  have hself := level_set_self s.sps j ((Masks.whole (s.readReg x)).savedStatus s.sps[j])
  have hnew := hself.symm ▸ whole_savedStatus (s.readReg x) s.sps[j]
  have hexec := write_completes (i := .set (.sps j) x) rfl (by simp) ⟨rfl, by simp⟩ hm hw (writeSfr_sps _ j s)
  exact ⟨_, hexec, hnew.pl.symm, hnew.ie.symm, hnew.et.symm, fun n hn => (hnew.il n hn).symm,
    fun b hb => (hnew.other b hb).symm, fun k hk => level_set_ne _ _ _ _ hk, rfl, fun _ => rfl, rfl⟩

/-- Settles O39: RSWAP of PS completes with the read and the write. -/
theorem rswapExchangesPs : Obligations.RswapExchangesPs := by
  intro x s hm hw hfits
  split
  · next hrow =>
    obtain ⟨d, hwrite, hd⟩ := writeSfr_ps_whole (s.readReg x) s hfits
    obtain ⟨hie, -⟩ := whole_psFields (s.readReg x) s.ps
    have hold := readSfr_ps s
    refine ⟨_, rswap_completes hrow hm hw hwrite, ?_⟩
    rw [show ∀ u : State, u.endBundle.readReg x = u.readReg x from fun _ => rfl, readReg_writeReg_self]
    exact ⟨hold.pl, hold.ie, hd, hie, fun r hr => readReg_writeReg_ne _ x r _ hr, rfl, fun _ => rfl, rfl⟩
  · next hrow => exact sfrWrite_trapsOpcode s (.rswap .ps x) _ _ _ rfl fun hp => hrow hp.1

/-! Whole writes (R77). -/

/-- Settles O38: the masks of SET replace a word. -/
theorem wholeWriteReplacesTheRegister : Obligations.WholeWriteReplacesTheRegister := by
  intro j v s
  simp only [writeSfr, whole_word, whole_pcWord, true_and]
  exact ⟨_, rfl, (image_ev4 _ _).trans (whole_word v _), rfl⟩

/-! Masks that touch nothing (R78). -/

/-- Masks that touch no bit try no field. -/
theorem tries_of_untouched (m : Masks) (sfr : Sfr) (b : BitNo) (h : ∀ n, m.touches n = false) :
    m.tries sfr b = false := by
  cases sfr with
  | ps | sps j =>
    simp only [Masks.tries]
    split <;> simp [Masks.touchesPair, h]
  | pcr | ws | ilr | ev4 | itEnable | itLevel | spc | ev | es | ea | own | ownW =>
    simp [Masks.tries, Masks.touchesPair, h]

/-- The PS fields of which no bit is touched keep their values. -/
theorem psFields_of_untouched (m : Masks) (p : Ps) (h : ∀ n, m.touches n = false) : m.psFields p = p := by
  have hsaved := sps_of_untried m p 0 fun b => tries_of_untouched m _ b h
  have hpl : m.pair psLayout.plLo p.pl = p.pl := congrArg Ps.pl hsaved
  rwa [hpl] at hsaved

/-- The bits of a word that lie in a mask keep their values where none is touched. -/
theorem wordWithin_of_untouched (m : Masks) (w v : Word) (h : ∀ n, m.touches n = false) : m.wordWithin w v = v := by
  refine BitVec.eq_of_getLsbD_eq fun n hn => ?_
  obtain ⟨hset, hclr⟩ := (touches_eq_false m n).1 (h n)
  simp only [Masks.wordWithin, BitVec.getLsbD_or, BitVec.getLsbD_and, BitVec.getLsbD_not, hset, hclr, hn, decide_true,
    Bool.false_and, Bool.not_false, Bool.and_true, Bool.or_false]

/-- A write that touches no bit is made, and writes nothing. -/
theorem writeSfr_of_untouched (sfr : Sfr) (m : Masks) (s : State) (h : ∀ n, m.touches n = false) :
    writeSfr sfr m s = some s := by
  have untried := fun sfr b => tries_of_untouched m sfr b h
  have word : ∀ w : Word, m.word w = w := fun w => word_of_untouched m w fun b => h b.val
  cases sfr with
  | ps => simp [writeSfr, writePs, Masks.touchesPair, h, psFields_of_untouched m s.ps h]
  | sps j | spc j | ev j | es j | ea j => exact writeSfr_of_untried _ m s j rfl (untried _)
  | pcr | ilr | itEnable | itLevel => simp only [writeSfr, word]
  | ev4 => simp only [writeSfr, Masks.ev4, word, if_true]
  | ws => simp only [writeSfr, Masks.wsFields, bit_of_untouched m _ _ (h _), wordWithin_of_untouched m _ _ h]
  | own r => rfl
  | ownW r =>
    have hnone : ∀ k, m.triesOwner r k = false := fun k => by simp [Masks.triesOwner, Masks.touchesPair, h]
    have hfits : m.ownerOverflow s.ps.pl r = false := by simp [Masks.ownerOverflow, hnone]
    have hsame : m.ownerFields s.ps.pl r (s.owners.get r) = s.owners.get r := by
      ext k hk
      simp [Masks.ownerFields, hnone]
    have hput : s.owners.put r (s.owners.get r) = s.owners := by cases r <;> rfl
    simp only [writeSfr, hfits, hsame, hput, Bool.false_eq_true, if_false]

/-- The masks of an operand 0 touch no bit. -/
theorem zero_untouched (n : Nat) : (Masks.low 0#64).touches n = false ∧ (Masks.high 0#64).touches n = false := by
  simp [Masks.touches, Masks.low, Masks.high]

/-- Settles O37: the masks of an operand 0 touch no bit. -/
theorem zeroMasksChangeNothing : Obligations.ZeroMasksChangeNothing := by
  intro sfr s
  have hlow : ∀ n, (Masks.low 0#64).touches n = false := fun n => (zero_untouched n).1
  have hhigh : ∀ n, (Masks.high 0#64).touches n = false := fun n => (zero_untouched n).2
  have may : ∀ m : Masks, (∀ n, m.touches n = false) → s.violated sfr m = [] := fun m hm =>
    (violated_eq_nil s sfr m).2 fun b hb => by simp [tries_of_untouched m sfr b hm] at hb
  exact ⟨may _ hlow, may _ hhigh, writeSfr_of_untouched sfr _ s hlow, writeSfr_of_untouched sfr _ s hhigh⟩

/-! The regular update (R82). -/

/-- Every field of a saved status but PL has its regular update, as PS has (R82). -/
theorem savedStatus_updated (m : Masks) (p : Ps) : FieldsUpdated m p (m.savedStatus p) := by
  obtain ⟨hie, het, hil, hother⟩ := psFields_updated m p
  exact ⟨hie, het, hil, hother⟩

/-- The regular update of the registers of `PC_W` bits of one level leaves the other levels' alone. -/
theorem pcWord_updated (m : Masks) (v : Vector Pc 4) (j : Level) :
    (∀ n : Nat, n < pcWidth → ((v.set j.val (m.pcWord v[j]))[j]).getLsbD n = regularUpdate m n (v[j].getLsbD n))
      ∧ ∀ k : Level, k ≠ j → (v.set j.val (m.pcWord v[j]))[k] = v[k] := by
  refine ⟨fun n hn => ?_, fun k hk => level_set_ne v j k _ hk⟩
  rw [level_set_self, getLsbD_pcWord m _ n hn]

/-- What a write to PS does under any masks (R82, R85). -/
theorem writeSfr_ps_updated (m : Masks) (s : State) :
    if m.touchesPair psLayout.plLo = true ∧ 3 < s.ps.pl.val + (m.offsetAt psLayout.plLo).val then
      writeSfr .ps m s = none
    else ∃ t, writeSfr .ps m s = some t
      ∧ t.ps.pl.val
        = (if m.touchesPair psLayout.plLo then s.ps.pl.val + (m.offsetAt psLayout.plLo).val else s.ps.pl.val)
      ∧ FieldsUpdated m s.ps t.ps ∧ { t with ps := s.ps } = s := by
  split
  · next h => exact writeSfr_ps_overflow m s h.2
  · next h =>
    obtain ⟨d, hwrite, hd⟩ := writeSfr_ps m s fun ht => not_lt.1 fun hover => h ⟨ht, hover⟩
    obtain ⟨hie, het, hil, hother⟩ := psFields_updated m s.ps
    exact ⟨_, hwrite, hd, ⟨hie, het, hil, hother⟩, rfl⟩

/-- Settles O36: each SFR by its regular update. -/
theorem regularUpdateClearsThenSets : Obligations.RegularUpdateClearsThenSets := by
  intro m j s
  refine ⟨?ps, ⟨_, rfl, ?sps⟩, ⟨_, rfl, rfl, rfl, rfl, getLsbD_wordWithin m _ _, rfl⟩, ⟨_, rfl, ?spc⟩, ⟨_, rfl, ?ev⟩,
    ⟨_, rfl, ?ea⟩, ⟨_, rfl, ?es⟩, ⟨_, rfl, getLsbD_word m _, rfl⟩, ⟨_, rfl, getLsbD_word m _, ?ilr, rfl⟩,
    ⟨_, rfl, getLsbD_word m _, ?itEnable, rfl⟩, ⟨_, rfl, getLsbD_word m _, ?itLevel, rfl⟩,
    ⟨_, rfl, ?ev4, ev4_of_image_eq m _, rfl⟩⟩
  case ps =>
    have hpair : m.touchesPair psLayout.plLo = (m.set.getLsbD psLayout.plLo || m.clr.getLsbD psLayout.plLo
        || m.set.getLsbD (psLayout.plLo + 1) || m.clr.getLsbD (psLayout.plLo + 1)) := by
      simp only [Masks.touchesPair, Masks.touches, Bool.or_assoc]
    have hps := writeSfr_ps_updated m s
    rwa [hpair] at hps
  case sps =>
    have hself := level_set_self s.sps j (m.savedStatus s.sps[j])
    exact ⟨congrArg Ps.pl hself, hself.symm ▸ savedStatus_updated m s.sps[j], fun k hk => level_set_ne _ _ _ _ hk, rfl⟩
  case spc => exact ⟨(pcWord_updated m s.spc j).1, (pcWord_updated m s.spc j).2, rfl⟩
  case ev => exact ⟨(pcWord_updated m s.ev j).1, (pcWord_updated m s.ev j).2, rfl⟩
  case ea => exact ⟨(pcWord_updated m s.ea j).1, (pcWord_updated m s.ea j).2, rfl⟩
  case es =>
    refine ⟨fun n hn => ?_, fun k hk => level_set_ne _ _ _ _ hk, rfl⟩
    rw [level_set_self, getLsbD_word m _ n hn]
  case ilr => exact fun k hk => by simp only [State.registered, valueAt_word _ m _ k hk]
  case itEnable => exact fun k hk => by simp only [State.itEnabled, valueAt_word _ m _ k hk]
  case itLevel => exact fun k hk => valueAt_word _ m _ k hk
  case ev4 => exact fun n hn => by rw [image_ev4, getLsbD_word m _ n hn]

end Sys2Proof.Machine
end

section
/-! SUPPORT. The idle modes and what wakes a core (42_idle.md): the idle instructions, the waits and wakes, the moves of the
environment, the interrupts that can be taken, and the WU bits, which a step does not lose. -/

namespace Sys2Proof.Machine

/-! The idle instructions (R100, R103, R106). -/

/-- The bundle of an idle instruction that the level may execute: `mode` is entered when the WU bit is 0. -/
theorem commit_idleEffect (op : Op) (wu : Bool) (mode : Idle) (s : State) (hm : s.MayExecute op) :
    commit s (idleEffect op wu mode s)
      = .next { s with pc := s.nextBundle, idle := if wu then s.idle else mode } := by
  rw [idleEffect, guardOwned_of_mayExecute op s _ hm]
  cases wu <;> rfl

/-- Settles O44: the three instructions are one effect, each with its own WU bit and its own mode. -/
theorem idleInstructionsEnterTheirModes : Obligations.IdleInstructionsEnterTheirModes := fun s =>
  ⟨commit_idleEffect .await s.ws.wu0 .inAwait s, commit_idleEffect .sleep s.ws.wu1 .inSleep s,
    commit_idleEffect .stop s.ws.wu2 .inStop s⟩

/-! The step of an idle core (R101, R104, R107). -/

/-- The turn of a core in AWAIT mode. -/
theorem idleTurn_of_inAwait (s : State) (hi : s.idle = .inAwait) :
    idleTurn s = if s.ws.wu0 then { s with idle := .running, woken := true } else s := by
  rw [idleTurn, hi]

/-- The turn of a core in SLEEP mode. -/
theorem idleTurn_of_inSleep (s : State) (hi : s.idle = .inSleep) :
    idleTurn s = if s.ws.wu1 then { s with idle := .running, woken := true } else s := by
  rw [idleTurn, hi]

/-- The turn of a core in STOP mode. -/
theorem idleTurn_of_inStop (s : State) (hi : s.idle = .inStop) :
    idleTurn s = if s.ws.wu2 then (if s.resetOnWakeup then hardwareReset s else { s with idle := .running }) else s := by
  rw [idleTurn, hi]

/-- The turn of a core that waits changes nothing (U18). -/
theorem idleTurn_of_waiting (s : State) (hw : s.Waiting) : idleTurn s = s := by
  rcases hw with ⟨hi, hwu⟩ | ⟨hi, hwu⟩ | ⟨hi, hwu⟩
  · simp [idleTurn_of_inAwait s hi, hwu]
  · simp [idleTurn_of_inSleep s hi, hwu]
  · simp [idleTurn_of_inStop s hi, hwu]

/-- A core that waits is idle. -/
theorem State.Waiting.ne_running {s : State} (hw : s.Waiting) : s.idle ≠ .running := by
  rcases hw with ⟨hi, -⟩ | ⟨hi, -⟩ | ⟨hi, -⟩ <;> simp [hi]

/-- Settles O46: the step of an idle core is its turn, mode by mode. -/
theorem idleCoreWakesOrWaits : Obligations.IdleCoreWakesOrWaits := by
  intro dec s hscript
  refine ⟨fun hi hwu => ?_, fun hi hwu => ?_, fun hi hwu hreset => ?_, fun hw => ?_⟩
  · rw [stepWith_idle dec s hscript (by simp [hi]), idleTurn_of_inAwait s hi, if_pos hwu]
  · rw [stepWith_idle dec s hscript (by simp [hi]), idleTurn_of_inSleep s hi, if_pos hwu]
  · rw [stepWith_idle dec s hscript (by simp [hi]), idleTurn_of_inStop s hi, if_pos hwu, if_neg (by simp [hreset])]
  · rw [stepWith_idle dec s hscript hw.ne_running, idleTurn_of_waiting s hw]

/-- A hardware reset leaves a state after a hardware reset. -/
theorem hardwareReset_afterReset (s : State) : AfterReset (hardwareReset s) := ⟨_, s, rfl⟩

/-- Settles O47: the step is the hardware reset, of which O55 says what it leaves. -/
theorem stopWakeResets : Obligations.StopWakeResets := by
  intro dec s hscript hi hwu hreset
  have hstep : stepWith dec s = .next (hardwareReset s) := by
    rw [stepWith_idle dec s hscript (by simp [hi]), idleTurn_of_inStop s hi, if_pos hwu, if_pos hreset]
  have hafter := hardwareReset_afterReset s
  exact ⟨_, hstep, hafter, resetGivesEverythingToPl0 _ (.inr hafter)⟩

/-! The moves of the environment (R110, R183). -/

/-- A rising edge on an existing line. -/
theorem envMove_interruptRise (k : Line) (s : State) (hk : lineExists k = true) :
    envMove (.interruptRise k) s
      = { s with ilr := s.registerLine k, ws := { s.ws with wu0 := true, wu1 := s.ws.wu1 || s.eligible k } } :=
  if_pos hk

/-- A turn of the environment is its move. -/
theorem stepWith_env (dec : Decoder) (s : State) (m : EnvMove) (rest : List Turn) (hs : s.script = .env m :: rest) :
    stepWith dec s = .next (envMove m { s with script := rest }) := by
  rw [stepWith, hs]

/-- Settles O48: the step is the rising edge, and ILR is as the registering of the line leaves it. -/
theorem risingEdgeRegisters : Obligations.RisingEdgeRegisters := by
  intro dec s k rest hs hk
  obtain ⟨hregistered, hbits, hkept⟩ := registerLine_cases k s hk
  have hstep := stepWith_env dec s _ rest hs
  rw [envMove_interruptRise k _ hk] at hstep
  exact ⟨_, hstep, hregistered, hbits, hkept, rfl, rfl⟩

/-- Settles O49: each step is the environment's move. -/
theorem eventsAndWakeupSignals : Obligations.EventsAndWakeupSignals := by
  intro dec s e b rest
  have moves : ∀ m, stepWith dec { s with script := .env m :: rest } = .next (envMove m { s with script := rest }) :=
    fun m => stepWith_env dec _ m rest rfl
  exact ⟨moves (.pe2peEvent e), moves .wakeupSignal, moves (.setResetOnWakeup b)⟩

/-! The interrupts that can be taken (R111, R150). -/

/-- A line can be taken when it exists, is registered and is eligible. -/
theorem mem_pending_iff (k : Line) (s : State) :
    k ∈ s.pending ↔ lineExists k = true ∧ s.registered k = true ∧ s.itEnabled k = true
      ∧ s.ps.il.toNat < s.lineLevel k ∧ s.ps.ie = true := by
  simp only [State.pending, List.mem_filter, List.mem_finRange, true_and, State.eligible, Bool.and_eq_true,
    decide_eq_true_eq]
  tauto

/-- No interrupt can be taken where PS.IE is 0. -/
theorem pending_eq_nil_of_masked (s : State) (hie : s.ps.ie = false) : s.pending = [] := by
  refine List.eq_nil_iff_forall_not_mem.2 fun k hk => ?_
  obtain ⟨-, -, -, -, hset⟩ := (mem_pending_iff k s).1 hk
  simp [hie] at hset

/-- Settles O51: an entry clears PS.IE, without which no line can be taken (R137). -/
theorem pendingMeansRegisteredAndEligible : Obligations.PendingMeansRegisteredAndEligible :=
  ⟨mem_pending_iff, fun cat o cause savedPc s =>
    pending_eq_nil_of_masked _ (takeException_entered cat o cause savedPc s).forced.ie⟩

/-- The step of a running core with an interrupt to take: its entry, or the next bundle first where the core has not just
woken (R112, R146). -/
theorem stepWith_of_pending (dec : Decoder) (s : State) (hscript : s.script = []) (hi : s.idle = .running)
    (hp : s.pending ≠ []) :
    (∃ k ∈ s.pending, stepWith dec s = .next (takeInterrupt k s))
      ∨ (s.woken = false ∧ stepWith dec s = runBundle dec { s with draws := s.draws + 1 }) := by
  obtain ⟨k, ks, hks⟩ := List.exists_cons_of_ne_nil hp
  have hstep : stepWith dec s = if s.woken || !Config.delayInterrupt s.draws
      then .next (takeInterrupt (s.chooseInterrupt k ks) s) else runBundle dec { s with draws := s.draws + 1 } := by
    simp only [stepWith, hscript, coreTurn, hi, hks]
  by_cases hnow : (s.woken || !Config.delayInterrupt s.draws) = true
  · exact .inl ⟨_, hks ▸ chooseInterrupt_mem s k ks, by rw [hstep, if_pos hnow]⟩
  · have hwoken : s.woken = false := by
      simp only [Bool.or_eq_true, not_or, Bool.not_eq_true] at hnow
      exact hnow.1
    exact .inr ⟨hwoken, by rw [hstep, if_neg hnow]⟩

/-- Settles O52: where the core takes an interrupt, that is the whole entry, to the level that ITO gives. -/
theorem eligibleInterruptIsTaken : Obligations.EligibleInterruptIsTaken := by
  intro dec s hscript hi hp
  refine (stepWith_of_pending dec s hscript hi hp).imp_left ?_
  rintro ⟨k, hk, hstep⟩
  exact ⟨k, _, hk, hstep, takeException_entered _ _ _ _ _⟩

/-! The WU bits (R113). -/

/-- Every WU bit at 1 in `v` is at 1 in `w`. -/
structure WakeupBitsKept (v w : Ws) : Prop where
  wu0 : v.wu0 = true → w.wu0 = true
  wu1 : v.wu1 = true → w.wu1 = true
  wu2 : v.wu2 = true → w.wu2 = true

/-- A WS that is the same keeps the bits. -/
theorem WakeupBitsKept.of_eq {v w : Ws} (h : w = v) : WakeupBitsKept v w := by
  subst h
  exact ⟨id, id, id⟩

/-- A move of the environment sets WU bits and clears none (R110). -/
theorem envMove_keepsWakeupBits (m : EnvMove) (s : State) : WakeupBitsKept s.ws (envMove m s).ws := by
  cases m with
  | interruptRise k =>
    by_cases hk : lineExists k = true
    · rw [envMove_interruptRise k s hk]
      exact ⟨fun _ => rfl, fun h => Bool.or_eq_true_iff.2 (.inl h), id⟩
    · rw [envMove, if_neg hk]
      exact .of_eq rfl
  | pe2peEvent => exact ⟨fun _ => rfl, id, id⟩
  | wakeupSignal => exact ⟨fun _ => rfl, fun _ => rfl, fun _ => rfl⟩
  | setResetOnWakeup => exact .of_eq rfl

/-- The turn of an idle core leaves WS as it is, unless it is the wake of a stopped core into a reset (R107). -/
theorem idleTurn_ws (s : State) :
    (idleTurn s).ws = s.ws ∨ (s.idle = .inStop ∧ AfterReset (idleTurn s)) := by
  cases hi : s.idle with
  | running =>
    rw [idleTurn, hi]
    exact .inl rfl
  | inAwait =>
    rw [idleTurn_of_inAwait s hi]
    exact .inl (by split <;> rfl)
  | inSleep =>
    rw [idleTurn_of_inSleep s hi]
    exact .inl (by split <;> rfl)
  | inStop =>
    rw [idleTurn_of_inStop s hi]
    split
    · split
      · exact .inr ⟨rfl, hardwareReset_afterReset s⟩
      · exact .inl rfl
    · exact .inl rfl

/-- An instruction that completes leaves WS as it is, unless it is an SFR write that names it. -/
theorem completes_ws {i : Instr} {s t : State} (hc : Completes s i t) (hn : ¬ i.WritesSfr .ws) : t.ws = s.ws := by
  cases hc with
  | register | returns | nothing | idle => rfl
  | write _ sfr m r _ hi _ hu =>
    by_contra hne
    obtain rfl := (writeSfr_target sfr m s t hu).ws hne
    exact hn ⟨r, hi.imp_right (Or.imp_right .inl)⟩
  | exchange sfr m r v u _ hu =>
    by_contra hne
    obtain rfl := (writeSfr_target sfr m s u hu).ws hne
    exact hn ⟨r, .inr (.inr (.inr rfl))⟩

/-- Whatever an instruction does, it leaves WS as it is, unless it is an SFR write that names it. -/
theorem Does.ws {i : Instr} {s t : State} (h : Does s i t) (hn : ¬ i.WritesSfr .ws) : t.ws = s.ws := by
  cases h with
  | trap | syscall => rfl
  | completes _ u hc => exact (completes_ws hc hn :)

/-- A bundle that holds no SFR write naming WS leaves WS as it is. -/
theorem execBundle_ws (b : Bundle) (size : Nat) (s t : State) (hwf : Bundle.WellFormed b size)
    (h : execBundle b s = .next t) (hn : ∀ i ∈ b, ¬ i.WritesSfr .ws) : t.ws = s.ws := by
  obtain ⟨u, hu, -, h⟩ := execBundle_cases b size s t hwf h
  have hus : u.ws = s.ws := (congrArg State.ws hu :)
  rw [← hus]
  rcases h with ⟨i, hi, hdoes⟩ | ⟨cat, o, cause, a, rfl⟩ | rfl
  · exact hdoes.ws (hn i hi)
  · rfl
  · rfl

/-- Each of the things that a step can do keeps the WU bits at 1, but for a bundle that writes WS and a reset. -/
theorem stepWith_keepsWakeupBits (dec : Decoder) (s t : State) (h : stepWith dec s = .next t) :
    WakeupBitsKept s.ws t.ws ∨ (∃ i, s.Fetches dec i ∧ i.WritesSfr .ws) ∨ (s.idle = .inStop ∧ AfterReset t) := by
  obtain ⟨rest, n, h⟩ := stepWith_cases dec s t h
  rcases h with ⟨b, size, hdec, hwf, h⟩ | ⟨cat, o, cause, rfl⟩ | ⟨m, rfl⟩ | ⟨-, rfl⟩ | rfl
  · by_cases hw : ∃ i ∈ b, i.WritesSfr .ws
    · obtain ⟨i, hi, hws⟩ := hw
      exact .inr (.inl ⟨i, ⟨b, size, hdec, hi⟩, hws⟩)
    · have hws := execBundle_ws b size _ t hwf h fun i hi hwrites => hw ⟨i, hi, hwrites⟩
      exact .inl (.of_eq hws)
  · exact .inl (.of_eq rfl)
  · exact .inl (envMove_keepsWakeupBits m { s with script := rest, draws := n })
  · exact (idleTurn_ws { s with script := rest, draws := n }).imp .of_eq .inr
  · exact .inl (.of_eq rfl)

/-- Settles O50: no step, no move of the environment and no instruction but a write of WS takes a WU bit away. -/
theorem wakeupBitsAreNotLost : Obligations.WakeupBitsAreNotLost := by
  refine ⟨fun dec s t h => ?_, fun m i s t => ?_⟩
  · exact (stepWith_keepsWakeupBits dec s t h).imp_left fun hkept => ⟨hkept.wu0, hkept.wu1, hkept.wu2⟩
  · have hkept := envMove_keepsWakeupBits m s
    exact ⟨hkept.wu0, hkept.wu1, hkept.wu2, fun h hn => (exec_does i s t h).ws hn⟩

end Sys2Proof.Machine
end

section
/-! SUPPORT. The instructions of 43_support.md: NOP, MAKE and the system call, at a level that may execute them. -/

namespace Sys2Proof.Machine

/-! MAKE and NOP (R120, R121). -/

/-- MAKE that the level may execute completes with its register written (R120). -/
theorem effectOf_make_of_mayExecute (d : Reg) (imm : Word) (s : State) (hm : s.MayExecute .make) :
    effectOf (.make d imm) s = .complete (s.writeReg d imm) :=
  guardOwned_of_mayExecute .make s _ hm

/-- Settles O41: NOP has no owner and no effect, so its bundle completes from the unchanged state. -/
theorem nopOnlyMovesPc : Obligations.NopOnlyMovesPc := fun s => exec_of_complete .nop s s rfl

/-- Settles O42: MAKE is one register write and the end of the bundle. -/
theorem makeLoadsTheImmediate : Obligations.MakeLoadsTheImmediate := by
  intro d imm s hm
  have hexec := exec_of_complete _ s _ (effectOf_make_of_mayExecute d imm s hm)
  exact ⟨(s.writeReg d imm).endBundle, hexec, readReg_writeReg_self s d imm,
    fun r hr => readReg_writeReg_ne s d r imm hr, rfl, fun _ => rfl, rfl⟩

/-! The system call (R122). -/

/-- A system call that the level may execute is owned by the SYO field that it selects (R122). -/
theorem effectOf_scall_of_mayExecute (n : BitVec 16) (s : State) (hm : s.MayExecute .scall) :
    effectOf (.scall n) s = .syscall (s.owner .syo (syoSlot n)) n :=
  guardOwned_of_mayExecute .scall s _ hm

/-- Settles O43: the guard passes, so the system call runs, and one that runs is the whole entry to its owner. -/
theorem systemCallEntersItsOwner : Obligations.SystemCallEntersItsOwner := by
  intro n s hm
  have hruns : s.Runs (.scall n) := .inr ⟨_, _, effectOf_scall_of_mayExecute n s hm⟩
  exact exec_scall_of_registers s s n hruns rfl

end Sys2Proof.Machine
end

section
/-! SUPPORT. The statements of the exceptions (60_exceptions.md): the entry, the return that undoes it, the
handlers, the addresses saved, and the OPCODE trap of WFX* on EA. -/

namespace Sys2Proof.Machine

/-! The entry and the return (R134, R138). -/

/-- Settles O9: the parts of the entry are proved one by one in `takeException_entered`. -/
theorem takingAnExceptionEnters : Obligations.TakingAnExceptionEnters := takeException_entered

/-- After an entry, the saved relative level means the level that was interrupted, so it never overflows (R138). -/
theorem Entered.savedLevel {cat : Category} {o j : Level} {savedPc : Pc} {s t : State}
    (h : Entered cat o savedPc s t j) : addLevels t.ps.pl (t.sps[t.ps.pl]).pl = some s.ps.pl := by
  obtain rfl := h.level
  have hle : t.ps.pl ≤ s.ps.pl := h.dest ▸ min_le_right o s.ps.pl
  rw [addLevels_eq_some, h.relative]
  exact Nat.add_sub_cancel' hle

/-- The return to the level that was interrupted puts back the PS from before the entry (R60, R134). -/
theorem Entered.returns_ps {cat : Category} {o j : Level} {savedPc : Pc} {s t : State}
    (h : Entered cat o savedPc s t j) : (returnFromException s.ps.pl t).ps = s.ps := by
  obtain rfl := h.level
  exact congrArg (fun p : Ps => { p with pl := s.ps.pl }) h.saved

/-- The return goes to the address that the entry saved (R60, R134). -/
theorem Entered.returns_nextBundle {cat : Category} {o j : Level} {savedPc : Pc} {s t : State}
    (h : Entered cat o savedPc s t j) (d : Level) : (returnFromException d t).nextBundle = savedPc := by
  obtain rfl := h.level
  exact h.savedPc

/-- Settles O12: the saved level fits, so RFE completes with the return to the level that was interrupted. -/
theorem returnUndoesEntry : Obligations.ReturnUndoesEntry := by
  intro cat o cause savedPc s hm
  have hentered := takeException_entered cat o cause savedPc s
  have hexec := exec_of_complete .rfe _ _ (effectOf_rfe_of_fits _ s.ps.pl hm hentered.savedLevel)
  exact ⟨_, hexec, hentered.returns_ps, hentered.returns_nextBundle s.ps.pl⟩

/-! The OPCODE trap (R145). -/

/-- Settles O30: the table has no row for WFX* on EA (R72), and the OPCODE check comes before the ownership is looked at
(R70). -/
theorem opcodeWinsOverPrivilege : Obligations.OpcodeWinsOverPrivilege := by
  intro j x s
  have hrow : ∀ m, ¬AccessPasses .wfx (.ea j) m := fun _ hp => Bool.false_ne_true hp.1
  exact ⟨sfrWrite_trapsOpcode s _ _ _ _ rfl (hrow _), sfrWrite_trapsOpcode s _ _ _ _ rfl (hrow _)⟩

/-! The handlers (R140). -/

/-- The list of the categories has them all. -/
theorem mem_allCategories (c : Category) : c ∈ allCategories := by
  cases c <;> decide

/-- Settles O10: the list of the handler addresses of one EV value has no repetition. -/
theorem categoriesHaveDistinctHandlers : Obligations.CategoriesHaveDistinctHandlers := fun ev c d hne heq =>
  hne (List.inj_on_of_nodup_map (handlerPc_nodup ev) (mem_allCategories c) (mem_allCategories d) heq)

/-! The addresses saved, and the debug turn (R139, R157). -/

/-- A debug turn of the script is the core's answer to it. -/
theorem stepWith_debug (dec : Decoder) (s : State) (d : BitVec 5) (rest : List Turn)
    (hs : s.script = .debug d :: rest) :
    stepWith dec s = .next (debugTurn d { s with script := rest }) := by
  rw [stepWith, hs]

/-- Taking a debug event is the whole entry, with the address of the bundle that raised it saved (R131, R139). -/
theorem takeDebug_entered (d : BitVec 5) (s : State) :
    Entered .debug (s.owner .dbo (doSlot d)) s.pc s (takeDebug d s) (min (s.owner .dbo (doSlot d)) s.ps.pl) :=
  takeException_entered _ _ _ _ _

/-- Taking an interrupt is the whole entry, with the address of the next bundle to execute saved (R139, R150). -/
theorem takeInterrupt_entered (k : Line) (s : State) :
    Entered .interrupt (s.owner .ito k) s.pc s (takeInterrupt k s) (min (s.owner .ito k) s.ps.pl) :=
  takeException_entered _ _ _ _ _

/-- Taking a system call is the whole entry, with the address of the logical successor saved (R122, R139). -/
theorem takeSyscall_entered (o : Level) (n : BitVec 16) (s : State) :
    Entered .syscall o s.nextBundle s (takeSyscall o n s) (min o s.ps.pl) :=
  takeException_entered _ _ _ _ _

/-- Settles O11: each category's entry saves the address it is given, and a debug turn is an entry, unless the core is
idle. -/
theorem savedAddressByCategory : Obligations.SavedAddressByCategory := by
  refine ⟨fun s o cause k d n => ?saved, fun dec s d rest hs => ?turn⟩
  case saved =>
    exact ⟨(takeTrap_entered o cause s).savedPc, (takeDebug_entered d s).savedPc, (takeInterrupt_entered k s).savedPc,
      (takeSyscall_entered o n s).savedPc⟩
  case turn =>
    rw [stepWith_debug dec s d rest hs]
    refine ⟨fun hi hw => ?debug, fun hi hw hp => ?interrupt, fun hi => ?idle⟩
    case debug =>
      rw [debugTurn_debug d { s with script := rest } hi hw]
      exact ⟨_, rfl, takeDebug_entered d { s with script := rest }⟩
    case interrupt =>
      obtain ⟨k, hk, hturn⟩ := debugTurn_interrupt d { s with script := rest } hi hw hp
      rw [hturn]
      exact ⟨k, hk, _, rfl, takeInterrupt_entered k { s with script := rest }⟩
    case idle => rw [debugTurn_idle d { s with script := rest } hi]

end Sys2Proof.Machine
end
